-- ==== Sys2Proof/Word.lean ====
section
/-! DEFINITION. The word types of the TroveKit codec engine (spec/00_scope.md R14, R15). -/

namespace Sys2Proof

/-- One byte of a byte sequence, 0..255 (R15). -/
abbrev Byte := BitVec 8

/-- One register or command word: "Every register is 32 bits wide" (10_state.md R21). -/
abbrev Word := BitVec 32

/-- One cipher block, 128 bits, 16 bytes with the first byte most significant (00_scope.md R10,
46_block_core_sm4.md R322). -/
abbrev Block := BitVec 128

/-- A finite byte sequence, first byte first (R15). -/
abbrev Bytes := List Byte

/-- A byte offset into the 4 MiB window (20_memory.md R60). -/
abbrev Offset := BitVec 22

end Sys2Proof
end

