-- ==== Sys2Proof/Syntax.lean ====
section
/-! DEFINITION. The commands as syntax: one constructor of `Instr` per row of spec/opcode_table.json,
and the closed sets its operands are drawn from (spec/30_encoding.md R91 to R96). -/

namespace Sys2Proof

/-- The direction, `OPC[0]`: 0 = encode or encrypt, 1 = decode or decrypt (30_encoding.md R91). -/
inductive Dir where
  | enc
  | dec
  deriving DecidableEq, Repr

/-- The base identifiers (00_scope.md R10). -/
inductive Base where
  | b16
  | b32
  | b58
  | b62
  | b64
  | b85
  | b91
  deriving DecidableEq, Repr

/-- The block-cipher modes, in the document's order (30_encoding.md R94). -/
inductive Mode where
  | ecb
  | cbc
  | cfb
  | ofb
  | ctr
  deriving DecidableEq, Repr

/-- The paddings, in the document's order (30_encoding.md R94). -/
inductive Pad where
  | pkcs7
  | zero
  | none
  deriving DecidableEq, Repr

/-- The text form of ciphertext, `FMT` (30_encoding.md R93). -/
inductive Fmt where
  | hex
  | base64
  deriving DecidableEq, Repr

/-- How a key or IV string becomes 16 bytes, `KT` and `IVT` (30_encoding.md R93). -/
inductive StrType where
  | text
  | hex
  deriving DecidableEq, Repr

/-- The fields of a format-S word beside `OPC` and `MODE` (30_encoding.md R93). `ivt` is kept when
`ivtp` is false: the bit is there, and a don't-care (R103). -/
structure CipherOpts where
  pad : Pad
  fmt : Fmt
  kt : StrType
  /-- `IVP`: an IV string stands in IV. -/
  ivp : Bool
  /-- `IVTP`: `IVT` is meaningful. -/
  ivtp : Bool
  ivt : StrType
  deriving DecidableEq, Repr

/-- The 24 commands (30_encoding.md R96), in the table's order. `ap` is the format-X bit `AP`. -/
inductive Instr where
  | bxe16 (ap : Bool)
  | bxe32 (ap : Bool)
  | bxe58 (ap : Bool)
  | bxe62 (ap : Bool)
  | bxe64 (ap : Bool)
  | bxe85 (ap : Bool)
  | bxe91 (ap : Bool)
  | bxd16 (ap : Bool)
  | bxd32 (ap : Bool)
  | bxd58 (ap : Bool)
  | bxd62 (ap : Bool)
  | bxd64 (ap : Bool)
  | bxd85 (ap : Bool)
  | bxd91 (ap : Bool)
  | sm4eEcb (o : CipherOpts)
  | sm4eCbc (o : CipherOpts)
  | sm4eCfb (o : CipherOpts)
  | sm4eOfb (o : CipherOpts)
  | sm4eCtr (o : CipherOpts)
  | sm4dEcb (o : CipherOpts)
  | sm4dCbc (o : CipherOpts)
  | sm4dCfb (o : CipherOpts)
  | sm4dOfb (o : CipherOpts)
  | sm4dCtr (o : CipherOpts)
  deriving DecidableEq, Repr

end Sys2Proof
end

