-- ==== Sys2Proof/Decode.lean ====
section
/-! DEFINITION. Decoding a command word (spec/30_encoding.md R90 to R105), total on all 2^32 words and
rejecting by name; the opcode map as data (R96); and the encoder, written from the same tables. -/

namespace Sys2Proof

/-! ## Fields and their numbers -/

/-- The field `w[lo + n - 1 : lo]`, `n` bits wide (00_scope.md R14). -/
def bits (w : Word) (lo n : Nat) : BitVec n := w.extractLsb' lo n

/-- A one-bit field as a Bool. -/
def bit (w : Word) (i : Nat) : Bool := w.getLsbD i

/-- `OPC[0]` (R91). -/
def Dir.ofBit (b : Bool) : Dir := bif b then .dec else .enc

/-- The radix of a base identifier; "`BASE` is the radix itself" (R94). -/
def Base.radix : Base → Nat
  | .b16 => 16
  | .b32 => 32
  | .b58 => 58
  | .b62 => 62
  | .b64 => 64
  | .b85 => 85
  | .b91 => 91

/-- The `BASE` field of a base identifier (R92, R94). -/
def Base.field (b : Base) : BitVec 8 := BitVec.ofNat 8 b.radix

/-- All base identifiers, in the order of 00_scope.md R10. -/
def Base.all : List Base := [.b16, .b32, .b58, .b62, .b64, .b85, .b91]

/-- The base identifier of a `BASE` field; none for the 249 other values (R102). -/
def Base.ofField (f : BitVec 8) : Option Base := Base.all.find? (fun b => b.field == f)

/-- `MODE` of a mode (R93, R94). -/
def Mode.field : Mode → BitVec 3
  | .ecb => 0
  | .cbc => 1
  | .cfb => 2
  | .ofb => 3
  | .ctr => 4

/-- All modes, in the order of R94. -/
def Mode.all : List Mode := [.ecb, .cbc, .cfb, .ofb, .ctr]

/-- The mode of a `MODE` field; none for 5 to 7 (R93). -/
def Mode.ofField (f : BitVec 3) : Option Mode := Mode.all.find? (fun m => m.field == f)

/-- `PAD` of a padding (R93, R94). -/
def Pad.field : Pad → BitVec 2
  | .pkcs7 => 0
  | .zero => 1
  | .none => 2

/-- All paddings, in the order of R94. -/
def Pad.all : List Pad := [.pkcs7, .zero, .none]

/-- The padding of a `PAD` field; none for 3 (R93). -/
def Pad.ofField (f : BitVec 2) : Option Pad := Pad.all.find? (fun p => p.field == f)

/-- `FMT` (R93): 0 Hex, 1 Base64. -/
def Fmt.ofBit (b : Bool) : Fmt := bif b then .base64 else .hex

/-- The `FMT` bit of a format. -/
def Fmt.bit : Fmt → Bool
  | .hex => false
  | .base64 => true

/-- `KT`, `IVT` (R93): 0 Text, 1 Hex. -/
def StrType.ofBit (b : Bool) : StrType := bif b then .hex else .text

/-- The `KT` or `IVT` bit of a string type. -/
def StrType.bit : StrType → Bool
  | .text => false
  | .hex => true

/-! ## The commands by operation and base or mode -/

/-- The command `BXE.b` or `BXD.b` with its `AP` bit. -/
def Instr.ofBx (d : Dir) (b : Base) (ap : Bool) : Instr :=
  match d, b with
  | .enc, .b16 => .bxe16 ap
  | .enc, .b32 => .bxe32 ap
  | .enc, .b58 => .bxe58 ap
  | .enc, .b62 => .bxe62 ap
  | .enc, .b64 => .bxe64 ap
  | .enc, .b85 => .bxe85 ap
  | .enc, .b91 => .bxe91 ap
  | .dec, .b16 => .bxd16 ap
  | .dec, .b32 => .bxd32 ap
  | .dec, .b58 => .bxd58 ap
  | .dec, .b62 => .bxd62 ap
  | .dec, .b64 => .bxd64 ap
  | .dec, .b85 => .bxd85 ap
  | .dec, .b91 => .bxd91 ap

/-- The command `SM4E.m` or `SM4D.m` with its fields. -/
def Instr.ofSm4 (d : Dir) (m : Mode) (o : CipherOpts) : Instr :=
  match d, m with
  | .enc, .ecb => .sm4eEcb o
  | .enc, .cbc => .sm4eCbc o
  | .enc, .cfb => .sm4eCfb o
  | .enc, .ofb => .sm4eOfb o
  | .enc, .ctr => .sm4eCtr o
  | .dec, .ecb => .sm4dEcb o
  | .dec, .cbc => .sm4dCbc o
  | .dec, .cfb => .sm4dCfb o
  | .dec, .ofb => .sm4dOfb o
  | .dec, .ctr => .sm4dCtr o

/-! ## Decode -/

/-- The two ways a word is no command (R97). -/
inductive DecodeError where
  /-- R101: unknown `OPC`, a reserved bit set, `MODE` > 4, `PAD` = 3. -/
  | illegal
  /-- R102: a well-formed format-X word whose `BASE` field `b` is not one of the seven. -/
  | unknownBase (b : BitVec 8)
  deriving DecidableEq, Repr

/-- The format-X part of `Decode` (R92, R97). -/
def decodeX (w : Word) : Except DecodeError Instr :=
  if bits w 5 3 ≠ 0 ∨ bits w 16 16 ≠ 0 then .error .illegal
  else
    match Base.ofField (bits w 8 8) with
    | none => .error (.unknownBase (bits w 8 8))
    | some b => .ok (Instr.ofBx (Dir.ofBit (bit w 0)) b (bit w 4))

/-- The format-S part of `Decode` (R93, R97). -/
def decodeS (w : Word) : Except DecodeError Instr :=
  if bits w 4 4 ≠ 0 ∨ bit w 11 = true ∨ bits w 14 2 ≠ 0 ∨ bits w 21 11 ≠ 0 then .error .illegal
  else
    match Mode.ofField (bits w 8 3), Pad.ofField (bits w 12 2) with
    | some m, some p =>
      .ok (Instr.ofSm4 (Dir.ofBit (bit w 0)) m
        { pad := p
          fmt := Fmt.ofBit (bit w 16)
          kt := StrType.ofBit (bit w 17)
          ivp := bit w 18
          ivtp := bit w 19
          ivt := StrType.ofBit (bit w 20) })
    | _, _ => .error .illegal

/-- `Decode(w)` (R97), total on all 2^32 words. -/
def decode (w : Word) : Except DecodeError Instr :=
  if bits w 0 4 = 2 ∨ bits w 0 4 = 3 then decodeX w
  else if bits w 0 4 = 4 ∨ bits w 0 4 = 5 then decodeS w
  else .error .illegal

/-- The instruction the decoder reads from a word whose bits are numbered as
spec/opcode_table.json numbers them: a command is one 32-bit word (R90), bit 0 its least significant
bit, and `nbits` is 32 for every row. Bits at and above `nbits` are 0. -/
def decodeTableWord (nbits w : Nat) : Option Instr :=
  match decode (BitVec.ofNat 32 (w % 2 ^ nbits)) with
  | .ok i => some i
  | .error _ => none

/-! ## Encode -/

/-- A format-X word (R92), fields from bit 31 down. -/
def wordX (base : BitVec 8) (ap : Bool) (opc : BitVec 4) : Word :=
  0#16 ++ base ++ 0#3 ++ BitVec.ofBool ap ++ opc

/-- A format-S word (R93), fields from bit 31 down. -/
def wordS (o : CipherOpts) (mode : BitVec 3) (opc : BitVec 4) : Word :=
  0#11 ++ BitVec.ofBool o.ivt.bit ++ BitVec.ofBool o.ivtp ++ BitVec.ofBool o.ivp
    ++ BitVec.ofBool o.kt.bit ++ BitVec.ofBool o.fmt.bit ++ 0#2 ++ o.pad.field ++ 0#1 ++ mode
    ++ 0#4 ++ opc

/-- The command word of an instruction (R91 to R94). -/
def encode : Instr → Word
  | .bxe16 ap => wordX Base.b16.field ap 2
  | .bxe32 ap => wordX Base.b32.field ap 2
  | .bxe58 ap => wordX Base.b58.field ap 2
  | .bxe62 ap => wordX Base.b62.field ap 2
  | .bxe64 ap => wordX Base.b64.field ap 2
  | .bxe85 ap => wordX Base.b85.field ap 2
  | .bxe91 ap => wordX Base.b91.field ap 2
  | .bxd16 ap => wordX Base.b16.field ap 3
  | .bxd32 ap => wordX Base.b32.field ap 3
  | .bxd58 ap => wordX Base.b58.field ap 3
  | .bxd62 ap => wordX Base.b62.field ap 3
  | .bxd64 ap => wordX Base.b64.field ap 3
  | .bxd85 ap => wordX Base.b85.field ap 3
  | .bxd91 ap => wordX Base.b91.field ap 3
  | .sm4eEcb o => wordS o Mode.ecb.field 4
  | .sm4eCbc o => wordS o Mode.cbc.field 4
  | .sm4eCfb o => wordS o Mode.cfb.field 4
  | .sm4eOfb o => wordS o Mode.ofb.field 4
  | .sm4eCtr o => wordS o Mode.ctr.field 4
  | .sm4dEcb o => wordS o Mode.ecb.field 5
  | .sm4dCbc o => wordS o Mode.cbc.field 5
  | .sm4dCfb o => wordS o Mode.cfb.field 5
  | .sm4dOfb o => wordS o Mode.ofb.field 5
  | .sm4dCtr o => wordS o Mode.ctr.field 5

/-! ## The opcode map as data -/

/-- The two formats (R90). -/
inductive Format where
  | x
  | s
  deriving DecidableEq, Repr

/-- One row of the opcode map (R96). -/
structure Row where
  mnemonic : String
  format : Format
  matchBits : Word
  mask : Word
  deriving DecidableEq, Repr

/-- The opcode map, row by row as R96 prints it. -/
def opcodeMap : List Row :=
  [ ⟨"BXE.16", .x, 0x00001002, 0xFFFFFFEF⟩,
    ⟨"BXE.32", .x, 0x00002002, 0xFFFFFFEF⟩,
    ⟨"BXE.58", .x, 0x00003A02, 0xFFFFFFEF⟩,
    ⟨"BXE.62", .x, 0x00003E02, 0xFFFFFFEF⟩,
    ⟨"BXE.64", .x, 0x00004002, 0xFFFFFFEF⟩,
    ⟨"BXE.85", .x, 0x00005502, 0xFFFFFFEF⟩,
    ⟨"BXE.91", .x, 0x00005B02, 0xFFFFFFEF⟩,
    ⟨"BXD.16", .x, 0x00001003, 0xFFFFFFEF⟩,
    ⟨"BXD.32", .x, 0x00002003, 0xFFFFFFEF⟩,
    ⟨"BXD.58", .x, 0x00003A03, 0xFFFFFFEF⟩,
    ⟨"BXD.62", .x, 0x00003E03, 0xFFFFFFEF⟩,
    ⟨"BXD.64", .x, 0x00004003, 0xFFFFFFEF⟩,
    ⟨"BXD.85", .x, 0x00005503, 0xFFFFFFEF⟩,
    ⟨"BXD.91", .x, 0x00005B03, 0xFFFFFFEF⟩ ] ++
  [ ⟨"SM4E.ECB", .s, 0x00000004, 0xFFE0CFFF⟩,
    ⟨"SM4E.CBC", .s, 0x00000104, 0xFFE0CFFF⟩,
    ⟨"SM4E.CFB", .s, 0x00000204, 0xFFE0CFFF⟩,
    ⟨"SM4E.OFB", .s, 0x00000304, 0xFFE0CFFF⟩,
    ⟨"SM4E.CTR", .s, 0x00000404, 0xFFE0CFFF⟩,
    ⟨"SM4D.ECB", .s, 0x00000005, 0xFFE0CFFF⟩,
    ⟨"SM4D.CBC", .s, 0x00000105, 0xFFE0CFFF⟩,
    ⟨"SM4D.CFB", .s, 0x00000205, 0xFFE0CFFF⟩,
    ⟨"SM4D.OFB", .s, 0x00000305, 0xFFE0CFFF⟩,
    ⟨"SM4D.CTR", .s, 0x00000405, 0xFFE0CFFF⟩ ]

/-- "A word `w` is command `c` exactly when `(w & mask_c) = match_c`, and for format S also
`PAD ≠ 3`" (R96). -/
def Row.matches (r : Row) (w : Word) : Bool :=
  (w &&& r.mask == r.matchBits) && (r.format == .x || bits w 12 2 != 3)

/-- The mnemonic of a command, as the opcode map spells it. -/
def Instr.mnemonic : Instr → String
  | .bxe16 _ => "BXE.16"
  | .bxe32 _ => "BXE.32"
  | .bxe58 _ => "BXE.58"
  | .bxe62 _ => "BXE.62"
  | .bxe64 _ => "BXE.64"
  | .bxe85 _ => "BXE.85"
  | .bxe91 _ => "BXE.91"
  | .bxd16 _ => "BXD.16"
  | .bxd32 _ => "BXD.32"
  | .bxd58 _ => "BXD.58"
  | .bxd62 _ => "BXD.62"
  | .bxd64 _ => "BXD.64"
  | .bxd85 _ => "BXD.85"
  | .bxd91 _ => "BXD.91"
  | .sm4eEcb _ => "SM4E.ECB"
  | .sm4eCbc _ => "SM4E.CBC"
  | .sm4eCfb _ => "SM4E.CFB"
  | .sm4eOfb _ => "SM4E.OFB"
  | .sm4eCtr _ => "SM4E.CTR"
  | .sm4dEcb _ => "SM4D.ECB"
  | .sm4dCbc _ => "SM4D.CBC"
  | .sm4dCfb _ => "SM4D.CFB"
  | .sm4dOfb _ => "SM4D.OFB"
  | .sm4dCtr _ => "SM4D.CTR"

end Sys2Proof
end

