-- ==== Sys2Proof/Machine/Bytes.lean ====
section
/-! DEFINITION. The notation of the spec on byte sequences (spec/00_scope.md R15): numbers as bytes,
bytes as numbers, digits, exclusive or, blocks. -/

namespace Sys2Proof

/-- `be(B)`: the number whose big-endian base-256 digits are `B`; `be([]) = 0` (R15). -/
def beNat (B : Bytes) : Nat := B.foldl (fun acc b => acc * 256 + b.toNat) 0

/-- The `k`-byte little-endian form of `v mod 256^k`: the bus byte order (20_memory.md R62). -/
def bytesLe : Nat → Nat → Bytes
  | 0, _ => []
  | k + 1, v => BitVec.ofNat 8 v :: bytesLe k (v / 256)

/-- `bytes_be(v, k)`: the `k`-byte big-endian form of `v` (R15). -/
def bytesBe (k v : Nat) : Bytes := (bytesLe k v).reverse

/-- The number whose little-endian base-256 digits are `B` (20_memory.md R62). -/
def leNat : Bytes → Nat
  | [] => 0
  | b :: B => b.toNat + 256 * leNat B

/-- The base-`R` digits of `N`, least significant first, by repeated division until the quotient is 0
(42_bigint_codec.md R191). `fuel` bounds the number of divisions. -/
def digitsLe (R : Nat) : (fuel : Nat) → Nat → List Nat
  | 0, _ => []
  | fuel + 1, N => if N = 0 then [] else (N % R) :: digitsLe R fuel (N / R)

/-- The base-`R` digits of `N`, least significant first; `Nat.log2 N + 1` divisions are enough for
every radix of 2 or more. -/
def digitsOf (R N : Nat) : List Nat := digitsLe R (Nat.log2 N + 1) N

/-- `minbytes_be(v)`: the shortest big-endian form of `v`; `minbytes_be(0) = []` (R15). -/
def minbytesBe (v : Nat) : Bytes := (digitsOf 256 v).reverse.map (BitVec.ofNat 8)

/-- `StripWs(T)` with the whitespace set `ws` (40_basex_front_end.md R130). -/
def stripWs (ws T : Bytes) : Bytes := T.filter (fun c => !ws.contains c)

/-- The padding character `=` (00_scope.md R10). -/
def padChar : Byte := 0x3D

/-- `xor(B, C)` with `len(B) ≤ len(C)`: the exclusive or of `B` with the first bytes of `C` (R15). -/
def xorBytes (B C : Bytes) : Bytes := List.zipWith (· ^^^ ·) B C

/-- The block whose 16 bytes are `B`, first byte most significant. -/
def blockOf (B : Bytes) : Block := BitVec.ofNat 128 (beNat B)

/-- The 16 bytes of a block, most significant first. -/
def blockBytes (x : Block) : Bytes := bytesBe 16 x.toNat

/-- `B` cut into pieces of `k` bytes, the last one possibly shorter; `fuel` bounds their number. -/
def chunksFuel (k : Nat) : (fuel : Nat) → Bytes → List Bytes
  | 0, _ => []
  | fuel + 1, B => if B = [] then [] else B.take k :: chunksFuel k fuel (B.drop k)

/-- `B` cut into pieces of `k` bytes (`k > 0`), the last one possibly shorter
(45_cipher_mode_controller.md R270, R277; 43_static_table_codec.md R226, R227). -/
def chunks (k : Nat) (B : Bytes) : List Bytes := chunksFuel k B.length B

/-- `n` bytes in a row, from `first` up: the ranges in which the spec writes its alphabets. -/
def byteRange (first n : Nat) : Bytes := (List.range n).map (fun i => BitVec.ofNat 8 (first + i))

/-- `val_A(c)`: the digit value of the symbol `c`, the `d` with `A[d] = c`; used only where `c` occurs
in `A` (R16). -/
def valOf (A : Bytes) (c : Byte) : Nat := A.idxOf c

/-- `A[d]`: the symbol of digit `d`; used only for `d < len(A)` (R16). -/
def symOf (A : Bytes) (d : Nat) : Byte := A.getD d 0

end Sys2Proof
end

