-- ==== Sys2Proof/Config.lean ====
section
/-! DEFINITION. The implementation parameters (spec/00_scope.md R13) and the free values: what an
implementation fixes, as plain data, and the constants without a body that stand for what the spec
leaves open. -/

namespace Sys2Proof

/-- Why a text is malformed: the reasons of 60_exceptions.md R351, as far as a codec can give them.
A decoder of the static-table unit fails only with one of these (43_static_table_codec.md R224
`P_err`), which its type says. -/
inductive Reason where
  | badSymbol
  | badPadding
  | truncated
  | trailingBits
  | alphabetDuplicate
  | alphabetNonAscii
  | outOfRange
  deriving DecidableEq, Repr, Inhabited

/-- Which instance of an open configuration function is built in: the default the spec defines, or
some other one, known by its number (00_scope.md R13; logs 6 and 7 say what the model knows of it). -/
inductive Variant where
  | standard
  | other (n : Nat)
  deriving DecidableEq, Repr, Inhabited

/-- The implementation parameters of 00_scope.md R13, constant for the life of an instance. `A16`,
`A32` and `A64` are no fields: "fixed by the document's words" (92_eei_decisions.md note 2; log 8).
`N_INST` is the length of a `Platform`. -/
structure Config where
  /-- `IN_MAX`: capacity of the IN buffer in bytes. -/
  inMax : Nat
  /-- `OUT_MAX`: capacity of the OUT buffer in bytes. -/
  outMax : Nat
  /-- `WS`: the bytes removed by whitespace stripping. -/
  ws : Bytes
  /-- `A58`: the default base-58 alphabet. -/
  a58 : Bytes
  /-- `A62`: the default base-62 alphabet. -/
  a62 : Bytes
  /-- `CTR_WIDTH`: how many low-order bits of the counter block the increment carries through. -/
  ctrWidth : Nat
  /-- `B85Enc`, `B85Dec`: which base-85 transform pair. -/
  b85 : Variant
  /-- `B91Enc`, `B91Dec`: which base-91 transform pair. -/
  b91 : Variant
  /-- `BlockEnc`, `BlockDec`: which 128-bit block cipher core. -/
  core : Variant
  deriving DecidableEq, Repr

/-- FREE VALUE (93_implementation_defined.md U1 to U4). The byte that draw number `k` gives for the
window offset `a`, where the spec leaves the byte unspecified: a buffer byte that nothing has
written, or a byte of OUT that is no payload. Nothing is known of it. Log 1. -/
opaque Config.freeByte (k a : Nat) : Byte

/-- FREE VALUE (93_implementation_defined.md U3). The word that draw number `k` gives for a read of
the register at offset `a` of `x[4..7]` while BUSY. Nothing is known of it. Log 1. -/
opaque Config.freeWord (k a : Nat) : Word

/-- A static-table transform pair with the named properties of 43_static_table_codec.md R224, for a text
that is stripped of `ws` before it is decoded: `P_total` and `P_err` by the types of `enc` and `dec`;
`P_rt85`, or with no whitespace `P_rt91`; and `P_empty`. No admissible `WS` holds `=`
(92_eei_decisions.md D10). -/
structure StaticCodec (ws : Bytes) where
  enc : Bytes → Bytes
  dec : Bytes → Except Reason Bytes
  rt : padChar ∉ ws → ∀ D, dec (stripWs ws (enc D)) = .ok D
  encEmpty : enc [] = []
  decEmpty : dec [] = .ok []

/-- FREE VALUE (U20): the base-85 pair of the non-default instance `n`, of which nothing is known but the
properties of R224. The inhabitant says only that such pairs exist. Log 6. -/
opaque Config.otherB85 (n : Nat) (ws : Bytes) [Inhabited (StaticCodec ws)] : StaticCodec ws

/-- FREE VALUE (U20): the base-91 pair of the non-default instance `n`, which strips nothing. Log 6. -/
opaque Config.otherB91 (n : Nat) [Inhabited (StaticCodec [])] : StaticCodec []

/-- FREE VALUE (U21): the permutation of the 2^128 blocks that the non-default core `n` is under the key
`K`. Its type says `P_total`, `P_inv` and `P_perm` of 46_block_core_sm4.md R321; `P_kat` is laid on it in
`Config.otherCore`. Log 7. -/
opaque Config.otherPerm (n : Nat) (k : Block) : Equiv.Perm Block

end Sys2Proof
end

