-- ==== Sys2Proof/Machine/Tables.lean ====
section
/-! DEFINITION. The constant tables: the built-in alphabets (spec/40_basex_front_end.md R122,
43_static_table_codec.md R225, R228) and the default values of the parameters (00_scope.md R13). -/

namespace Sys2Proof

/-- `A16`: `0`–`9`, `a`–`f` (40_basex_front_end.md R122). -/
def a16 : Bytes := byteRange 0x30 10 ++ byteRange 0x61 6

/-- `A32`: `A`–`Z`, `2`–`7` (R122). -/
def a32 : Bytes := byteRange 0x41 26 ++ byteRange 0x32 6

/-- `A64`: `A`–`Z`, `a`–`z`, `0`–`9`, `+`, `/` (R122). -/
def a64 : Bytes := byteRange 0x41 26 ++ byteRange 0x61 26 ++ byteRange 0x30 10 ++ [0x2B, 0x2F]

/-- The default `A58`: "the digits and letters without `0`, `I`, `O`, `l`", upper case first
(R122). -/
def a58Default : Bytes :=
  byteRange 0x31 9 ++ byteRange 0x41 8 ++ byteRange 0x4A 5 ++ byteRange 0x50 11
    ++ byteRange 0x61 11 ++ byteRange 0x6D 14

/-- The default `A62`: `0`–`9`, `A`–`Z`, `a`–`z` (R122). -/
def a62Default : Bytes := byteRange 0x30 10 ++ byteRange 0x41 26 ++ byteRange 0x61 26

/-- `A85`: digit `d` is the byte `0x21 + d`, `!` to `u` (43_static_table_codec.md R225). -/
def a85 : Bytes := byteRange 0x21 85

/-- `A91` (43_static_table_codec.md R228). -/
def a91 : Bytes :=
  byteRange 0x41 26 ++ byteRange 0x61 26 ++ byteRange 0x30 10
    ++ [0x21, 0x23, 0x24, 0x25, 0x26, 0x28, 0x29, 0x2A, 0x2B, 0x2C, 0x2E, 0x2F, 0x3A, 0x3B, 0x3C,
        0x3D, 0x3E, 0x3F, 0x40, 0x5B, 0x5D, 0x5E, 0x5F, 0x60, 0x7B, 0x7C, 0x7D, 0x7E, 0x22]

/-- The default `WS` (00_scope.md R13, 40_basex_front_end.md R130). -/
def wsDefault : Bytes := [0x09, 0x0A, 0x0B, 0x0C, 0x0D, 0x20]

/-- The default configuration: the default column of 00_scope.md R13. Log 4 to 7. -/
def Config.default : Config where
  inMax := 65536
  outMax := 262144
  ws := wsDefault
  a58 := a58Default
  a62 := a62Default
  ctrWidth := 128
  b85 := .standard
  b91 := .standard
  core := .standard

end Sys2Proof
end

