-- ==== Sys2Proof/Machine/State.lean ====
section
/-! DEFINITION. The state of one TKCE instance (spec/10_state.md R20 to R59) as plain data, the host's
accesses, the reasons a step can stop, and the state after hardware reset. -/

namespace Sys2Proof.Machine

/-- `STATUS.STATE` (10_state.md R50). -/
inductive Phase where
  | idle
  | busy
  | done
  | fault
  deriving DecidableEq, Repr

/-- The width of a bus access (20_memory.md R64, R65). -/
inductive Width where
  | w8
  | w16
  | w32
  deriving DecidableEq, Repr

/-- One bus access of the host to the window (00_scope.md R9, 20_memory.md R60). A write of 8 or 16
bits takes the low bits of `v`. -/
inductive Access where
  | read (w : Width) (off : Offset)
  | write (w : Width) (off : Offset) (v : Word)
  deriving DecidableEq, Repr

/-- What can happen next, other than the engine's step when nothing else is pending: an access of the
host, the engine's turn among them, or a pulse of the hardware reset input (log 9). -/
inductive Event where
  | access (a : Access)
  | engineTurn
  | hardReset
  deriving DecidableEq, Repr

/-- The block's answer to the last bus access (10_state.md R56 "its bus responses"; log 13). A read
gives its value in the low bits, the rest 0. A bus error is no response of the model: see `Fault`. -/
inductive BusResp where
  | none
  | data (v : Word)
  | written
  deriving DecidableEq, Repr

/-- The bytes that are known, by window offset, offsets strictly rising; an offset that is not listed
has no value: the byte is unspecified (10_state.md R42, R47; log 2, 3). -/
abbrev Memory := List Host.Cell

/-- The state of one instance: the registers of 10_state.md R21, the five buffers of R40 as one
memory, and the model's own fields `cfg`, `events`, `resp`, `draws`. -/
structure State where
  /-- The parameters of the instance, constant (R20, log 4); `CAP_IN` and `CAP_OUT` read two of
  them. -/
  cfg : Config
  /-- `CMD` (R25). -/
  cmd : Word
  /-- `STATUS.STATE` (R27, R50). -/
  phase : Phase
  /-- `STATUS.ERR` (R27). -/
  err : Byte
  /-- `INTEN.IE` (R28). -/
  ie : Bool
  /-- `IN_LEN` = `x[0]` (R31). -/
  inLen : Word
  /-- `ALPHA_LEN` = `x[1]` (R32). -/
  alphaLen : Word
  /-- `KEY_LEN` = `x[2]` (R33). -/
  keyLen : Word
  /-- `IV_LEN` = `x[3]` (R34). -/
  ivLen : Word
  /-- `OUT_LEN` = `x[4]` (R35). -/
  outLen : Word
  /-- `ERR_INFO0` = `x[5]` (R36). -/
  errInfo0 : Word
  /-- `ERR_INFO1` = `x[6]` (R36). -/
  errInfo1 : Word
  /-- `ERR_INFO2` = `x[7]` (R36). -/
  errInfo2 : Word
  /-- `ALPHA`, `KEY`, `IV`, `IN`, `OUT` (R40), by window offset (20_memory.md R61). -/
  mem : Memory
  /-- What the outside does next, in order (log 9). -/
  events : List Event
  /-- The answer to the last bus access (log 13). -/
  resp : BusResp
  /-- How many free values have been drawn (log 1). -/
  draws : Nat
  deriving DecidableEq, Repr

/-- The reasons a step stops with a fault. No command stops so: a command fault is a next state. -/
inductive Fault where
  /-- Raised by a bus access the block does not admit: unmapped offset, wrong width, misaligned, or
  past the end of a region (20_memory.md R64, R65, R66). "A model gives such an access no step (the
  host is stuck) or refuses it". Safe: the model stops where the host might go on. Log 12. -/
  | busError
  deriving DecidableEq, Repr

/-- The reasons a step is refused. -/
inductive Refusal where
  /-- Raised by an arm of `exec` that has no meaning yet; no arm does. Safe. -/
  | notModelled (mnemonic : String)
  deriving DecidableEq, Repr

/-- The state after hardware reset (10_state.md R59, 70_reset_and_hazards.md R381), of an instance
with the default parameters: all registers 0, `IDLE`, no byte of any buffer known, nothing pending.
The values of `cfg`, `events`, `resp` and `draws` are the model's (log 1, 4, 9, 13). -/
def State.reset : State where
  cfg := Config.default
  cmd := 0
  phase := .idle
  err := 0
  ie := false
  inLen := 0
  alphaLen := 0
  keyLen := 0
  ivLen := 0
  outLen := 0
  errInfo0 := 0
  errInfo1 := 0
  errInfo2 := 0
  mem := []
  events := []
  resp := .none
  draws := 0

end Sys2Proof.Machine
end

