-- ==== Sys2Proof/Machine/Flags.lean ====
section
/-! DEFINITION. The flags of the block: the fault kinds with their codes and detail words
(spec/60_exceptions.md R341, R350, R351), the `STATUS` word (10_state.md R27) and the interrupt level
(R56). "These are the only flags of the block" (R27). -/

namespace Sys2Proof.Machine

/-- The five buffers (10_state.md R40). -/
inductive Space where
  | input
  | alpha
  | key
  | iv
  | output
  deriving DecidableEq, Repr

/-- Where a malformed text stood (60_exceptions.md R351). -/
inductive Source where
  | input
  | alpha
  | key
  | iv
  deriving DecidableEq, Repr

/-- Which of the two 16-byte operands has the wrong length (60_exceptions.md R354). -/
inductive KeyField where
  | key
  | iv
  deriving DecidableEq, Repr

/-- The kinds of command fault with their fields (60_exceptions.md R341). `UnsupportedBitOrder` (11)
is "reserved and never raised" (R343) and has no constructor. -/
inductive CmdFault where
  | unknownBase (base : Byte)
  | alphabetLengthMismatch (base : Base) (expected actual : Nat)
  | customAlphabetUnsupported (base : Base)
  | malformedInput (reason : Reason) (source : Source)
  | invalidUtf8Output
  | missingIv (mode : Mode)
  | missingIvType
  | wrongKeyOrIvLength (field : KeyField) (actual : Nat)
  | dataNotBlockAligned (len : Nat)
  | invalidPkcs7Padding
  | illegalCommand (word : Word)
  | capacity (space : Space) (cap requested : Nat)
  deriving DecidableEq, Repr

/-- The number of a `MalformedInput` reason (60_exceptions.md R351). -/
def reasonCode : Reason → Word
  | .badSymbol => 1
  | .badPadding => 2
  | .truncated => 3
  | .trailingBits => 4
  | .alphabetDuplicate => 5
  | .alphabetNonAscii => 6
  | .outOfRange => 7

/-- The number of a `MalformedInput` source (R351). -/
def Source.code : Source → Word
  | .input => 0
  | .alpha => 1
  | .key => 2
  | .iv => 3

/-- The number of a buffer in `Capacity` (60_exceptions.md R344). -/
def Space.code : Space → Word
  | .input => 0
  | .alpha => 1
  | .key => 2
  | .iv => 3
  | .output => 4

/-- The number of a field in `WrongKeyOrIvLength` (R354). -/
def KeyField.code : KeyField → Word
  | .key => 0
  | .iv => 1

/-- The fault code, the value of `STATUS.ERR` (60_exceptions.md R341). -/
def CmdFault.code : CmdFault → Byte
  | .unknownBase _ => 1
  | .alphabetLengthMismatch _ _ _ => 2
  | .customAlphabetUnsupported _ => 3
  | .malformedInput _ _ => 4
  | .invalidUtf8Output => 5
  | .missingIv _ => 6
  | .missingIvType => 7
  | .wrongKeyOrIvLength _ _ => 8
  | .dataNotBlockAligned _ => 9
  | .invalidPkcs7Padding => 10
  | .illegalCommand _ => 0x80
  | .capacity _ _ _ => 0x81

/-- `ERR_INFO0` of a fault (60_exceptions.md R350). -/
def CmdFault.info0 : CmdFault → Word
  | .unknownBase b => b.setWidth 32
  | .alphabetLengthMismatch b _ _ => BitVec.ofNat 32 b.radix
  | .customAlphabetUnsupported b => BitVec.ofNat 32 b.radix
  | .malformedInput r _ => reasonCode r
  | .invalidUtf8Output => 0
  | .missingIv m => m.field.setWidth 32
  | .missingIvType => 0
  | .wrongKeyOrIvLength f _ => f.code
  | .dataNotBlockAligned n => BitVec.ofNat 32 n
  | .invalidPkcs7Padding => 0
  | .illegalCommand w => w
  | .capacity s _ _ => s.code

/-- `ERR_INFO1` of a fault (R350). -/
def CmdFault.info1 : CmdFault → Word
  | .alphabetLengthMismatch _ e _ => BitVec.ofNat 32 e
  | .malformedInput _ s => s.code
  | .wrongKeyOrIvLength _ _ => 16
  | .capacity _ c _ => BitVec.ofNat 32 c
  | .unknownBase _ => 0
  | .customAlphabetUnsupported _ => 0
  | .invalidUtf8Output => 0
  | .missingIv _ => 0
  | .missingIvType => 0
  | .dataNotBlockAligned _ => 0
  | .invalidPkcs7Padding => 0
  | .illegalCommand _ => 0

/-- `ERR_INFO2` of a fault (R350). -/
def CmdFault.info2 : CmdFault → Word
  | .alphabetLengthMismatch _ _ a => BitVec.ofNat 32 a
  | .wrongKeyOrIvLength _ a => BitVec.ofNat 32 a
  | .capacity _ _ r => BitVec.ofNat 32 r
  | .unknownBase _ => 0
  | .customAlphabetUnsupported _ => 0
  | .malformedInput _ _ => 0
  | .invalidUtf8Output => 0
  | .missingIv _ => 0
  | .missingIvType => 0
  | .dataNotBlockAligned _ => 0
  | .invalidPkcs7Padding => 0
  | .illegalCommand _ => 0

/-- The number of a phase in `STATUS[1:0]` (10_state.md R27). -/
def Phase.code : Phase → BitVec 2
  | .idle => 0
  | .busy => 1
  | .done => 2
  | .fault => 3

/-- The `STATUS` word: `ERR` in bits 15:8, `STATE` in bits 1:0, the rest 0 (R27). -/
def State.status (s : State) : Word := 0#16 ++ s.err ++ 0#6 ++ s.phase.code

/-- The output `irq`: `INTEN.IE and (STATE = DONE or STATE = FAULT)` (R56, 60_exceptions.md R364). -/
def State.irq (s : State) : Bool := s.ie && (s.phase == .done || s.phase == .fault)

end Sys2Proof.Machine
end

