-- ==== Sys2Proof/Machine/Ops.lean ====
section
/-! DEFINITION. The named operations over memory and registers: reading and writing bytes of the
window, the host steps GO, ACK and SRST (spec/10_state.md R51, R53, R54), hardware reset, the end of a
command (R52), the entry of a command fault (60_exceptions.md R360) and the return from it (R362). -/

namespace Sys2Proof.Machine

/-! ## Memory -/

/-- The canonical form of a memory: offsets strictly rising. -/
abbrev Memory.wf (m : Memory) : Prop := m.Pairwise (fun p q => p.1 < q.1)

/-- What an offset holds: a byte, or no value. This is the one place that says what an unlisted offset
reads as: nothing (10_state.md R47; log 2). -/
def Memory.get : Memory → Nat → Option Byte
  | [], _ => none
  | (k, b) :: m, a => if k = a then some b else Memory.get m a

/-- Store one byte, keeping the order. -/
def Memory.set : Memory → Nat → Byte → Memory
  | [], a, b => [(a, b)]
  | (k, c) :: m, a, b =>
    if a < k then (a, b) :: (k, c) :: m
    else if a = k then (a, b) :: m
    else (k, c) :: Memory.set m a b

/-- Store a byte sequence from offset `a` up: `MemWrite` of 00_scope.md R17. -/
def Memory.setBytes (m : Memory) : Nat → Bytes → Memory
  | _, [] => m
  | a, b :: B => Memory.setBytes (m.set a b) (a + 1) B

/-- Make the bytes at offsets `a` to `a + n - 1` unspecified. -/
def Memory.forget (m : Memory) (a n : Nat) : Memory :=
  m.filter (fun p => decide (p.1 < a) || decide (a + n ≤ p.1))

/-! ## The buffers in the window -/

/-- The first offset of a buffer (20_memory.md R61). -/
def Space.offset : Space → Nat
  | .alpha => 0x000100
  | .key => 0x000200
  | .iv => 0x000240
  | .input => 0x100000
  | .output => 0x200000

/-- The size of a buffer in bytes (10_state.md R40, 20_memory.md R61). -/
def Space.size (c : Config) : Space → Nat
  | .alpha => 256
  | .key => 64
  | .iv => 64
  | .input => c.inMax
  | .output => c.outMax

/-- All buffers. -/
def Space.all : List Space := [.alpha, .key, .iv, .input, .output]

/-- The byte at window offset `a` as an access or a command of draw number `s.draws` sees it: the
stored byte, or a free value where the spec leaves the byte unspecified
(93_implementation_defined.md U1 to U4). -/
def State.byteAt (s : State) (a : Nat) : Byte :=
  match s.mem.get a with
  | some b => b
  | none => Config.freeByte s.draws a

/-- `n` bytes from window offset `a` up. -/
def State.bytesAt (s : State) (a n : Nat) : Bytes := (List.range n).map (fun i => s.byteAt (a + i))

/-- `MemRead(space, 0, n)` of 00_scope.md R17. -/
def State.fetch (s : State) (sp : Space) (n : Nat) : Bytes := s.bytesAt sp.offset n

/-- The payload of a finished command, `OUT[0 : OUT_LEN]` (10_state.md R42). -/
def State.payload (s : State) : Bytes := s.fetch .output s.outLen.toNat

/-- Every byte of OUT becomes unspecified (10_state.md R42). -/
def State.forgetOut (s : State) : State :=
  { s with mem := s.mem.forget Space.output.offset (Space.output.size s.cfg) }

/-- One free value has been used. -/
def State.drawn (s : State) : State := { s with draws := s.draws + 1 }

/-! ## The state machine of 10_state.md section 5 -/

/-- `OUT_LEN`, `STATUS.ERR` and `ERR_INFO0..2` become 0: common to R51 and R53. -/
def State.clearResult (s : State) : State :=
  { s with outLen := 0, err := 0, errInfo0 := 0, errInfo1 := 0, errInfo2 := 0 }

/-- The effect of a GO that is not ignored (R51, R42): the result of the last command is cleared, OUT is
unspecified from here, `STATE <- BUSY`. -/
def State.start (s : State) : State := { s.clearResult.forgetOut with phase := .busy }

/-- Host step GO (R51): "In `BUSY` the `GO` strobe is ignored". -/
def State.go (s : State) : State :=
  match s.phase with
  | .busy => s
  | .idle => s.start
  | .done => s.start
  | .fault => s.start

/-- The effect of an ACK in DONE or FAULT (R53): the return from a command fault, 60_exceptions.md R362. -/
def State.toIdle (s : State) : State := { s.clearResult.forgetOut with phase := .idle }

/-- Host step ACK (R53): nothing in IDLE, ignored in BUSY. -/
def State.ack (s : State) : State :=
  match s.phase with
  | .busy => s
  | .idle => s
  | .done => s.toIdle
  | .fault => s.toIdle

/-- Every register of 10_state.md R21 takes its reset value (R54, R59). -/
def State.resetRegs (s : State) : State :=
  { s.clearResult with
    cmd := 0, phase := .idle, ie := false, inLen := 0, alphaLen := 0, keyLen := 0, ivLen := 0 }

/-- Soft reset, `SRST` (R54): the registers; OUT becomes unspecified; ALPHA, KEY, IV and IN keep their
bytes. -/
def State.softReset (s : State) : State := s.resetRegs.forgetOut

/-- Hardware reset (R59, 70_reset_and_hazards.md R380): the registers, and every byte of all five
buffers becomes unspecified. The host's pending events and the draw counter are outside it (log 19). -/
def State.hardReset (s : State) : State := { s.resetRegs with mem := [], resp := .none }

/-! ## The end of a command -/

/-- The `Ok(B)` branch of the engine's step (R52). The bytes of OUT above the payload are unspecified
(R42). -/
def State.deliver (s : State) (B : Bytes) : State :=
  { s with
    mem := (s.mem.forget Space.output.offset (Space.output.size s.cfg)).setBytes
      Space.output.offset B
    outLen := BitVec.ofNat 32 B.length
    err := 0
    phase := .done }

/-- Taking a command fault: the `Err` branch of the engine's step, one atomic step (R52,
60_exceptions.md R360). `irq` follows from `phase`. -/
def State.takeFault (s : State) (f : CmdFault) : State :=
  { s.forgetOut with
    outLen := 0
    err := f.code
    errInfo0 := f.info0
    errInfo1 := f.info1
    errInfo2 := f.info2
    phase := .fault }

/-- The end of a command with result `r` (R52). The command's reads of unspecified bytes were one
draw. -/
def State.finish (s : State) (r : Except CmdFault Bytes) : State :=
  match r with
  | .ok B => (s.deliver B).drawn
  | .error f => (s.takeFault f).drawn

end Sys2Proof.Machine
end

