-- ==== Sys2Proof/Machine/Bus.lean ====
section
/-! DEFINITION. The bus: one access of the host to the window (spec/20_memory.md R60 to R67), the register
page (10_state.md R21 to R36), and the dropping of writes while BUSY (R55). -/

namespace Sys2Proof.Machine

/-! ## The register page -/

/-- The registers of the page (10_state.md R21); reserved locations are no registers (R29). -/
inductive Reg where
  | id
  | capIn
  | capOut
  | cmd
  | ctrl
  | status
  | inten
  | inLen
  | alphaLen
  | keyLen
  | ivLen
  | outLen
  | errInfo0
  | errInfo1
  | errInfo2
  deriving DecidableEq, Repr

/-- The offset of a register (R21). -/
def Reg.offset : Reg → Nat
  | .id => 0x000
  | .capIn => 0x004
  | .capOut => 0x008
  | .cmd => 0x00C
  | .ctrl => 0x010
  | .status => 0x014
  | .inten => 0x018
  | .inLen => 0x020
  | .alphaLen => 0x024
  | .keyLen => 0x028
  | .ivLen => 0x02C
  | .outLen => 0x030
  | .errInfo0 => 0x034
  | .errInfo1 => 0x038
  | .errInfo2 => 0x03C

/-- All registers, in the order of R21. -/
def Reg.all : List Reg :=
  [.id, .capIn, .capOut, .cmd, .ctrl, .status, .inten, .inLen, .alphaLen, .keyLen, .ivLen, .outLen,
    .errInfo0, .errInfo1, .errInfo2]

/-- The register at an offset of the page; none for a reserved location. -/
def Reg.at (a : Nat) : Option Reg := Reg.all.find? (fun r => r.offset == a)

/-- The identification word, `T` `K` `C` `E` (R23). -/
def idWord : Word := 0x544B4345

/-- `x[4..7]` read as a free value while BUSY (R35, R36, R55). -/
def State.resultReg (s : State) (r : Reg) (v : Word) : Word :=
  match s.phase with
  | .busy => Config.freeWord s.draws r.offset
  | .idle => v
  | .done => v
  | .fault => v

/-- What a read of a register gives (R21 to R36, R55). -/
def State.readReg (s : State) (r : Reg) : Word :=
  match r with
  | .id => idWord
  | .capIn => BitVec.ofNat 32 s.cfg.inMax
  | .capOut => BitVec.ofNat 32 s.cfg.outMax
  | .cmd => s.cmd
  | .ctrl => 0
  | .status => s.status
  | .inten => (BitVec.ofBool s.ie).setWidth 32
  | .inLen => s.inLen
  | .alphaLen => s.alphaLen
  | .keyLen => s.keyLen
  | .ivLen => s.ivLen
  | .outLen => s.resultReg .outLen s.outLen
  | .errInfo0 => s.resultReg .errInfo0 s.errInfo0
  | .errInfo1 => s.resultReg .errInfo1 s.errInfo1
  | .errInfo2 => s.resultReg .errInfo2 s.errInfo2

/-- A read of the page at an aligned offset: "reserved locations read 0" (R29). -/
def State.readPage (s : State) (a : Nat) : Word :=
  match Reg.at a with
  | some r => s.readReg r
  | none => 0

/-- A write to `CTRL` (R26): "if `SRST` is set, only the soft reset happens; otherwise `ACK` first, then
`GO`". -/
def State.writeCtrl (s : State) (v : Word) : State :=
  if v.getLsbD 31 then s.softReset
  else
    let s1 := if v.getLsbD 1 then s.ack else s
    if v.getLsbD 0 then s1.go else s1

/-- The store of a write that is not dropped; a write to a read-only register is ignored (R21). -/
def State.storeReg (s : State) (r : Reg) (v : Word) : State :=
  match r with
  | .cmd => { s with cmd := v }
  | .inten => { s with ie := v.getLsbD 0 }
  | .inLen => { s with inLen := v }
  | .alphaLen => { s with alphaLen := v }
  | .keyLen => { s with keyLen := v }
  | .ivLen => { s with ivLen := v }
  | .ctrl => s.writeCtrl v
  | .id => s
  | .capIn => s
  | .capOut => s
  | .status => s
  | .outLen => s
  | .errInfo0 => s
  | .errInfo1 => s
  | .errInfo2 => s

/-- A write to a register (R21): while BUSY everything but `CTRL` is dropped, and of `CTRL` only `SRST`
acts, since GO and ACK are ignored in BUSY (R55). -/
def State.writeReg (s : State) (r : Reg) (v : Word) : State :=
  if s.phase = .busy ∧ r ≠ .ctrl then s else s.storeReg r v

/-- A write to the page at an aligned offset: writes to reserved locations are ignored (R29). -/
def State.writePage (s : State) (a : Nat) (v : Word) : State :=
  match Reg.at a with
  | some r => s.writeReg r v
  | none => s

/-! ## The buffers -/

/-- The number of bytes of an access. -/
def Width.bytes : Width → Nat
  | .w8 => 1
  | .w16 => 2
  | .w32 => 4

/-- The buffer that wholly holds the `n` bytes from offset `a` up (20_memory.md R61, R65). -/
def locate (c : Config) (a n : Nat) : Option Space :=
  Space.all.find? (fun sp => decide (sp.offset ≤ a) && decide (a + n ≤ sp.offset + sp.size c))

/-- The value of an access to a buffer: byte `a` in bits 7:0, byte `a+1` in bits 15:8, and so on
(20_memory.md R62). -/
def State.readBuffer (s : State) (a : Nat) (w : Width) : Word :=
  BitVec.ofNat 32 (leNat (s.bytesAt a w.bytes))

/-- A write to a buffer: dropped while BUSY (10_state.md R55), ignored in OUT (R40), little-endian
(20_memory.md R62). -/
def State.writeBuffer (s : State) (sp : Space) (a : Nat) (w : Width) (v : Word) : State :=
  if s.phase = .busy ∨ sp = .output then s
  else { s with mem := s.mem.setBytes a (bytesLe w.bytes v.toNat) }

/-! ## One access -/

/-- Where an access goes. -/
inductive Target where
  /-- The register page, at an aligned offset, 32 bits (20_memory.md R64). -/
  | page
  /-- A buffer, aligned and wholly inside it (R65). -/
  | buffer (sp : Space)
  deriving DecidableEq, Repr

/-- What an access of width `w` at offset `a` reaches; none is a bus error (20_memory.md R61, R64 to
R66). -/
def target (c : Config) (w : Width) (a : Nat) : Option Target :=
  if a % w.bytes ≠ 0 then none
  else if a < 0x100 then
    match w with
    | .w8 => none
    | .w16 => none
    | .w32 => some .page
  else (locate c a w.bytes).map .buffer

/-- The answer to a read: the value is offered on the bus; nothing else changes (R67). Where a byte or a
result register is unspecified the read draws a free value, so the draw counter advances. -/
def State.respond (s : State) (v : Word) : State := { s with resp := .data v }.drawn

/-- A read access (R60 to R67). -/
def busRead (s : State) (w : Width) (a : Nat) : Host.Outcome State Fault Refusal :=
  match target s.cfg w a with
  | none => .fault .busError
  | some .page => .next (s.respond (s.readPage a))
  | some (.buffer _) => .next (s.respond (s.readBuffer a w))

/-- A write access (R60 to R67). -/
def busWrite (s : State) (w : Width) (a : Nat) (v : Word) : Host.Outcome State Fault Refusal :=
  match target s.cfg w a with
  | none => .fault .busError
  | some .page => .next { s.writePage a v with resp := .written }
  | some (.buffer sp) => .next { s.writeBuffer sp a w v with resp := .written }

/-- One access of the host (20_memory.md R67). -/
def hostAccess (a : Access) (s : State) : Host.Outcome State Fault Refusal :=
  match a with
  | .read w off => busRead s w off.toNat
  | .write w off v => busWrite s w off.toNat v

end Sys2Proof.Machine
end

