-- ==== Sys2Proof/Machine/BlockCore.lean ====
section
/-! DEFINITION. The 128-bit block cipher core (spec/46_block_core_sm4.md): SM4, the default instance
(R322 to R327), and the choice among instances of `BlockEnc`, `BlockDec` with the properties of R321 (R320; log 7). -/

namespace Sys2Proof

/-- The S-box, one number a row: the 16 entries of the row, column 0 most significant (R323). -/
def sboxRows : List Nat :=
  [ 0xd690e9fecce13db716b614c228fb2c05,
    0x2b679a762abe04c3aa44132649860699,
    0x9c4250f491ef987a33540b43edcfac62,
    0xe4b31ca9c908e89580df94fa758f3fa6,
    0x4707a7fcf37317ba83593c19e6854fa8,
    0x686b81b27164da8bf8eb0f4b70569d35,
    0x1e240e5e6358d1a225227c3b01217887,
    0xd40046579fd327524c3602e7a0c4c89e,
    0xeabf8ad240c738b5a3f7f2cef96115a1,
    0xe0ae5da49b341a55ad933230f58cb1e3,
    0x1df6e22e8266ca60c02923ab0d534e6f,
    0xd5db3745defd8e2f03ff6a726d6c5b51,
    0x8d1baf92bbddbc7f11d95c411f105ad8,
    0x0ac13188a5cd7bbd2d74d012b8e5b4b0,
    0x8969974a0c96777e65b9f109c56ec684,
    0x18f07dec3adc4d2079ee5f3ed7cb3948 ]

/-- `Sbox`: row = high nibble of the input, column = low nibble (R323). -/
def sbox (a : Byte) : Byte :=
  BitVec.ofNat 8 (sboxRows.getD (a.toNat / 16) 0 >>> (8 * (15 - a.toNat % 16)))

/-- `tau(A)`: `Sbox` on each of the four bytes in place (R323). -/
def tau (a : Word) : Word :=
  sbox (a.extractLsb' 24 8) ++ sbox (a.extractLsb' 16 8) ++ sbox (a.extractLsb' 8 8)
    ++ sbox (a.extractLsb' 0 8)

/-- `L` (R324). -/
def sm4L (b : Word) : Word :=
  b ^^^ b.rotateLeft 2 ^^^ b.rotateLeft 10 ^^^ b.rotateLeft 18 ^^^ b.rotateLeft 24

/-- `L'` (R324). -/
def sm4L' (b : Word) : Word := b ^^^ b.rotateLeft 13 ^^^ b.rotateLeft 23

/-- `T(A) = L(tau(A))` (R324). -/
def sm4T (a : Word) : Word := sm4L (tau a)

/-- `T'(A) = L'(tau(A))` (R324). -/
def sm4T' (a : Word) : Word := sm4L' (tau a)

/-- Byte `j` of `CK_i`: `((4i + j) · 7) mod 256` (R325). -/
def ckByte (i j : Nat) : Byte := BitVec.ofNat 8 ((4 * i + j) * 7)

/-- `CK_i` (R325). -/
def ck (i : Nat) : Word := ckByte i 0 ++ ckByte i 1 ++ ckByte i 2 ++ ckByte i 3

/-- Word `i` of a block, loaded big-endian (R322). -/
def blockWord (x : Block) (i : Nat) : Word := x.extractLsb' (96 - 32 * i) 32

/-- The round keys from `k_i .. k_(i+3)` on, one for each constant that is left (R326). -/
def keysFrom (k0 k1 k2 k3 : Word) : List Word → List Word
  | [] => []
  | c :: cs =>
    let k4 := k0 ^^^ sm4T' (k1 ^^^ k2 ^^^ k3 ^^^ c)
    k4 :: keysFrom k1 k2 k3 k4 cs

/-- The 32 round keys `rk_0 .. rk_31` (R325, R326). -/
def roundKeys (k : Block) : List Word :=
  keysFrom (blockWord k 0 ^^^ 0xa3b1bac6) (blockWord k 1 ^^^ 0x56aa3350)
    (blockWord k 2 ^^^ 0x677d9197) (blockWord k 3 ^^^ 0xb27022dc) ((List.range 32).map ck)

/-- The rounds, one for each key that is left, and the reversed result (R327). -/
def sm4Rounds (x0 x1 x2 x3 : Word) : List Word → Block
  | [] => x3 ++ x2 ++ x1 ++ x0
  | rk :: rks => sm4Rounds x1 x2 x3 (x0 ^^^ sm4T (x1 ^^^ x2 ^^^ x3 ^^^ rk)) rks

/-- The computation of both directions, with the round keys in the order given (R327). -/
def sm4Crypt (rks : List Word) (x : Block) : Block :=
  sm4Rounds (blockWord x 0) (blockWord x 1) (blockWord x 2) (blockWord x 3) rks

/-- The default `BlockEnc(K, X)` (R327). -/
def sm4Enc (k x : Block) : Block := sm4Crypt (roundKeys k) x

/-- The default `BlockDec(K, Y)` (R327). -/
def sm4Dec (k y : Block) : Block := sm4Crypt (roundKeys k).reverse y

/-! ## Other cores -/

/-- The key `k` of `P_kat`, `1234567890123456` (R321). -/
def katKey : Block := 0x31323334353637383930313233343536

/-- The pairs `(x, c)` of `P_kat` (R321): `x1`, `x2`, `x3` and `k` itself. -/
def knownAnswers : List (Block × Block) :=
  [ (0x30313233343536373839616263646566, 0xba611296fd1f3f27299eff1c29b18d63),
    (0x66656463626139383736353433323130, 0xde48b88f34351e6d653b381ce1355ca6),
    (0x10101010101010101010101010101010, 0x6c88f739af2a29a735381f5677badef7),
    (katKey, 0xb083dcc0a9f64bd9fae2fa8c936e3d77) ]

/-- A permutation made to give the answers: for each pair in turn the value it has and the value it must
have change places. One that gives them already is left as it is, so every permutation with the answers
is among the results. -/
def withAnswers (p : Equiv.Perm Block) : List (Block × Block) → Equiv.Perm Block
  | [] => p
  | (x, c) :: kv => withAnswers (Equiv.swap (p x) c * p) kv

/-- The non-default core `n` under the key `k`: any permutations that give the known answers, which is all
that R321 lets a model assume of it. -/
def Config.otherCore (n : Nat) (k : Block) : Equiv.Perm Block :=
  if k = katKey then withAnswers (Config.otherPerm n k) knownAnswers else Config.otherPerm n k

/-- `BlockEnc` of the configuration (R320). -/
def Config.blockEnc (c : Config) (k x : Block) : Block :=
  match c.core with
  | .standard => sm4Enc k x
  | .other n => Config.otherCore n k x

/-- `BlockDec` of the configuration (R320). -/
def Config.blockDec (c : Config) (k y : Block) : Block :=
  match c.core with
  | .standard => sm4Dec k y
  | .other n => (Config.otherCore n k).symm y

end Sys2Proof
end

