-- ==== Sys2Proof/Machine/BigInt.lean ====
section
/-! DEFINITION. The Big-Integer Radix Codec: base 58, 62 and any custom alphabet
(spec/42_bigint_codec.md R190 to R195). All arithmetic is in `Nat`. -/

namespace Sys2Proof

/-- The number of leading bytes of `B` equal to `c` (R191, R193). -/
def leadingCount (c : Byte) (B : Bytes) : Nat := (B.takeWhile (· == c)).length

/-- `BiEncode(D, A)` (R191). The working radix is `len(A)` (R190). -/
def biEncode (A : Bytes) (D : Bytes) : Bytes :=
  List.replicate (leadingCount 0x00 D) (symOf A 0)
    ++ (digitsOf A.length (beNat D)).reverse.map (symOf A)

/-- The accumulation `acc <- acc * R + val_A(c)` over a text (R193). -/
def biValue (A : Bytes) (T : Bytes) : Nat :=
  T.foldl (fun acc c => acc * A.length + valOf A c) 0

/-- `BiDecode(T, A)` (R193). -/
def biDecode (A : Bytes) (T : Bytes) : Except Reason Bytes :=
  if T.any (fun c => !A.contains c) then .error .badSymbol
  else .ok (List.replicate (leadingCount (symOf A 0) T) 0x00 ++ minbytesBe (biValue A T))

end Sys2Proof
end

