-- ==== Sys2Proof/Machine/FixedWidth.lean ====
section
/-! DEFINITION. The Fixed-Width Radix Codec: base 16, 32, 64 bit-packing
(spec/41_fixed_width_codec.md R150 to R156). -/

namespace Sys2Proof

/-- The geometry of a fixed-width base (R150). -/
structure Geometry where
  /-- `w(b)`: the bits one symbol stands for. -/
  w : Nat
  /-- `S(b)`: the symbols in one full block. -/
  symbols : Nat
  deriving DecidableEq, Repr

/-- Base 16 (R150). -/
def geo16 : Geometry := ⟨4, 2⟩

/-- Base 32 (R150). -/
def geo32 : Geometry := ⟨5, 8⟩

/-- Base 64 (R150). -/
def geo64 : Geometry := ⟨6, 4⟩

/-- The number of symbols `n` bytes need: `ceil(8n / w)` (R152). -/
def fwSymbols (g : Geometry) (n : Nat) : Nat := (8 * n + (g.w - 1)) / g.w

/-- The digits of `FwEncode`: the 8n bits of `D` and zero bits up to a multiple of `w`, cut into groups
of `w` bits from the top (R152). -/
def fwDigits (g : Geometry) (D : Bytes) : List Nat :=
  let m := fwSymbols g D.length
  let v := beNat D * 2 ^ (m * g.w - 8 * D.length)
  (List.range m).map (fun i => (v >>> ((m - 1 - i) * g.w)) % 2 ^ g.w)

/-- The `=` bytes that complete a text of `len` symbols to whole blocks (R152). -/
def fwPadding (g : Geometry) (len : Nat) : Bytes :=
  List.replicate ((g.symbols - len % g.symbols) % g.symbols) padChar

/-- `FwEncode(D, b, A, pad)` (R152). -/
def fwEncode (g : Geometry) (A : Bytes) (pad : Bool) (D : Bytes) : Bytes :=
  let out := (fwDigits g D).map (symOf A)
  bif pad then out ++ fwPadding g out.length else out

/-- Step 1 of `FwDecode`: `A`–`F` become `a`–`f` (R154, R155). -/
def foldHex (T : Bytes) : Bytes :=
  T.map (fun c => if 0x41 ≤ c.toNat ∧ c.toNat ≤ 0x46 then c + 0x20 else c)

/-- The number of `=` bytes at the end of a text (R154 step 3). -/
def trailingPads (T : Bytes) : Nat := (T.reverse.takeWhile (· == padChar)).length

/-- Step 3 of `FwDecode`: the text without its padding (R154). -/
def fwBody (g : Geometry) (pad : Bool) (T : Bytes) : Except Reason Bytes :=
  bif pad then
    let k := trailingPads T
    let body := T.take (T.length - k)
    if padChar ∈ body ∨ k ≥ g.symbols then .error .badPadding
    else if T.length % g.symbols ≠ 0 then .error .truncated
    else .ok body
  else .ok T

/-- The number whose base-`2^w` digits are the values of the symbols: `V` of step 5 (R154). -/
def fwValue (g : Geometry) (A : Bytes) (body : Bytes) : Nat :=
  body.foldl (fun acc c => acc * 2 ^ g.w + valOf A c) 0

/-- Steps 4 to 6 of `FwDecode` (R154). -/
def fwUnpack (g : Geometry) (A : Bytes) (body : Bytes) : Except Reason Bytes :=
  let m := body.length
  if (m % g.symbols * g.w) % 8 ≥ g.w then .error .truncated
  else
    let v := fwValue g A body
    let nb := m * g.w / 8
    let e := m * g.w - 8 * nb
    if v % 2 ^ e ≠ 0 then .error .trailingBits
    else .ok (bytesBe nb (v >>> e))

/-- `FwDecode(T, b, A, pad, fold)` (R154); the caller adds the source of the text. -/
def fwDecode (g : Geometry) (A : Bytes) (pad fold : Bool) (T : Bytes) : Except Reason Bytes :=
  let T := bif fold then foldHex T else T
  if T.any (fun c => !A.contains c && !(pad && c == padChar)) then .error .badSymbol
  else
    match fwBody g pad T with
    | .error r => .error r
    | .ok body => fwUnpack g A body

end Sys2Proof
end

