-- ==== Sys2Proof/Machine/Operands.lean ====
section
/-! DEFINITION. The operand forms: every command uses the same fixed locations (spec/30_encoding.md R95),
read with the checks that stand before each read. -/

namespace Sys2Proof.Machine

/-- `IN[0 : IN_LEN]` behind its capacity check: stage 4 of both pipelines (40_basex_front_end.md R121,
45_cipher_mode_controller.md R251). -/
def State.inputOperand (s : State) : Except CmdFault Bytes :=
  if s.inLen.toNat > s.cfg.inMax then .error (.capacity .input s.cfg.inMax s.inLen.toNat)
  else .ok (s.fetch .input s.inLen.toNat)

/-- `ALPHA[0 : ALPHA_LEN]` behind its capacity check: the head of stage 3 (40_basex_front_end.md R121). -/
def State.alphaOperand (s : State) : Except CmdFault Bytes :=
  if s.alphaLen.toNat > 256 then .error (.capacity .alpha 256 s.alphaLen.toNat)
  else .ok (s.fetch .alpha s.alphaLen.toNat)

/-- The buffer of the key or the IV (45_cipher_mode_controller.md R251). -/
def KeyField.space : KeyField → Space
  | .key => .key
  | .iv => .iv

/-- The source number of the key or the IV (45_cipher_mode_controller.md R253). -/
def KeyField.source : KeyField → Source
  | .key => .key
  | .iv => .iv

/-- `KEY_LEN` or `IV_LEN` (10_state.md R33, R34). -/
def State.strLen (s : State) : KeyField → Nat
  | .key => s.keyLen.toNat
  | .iv => s.ivLen.toNat

/-- The string of the key or the IV (45_cipher_mode_controller.md R252): a Text string must be 16 bytes
and is not read otherwise; a Hex string must fit its 64-byte buffer. -/
def State.strOperand (s : State) (f : KeyField) (t : StrType) : Except CmdFault Bytes :=
  match t with
  | .text =>
    if s.strLen f ≠ 16 then .error (.wrongKeyOrIvLength f (s.strLen f))
    else .ok (s.fetch f.space 16)
  | .hex =>
    if s.strLen f > 64 then .error (.capacity f.space 64 (s.strLen f))
    else .ok (s.fetch f.space (s.strLen f))

end Sys2Proof.Machine
end

