-- ==== Sys2Proof/Machine/StaticTable.lean ====
section
/-! DEFINITION. The Static-Table Codec: base 85 and 91 (spec/43_static_table_codec.md R220 to R231), the
default transforms and the choice among instances of the configuration functions (R224; log 6). -/

namespace Sys2Proof

/-! ## Default base 85 -/

/-- The `i`-th of the five base-85 digits of `v`, most significant first (R226). -/
def digit85 (v i : Nat) : Nat := v / 85 ^ (4 - i) % 85

/-- One group of 1 to 4 bytes as 2 to 5 symbols (R226). -/
def group85Enc (G : Bytes) : Bytes :=
  let v := beNat (G ++ List.replicate (4 - G.length) 0x00)
  (List.range (G.length + 1)).map (fun i => symOf a85 (digit85 v i))

/-- The default `B85Enc(D)` (R226). -/
def ascii85Enc (D : Bytes) : Bytes := ((chunks 4 D).map group85Enc).flatten

/-- The value of one group of 2 to 5 symbols, filled with the digit 84 (R227). -/
def group85Val (G : Bytes) : Nat :=
  (G.map (valOf a85) ++ List.replicate (5 - G.length) 84).foldl (fun acc d => acc * 85 + d) 0

/-- One group of 2 to 5 symbols as 1 to 4 bytes (R227). -/
def group85Dec (G : Bytes) : Except Reason Bytes :=
  if group85Val G ≥ 2 ^ 32 then .error .outOfRange
  else .ok ((bytesBe 4 (group85Val G)).take (G.length - 1))

/-- The groups from the left; the first that is out of range is reported (R227). -/
def groups85Dec : List Bytes → Except Reason Bytes
  | [] => .ok []
  | G :: Gs =>
    match group85Dec G with
    | .error r => .error r
    | .ok B =>
      match groups85Dec Gs with
      | .error r => .error r
      | .ok Bs => .ok (B ++ Bs)

/-- The default `B85Dec(T)` (R227): "all symbols first, then the length, then the groups". -/
def ascii85Dec (T : Bytes) : Except Reason Bytes :=
  if T.any (fun c => decide (c.toNat < 0x21) || decide (c.toNat > 0x75)) then .error .badSymbol
  else if T.length % 5 = 1 then .error .truncated
  else groups85Dec (chunks 5 T)

/-! ## Default base 91 -/

/-- The loop of `B91Enc` over the bytes, with the bit queue `q` of `n` bits, and what it leaves at the
end (R229). -/
def base91EncGo : Bytes → (q n : Nat) → Bytes
  | [], q, n =>
    if n > 0 then
      symOf a91 (q % 91) :: (if n > 7 ∨ q > 90 then [symOf a91 (q / 91)] else [])
    else []
  | c :: D, q, n =>
    let q := q + c.toNat * 2 ^ n
    let n := n + 8
    if n > 13 then
      if q % 8192 > 88 then
        let v := q % 8192
        symOf a91 (v % 91) :: symOf a91 (v / 91) :: base91EncGo D (q / 8192) (n - 13)
      else
        let v := q % 16384
        symOf a91 (v % 91) :: symOf a91 (v / 91) :: base91EncGo D (q / 16384) (n - 14)
    else base91EncGo D q n

/-- The default `B91Enc(D)` (R229). -/
def base91Enc (D : Bytes) : Bytes := base91EncGo D 0 0

/-- The bytes the queue gives while it holds more than 7 bits, and the queue after (R230). `fuel` bounds
their number. -/
def drain91 : (fuel q n : Nat) → Bytes × Nat × Nat
  | 0, q, n => ([], q, n)
  | fuel + 1, q, n =>
    if n > 7 then
      let r := drain91 fuel (q / 256) (n - 8)
      (BitVec.ofNat 8 q :: r.1, r.2)
    else ([], q, n)

/-- The loop of `B91Dec` over the symbols, with the queue `q` of `n` bits and the pending digit `v`
(R230). -/
def base91DecGo : Bytes → (q n : Nat) → (v : Option Nat) → Bytes
  | [], _, _, none => []
  | [], q, n, some v => [BitVec.ofNat 8 (q + v * 2 ^ n)]
  | c :: T, q, n, none => base91DecGo T q n (some (valOf a91 c))
  | c :: T, q, n, some v =>
    let v := v + valOf a91 c * 91
    let q := q + v * 2 ^ n
    let n := n + (if v % 8192 > 88 then 13 else 14)
    let r := drain91 n q n
    r.1 ++ base91DecGo T r.2.1 r.2.2 none

/-- The default `B91Dec(T)`, on the text as it stands (R230). -/
def base91Dec (T : Bytes) : Except Reason Bytes :=
  if T.any (fun c => !a91.contains c) then .error .badSymbol
  else .ok (base91DecGo T 0 0 none)

/-! ## The configuration functions -/

/-- A pair with the properties of R224, which shows that there are such pairs: a byte sequence as its number
in a listing of all of them, in unary. No instance is built of it. -/
def unaryCodec (ws : Bytes) : StaticCodec ws where
  enc D := List.replicate (Encodable.encode (D.map BitVec.toNat)) padChar
  dec T := .ok (((Encodable.decode T.length : Option (List Nat)).getD []).map (BitVec.ofNat 8))
  rt h D := by
    have hs : ∀ k, stripWs ws (List.replicate k padChar) = List.replicate k padChar := fun k =>
      List.filter_eq_self.2 fun x hx => by rw [List.eq_of_mem_replicate hx]; simpa using h
    rw [hs, List.length_replicate, Encodable.encodek, Option.getD_some, List.map_map]
    simp [Function.comp_def]
  encEmpty := rfl
  decEmpty := by
    rw [show ([] : Bytes).length = Encodable.encode ([] : List Nat) from rfl, Encodable.encodek]; rfl

/-- The base-85 pair of the non-default instance `n`. -/
def Config.other85 (c : Config) (n : Nat) : StaticCodec c.ws :=
  @Config.otherB85 n c.ws ⟨unaryCodec c.ws⟩

/-- The base-91 pair of the non-default instance `n`. -/
def Config.other91 (n : Nat) : StaticCodec [] := @Config.otherB91 n ⟨unaryCodec []⟩

/-- `B85Enc` of the configuration (R224). -/
def Config.b85Enc (c : Config) (D : Bytes) : Bytes :=
  match c.b85 with
  | .standard => ascii85Enc D
  | .other n => (c.other85 n).enc D

/-- `B85Dec` of the configuration (R224). -/
def Config.b85Dec (c : Config) (T : Bytes) : Except Reason Bytes :=
  match c.b85 with
  | .standard => ascii85Dec T
  | .other n => (c.other85 n).dec T

/-- `B91Enc` of the configuration (R224). -/
def Config.b91Enc (c : Config) (D : Bytes) : Bytes :=
  match c.b91 with
  | .standard => base91Enc D
  | .other n => (Config.other91 n).enc D

/-- `B91Dec` of the configuration (R224). -/
def Config.b91Dec (c : Config) (T : Bytes) : Except Reason Bytes :=
  match c.b91 with
  | .standard => base91Dec T
  | .other n => (Config.other91 n).dec T

end Sys2Proof
end

