-- ==== Sys2Proof/Machine/FrontEnd.lean ====
section
/-! DEFINITION. The radix-codec front end (spec/40_basex_front_end.md R120 to R137): the Alphabet
Validator, the whitespace stripper, the UTF-8 checker, and the pipeline `BxExec`. -/

namespace Sys2Proof

/-- The nine shapes of a well-formed UTF-8 sequence: the inclusive range of each byte (R132). -/
def utf8Shapes : List (List (Nat × Nat)) :=
  [ [(0x00, 0x7F)],
    [(0xC2, 0xDF), (0x80, 0xBF)],
    [(0xE0, 0xE0), (0xA0, 0xBF), (0x80, 0xBF)],
    [(0xE1, 0xEC), (0x80, 0xBF), (0x80, 0xBF)],
    [(0xED, 0xED), (0x80, 0x9F), (0x80, 0xBF)],
    [(0xEE, 0xEF), (0x80, 0xBF), (0x80, 0xBF)],
    [(0xF0, 0xF0), (0x90, 0xBF), (0x80, 0xBF), (0x80, 0xBF)],
    [(0xF1, 0xF3), (0x80, 0xBF), (0x80, 0xBF), (0x80, 0xBF)],
    [(0xF4, 0xF4), (0x80, 0x8F), (0x80, 0xBF), (0x80, 0xBF)] ]

/-- What is left of `B` after one sequence of a shape; none if `B` does not begin with one. -/
def afterShape : List (Nat × Nat) → Bytes → Option Bytes
  | [], B => some B
  | _ :: _, [] => none
  | (lo, hi) :: sh, b :: B => if lo ≤ b.toNat ∧ b.toNat ≤ hi then afterShape sh B else none

/-- `B` is a concatenation of well-formed sequences; `fuel` bounds their number. -/
def utf8Go : (fuel : Nat) → Bytes → Bool
  | _, [] => true
  | 0, _ :: _ => false
  | fuel + 1, b :: B =>
    match utf8Shapes.findSome? (fun sh => afterShape sh (b :: B)) with
    | some rest => utf8Go fuel rest
    | none => false

/-- `Utf8Valid(B)` (R132). -/
def utf8Valid (B : Bytes) : Bool := utf8Go B.length B

/-- Base 85 and 91: the static-table unit (R124). -/
def Base.isStatic : Base → Bool
  | .b85 => true
  | .b91 => true
  | .b16 => false
  | .b32 => false
  | .b58 => false
  | .b62 => false
  | .b64 => false

/-- Base 58 and 62: the big-integer unit (R126). -/
def Base.isBigInt : Base → Bool
  | .b58 => true
  | .b62 => true
  | .b16 => false
  | .b32 => false
  | .b64 => false
  | .b85 => false
  | .b91 => false

/-- Base 16, 32 and 64: the fixed-width unit (R125). -/
def Base.isFixed : Base → Bool
  | .b16 => true
  | .b32 => true
  | .b64 => true
  | .b58 => false
  | .b62 => false
  | .b85 => false
  | .b91 => false

/-- `DefaultAlphabet(base)` (R122). "Base 85 and 91 have no alphabet at this level". -/
def Config.defaultAlphabet (c : Config) : Base → Bytes
  | .b16 => a16
  | .b32 => a32
  | .b58 => c.a58
  | .b62 => c.a62
  | .b64 => a64
  | .b85 => []
  | .b91 => []

/-- `UnitEncode(base, ap, D, A)` (R121). -/
def Config.unitEncode (c : Config) (b : Base) (ap : Bool) (A D : Bytes) : Bytes :=
  match b with
  | .b16 => fwEncode geo16 A false D
  | .b32 => fwEncode geo32 A (!ap) D
  | .b58 => biEncode A D
  | .b62 => biEncode A D
  | .b64 => fwEncode geo64 A (!ap) D
  | .b85 => c.b85Enc D
  | .b91 => c.b91Enc D

/-- `UnitDecode(base, ap, T, A)` (R121). -/
def Config.unitDecode (c : Config) (b : Base) (ap : Bool) (A T : Bytes) : Except Reason Bytes :=
  match b with
  | .b16 => fwDecode geo16 A false (!ap) T
  | .b32 => fwDecode geo32 A (!ap) false T
  | .b58 => biDecode A T
  | .b62 => biDecode A T
  | .b64 => fwDecode geo64 A (!ap) false T
  | .b85 => c.b85Dec T
  | .b91 => c.b91Dec T

/-- Stage 5: the text the unit decodes; "base-91 decode is *not* whitespace-stripped" (R131). -/
def Config.textOf (c : Config) (b : Base) (D : Bytes) : Bytes :=
  match b with
  | .b91 => D
  | .b16 => stripWs c.ws D
  | .b32 => stripWs c.ws D
  | .b58 => stripWs c.ws D
  | .b62 => stripWs c.ws D
  | .b64 => stripWs c.ws D
  | .b85 => stripWs c.ws D

end Sys2Proof

namespace Sys2Proof.Machine

/-- The content checks on a custom alphabet, in order: ASCII (R127), then distinct (R128). -/
def alphabetContent (A : Bytes) : Except CmdFault Bytes :=
  if A.any (fun c => decide (c.toNat ≥ 0x80)) then
    .error (.malformedInput .alphabetNonAscii .alpha)
  else if ¬ A.Nodup then .error (.malformedInput .alphabetDuplicate .alpha)
  else .ok A

/-- The Alphabet Validator and the choice of the alphabet: stages 1 to 3 (R121, R123 to R128). -/
def State.alphabet (s : State) (b : Base) (ap : Bool) : Except CmdFault Bytes :=
  if b.isStatic && ap then .error (.customAlphabetUnsupported b)
  else if b.isFixed && ap && s.alphaLen.toNat != b.radix then
    .error (.alphabetLengthMismatch b b.radix s.alphaLen.toNat)
  else if b.isBigInt && ap && decide (s.alphaLen.toNat < 2) then
    .error (.alphabetLengthMismatch b 2 s.alphaLen.toNat)
  else if ap then
    match s.alphaOperand with
    | .error f => .error f
    | .ok A => alphabetContent A
  else .ok (s.cfg.defaultAlphabet b)

/-- The UTF-8 check on what a decode or a decrypt would deliver (R133,
45_cipher_mode_controller.md R282). -/
def utf8Check (B : Bytes) : Except CmdFault Bytes :=
  if utf8Valid B then .ok B else .error .invalidUtf8Output

/-- The output capacity check (R135): stage 8, and the last stage of the cipher pipeline. -/
def State.outputCheck (s : State) (B : Bytes) : Except CmdFault Bytes :=
  if B.length > s.cfg.outMax then .error (.capacity .output s.cfg.outMax B.length) else .ok B

/-- Stages 5 to 7 of a decode (R121). -/
def bxDecode (c : Config) (b : Base) (ap : Bool) (A D : Bytes) : Except CmdFault Bytes :=
  match c.unitDecode b ap A (c.textOf b D) with
  | .error r => .error (.malformedInput r .input)
  | .ok B => utf8Check B

/-- Stages 5 to 7, by direction (R121). -/
def bxTransform (c : Config) (d : Dir) (b : Base) (ap : Bool) (A D : Bytes) :
    Except CmdFault Bytes :=
  match d with
  | .enc => .ok (c.unitEncode b ap A D)
  | .dec => bxDecode c b ap A D

/-- `BxExec` (R121). -/
def bxExec (d : Dir) (b : Base) (ap : Bool) (s : State) : Except CmdFault Bytes :=
  match s.alphabet b ap with
  | .error f => .error f
  | .ok A =>
    match s.inputOperand with
    | .error f => .error f
    | .ok D =>
      match bxTransform s.cfg d b ap A D with
      | .error f => .error f
      | .ok B => s.outputCheck B

end Sys2Proof.Machine
end

