-- ==== Sys2Proof/Machine/Cipher.lean ====
section
/-! DEFINITION. The Block-Cipher Mode Controller (spec/45_cipher_mode_controller.md R250 to R286): key
and IV resolution, the IV gate, the Padding Layer, the Mode Layer over any core, the format converter,
and the pipeline `Sm4Exec`. -/

namespace Sys2Proof

/-! ## The Padding Layer -/

/-- `PadApply(PKCS7, D)` (R260). -/
def padPkcs7 (D : Bytes) : Bytes :=
  let p := 16 - D.length % 16
  D ++ List.replicate p (BitVec.ofNat 8 p)

/-- `PadApply(Zero, D)` (R261). -/
def padZero (D : Bytes) : Bytes := D ++ List.replicate ((16 - D.length % 16) % 16) 0x00

/-- `PadRemove(PKCS7, P)`; none where it raises `InvalidPkcs7Padding` (R264). -/
def unpadPkcs7 (P : Bytes) : Option Bytes :=
  let n := P.length
  if n = 0 ∨ n % 16 ≠ 0 then none
  else
    let p := (P.getLast?.getD 0).toNat
    if p < 1 ∨ p > 16 ∨ p > n then none
    else if (P.drop (n - p)).any (fun c => c != BitVec.ofNat 8 p) then none
    else some (P.take (n - p))

/-- `PadRemove(Zero, P)`: "strip all trailing zero bytes unconditionally" (R265). -/
def unpadZero (P : Bytes) : Bytes := (P.reverse.dropWhile (· == 0x00)).reverse

/-! ## The Mode Layer -/

/-- `Incr(T)` with width `w` (R276). -/
def ctrIncr (w : Nat) (t : Block) : Block :=
  BitVec.ofNat 128
    ((t.toNat - t.toNat % 2 ^ w) + ((t.toNat % 2 ^ w) + 1) % 2 ^ w)

/-- ECB, either direction, with the block function of that direction (R271). -/
def ecbBlocks (E : Block → Block) : List Bytes → Bytes
  | [] => []
  | p :: ps => blockBytes (E (blockOf p)) ++ ecbBlocks E ps

/-- CBC encrypt; `prev` is `C_(i-1)` (R272). -/
def cbcEncBlocks (E : Block → Block) : Block → List Bytes → Bytes
  | _, [] => []
  | prev, p :: ps =>
    blockBytes (E (blockOf p ^^^ prev)) ++ cbcEncBlocks E (E (blockOf p ^^^ prev)) ps

/-- CBC decrypt; `prev` is `C_(i-1)` (R272). -/
def cbcDecBlocks (D : Block → Block) : Block → List Bytes → Bytes
  | _, [] => []
  | prev, c :: cs => blockBytes (D (blockOf c) ^^^ prev) ++ cbcDecBlocks D (blockOf c) cs

/-- CFB encrypt with full-block feedback; `prev` is `C_(i-1)` (R273). -/
def cfbEncBlocks (E : Block → Block) : Block → List Bytes → Bytes
  | _, [] => []
  | prev, p :: ps =>
    xorBytes p (blockBytes (E prev))
      ++ cfbEncBlocks E (blockOf (xorBytes p (blockBytes (E prev)))) ps

/-- CFB decrypt; the last block may be short (R273, R277). -/
def cfbDecBlocks (E : Block → Block) : Block → List Bytes → Bytes
  | _, [] => []
  | prev, c :: cs => xorBytes c (blockBytes (E prev)) ++ cfbDecBlocks E (blockOf c) cs

/-- OFB, both directions; `prev` is `O_(i-1)`; the last block may be short (R274, R277). -/
def ofbBlocks (E : Block → Block) : Block → List Bytes → Bytes
  | _, [] => []
  | prev, p :: ps => xorBytes p (blockBytes (E prev)) ++ ofbBlocks E (E prev) ps

/-- CTR, both directions; `t` is `T_i`; the last block may be short (R275, R277). -/
def ctrBlocks (E : Block → Block) (w : Nat) : Block → List Bytes → Bytes
  | _, [] => []
  | t, p :: ps => xorBytes p (blockBytes (E t)) ++ ctrBlocks E w (ctrIncr w t) ps

/-- `ModeEnc(mode, K, V, P)` (R271 to R275), with `E` = `BlockEnc(K, ·)`. ECB does not use `V`. -/
def modeEnc (E : Block → Block) (w : Nat) (m : Mode) (V : Block) (P : Bytes) : Bytes :=
  match m with
  | .ecb => ecbBlocks E (chunks 16 P)
  | .cbc => cbcEncBlocks E V (chunks 16 P)
  | .cfb => cfbEncBlocks E V (chunks 16 P)
  | .ofb => ofbBlocks E V (chunks 16 P)
  | .ctr => ctrBlocks E w V (chunks 16 P)

/-- ECB and CBC decrypt work in whole blocks only (R278). -/
def Mode.wholeBlocks : Mode → Bool
  | .ecb => true
  | .cbc => true
  | .cfb => false
  | .ofb => false
  | .ctr => false

/-- The inverse transforms (R271 to R275, R277), with `E` = `BlockEnc(K, ·)` and `D` = `BlockDec(K, ·)`,
after the alignment check. -/
def modeDec (E D : Block → Block) (w : Nat) (m : Mode) (V : Block) (C : Bytes) : Bytes :=
  match m with
  | .ecb => ecbBlocks D (chunks 16 C)
  | .cbc => cbcDecBlocks D V (chunks 16 C)
  | .cfb => cfbDecBlocks E V (chunks 16 C)
  | .ofb => ofbBlocks E V (chunks 16 C)
  | .ctr => ctrBlocks E w V (chunks 16 C)

/-! ## The format converter -/

/-- Output encoding on encrypt (R280). -/
def formatEnc (f : Fmt) (C : Bytes) : Bytes :=
  match f with
  | .hex => fwEncode geo16 a16 false C
  | .base64 => fwEncode geo64 a64 true C

/-- Input decoding on decrypt, on the stripped text (R281). -/
def formatDec (f : Fmt) (T : Bytes) : Except Reason Bytes :=
  match f with
  | .hex => fwDecode geo16 a16 false true T
  | .base64 => fwDecode geo64 a64 true false T

/-- `HexDecode(H)` (R253): "It is `FwDecode(H, 16, A16, false, fold = true)`". -/
def hexDecode (H : Bytes) : Except Reason Bytes := fwDecode geo16 a16 false true H

end Sys2Proof

namespace Sys2Proof.Machine

/-- `PadApply(pad, D)` (R260 to R262). -/
def padApply (p : Pad) (D : Bytes) : Except CmdFault Bytes :=
  match p with
  | .pkcs7 => .ok (padPkcs7 D)
  | .zero => .ok (padZero D)
  | .none => if D.length % 16 = 0 then .ok D else .error (.dataNotBlockAligned D.length)

/-- `PadRemove(pad, P)` (R264 to R266). -/
def padRemove (p : Pad) (P : Bytes) : Except CmdFault Bytes :=
  match p with
  | .pkcs7 =>
    match unpadPkcs7 P with
    | some B => .ok B
    | none => .error .invalidPkcs7Padding
  | .zero => .ok (unpadZero P)
  | .none => .ok P

/-- The bytes a key or IV string stands for (R252, R253). -/
def strBytes (f : KeyField) (t : StrType) (S : Bytes) : Except CmdFault Bytes :=
  match t with
  | .text => .ok S
  | .hex =>
    match hexDecode S with
    | .error r => .error (.malformedInput r f.source)
    | .ok R => .ok R

/-- `Resolve16(field, src, buf, cap, len, type)` (R252): 16 bytes as one block, or a fault. -/
def State.resolve16 (s : State) (f : KeyField) (t : StrType) : Except CmdFault Block :=
  match s.strOperand f t with
  | .error e => .error e
  | .ok S =>
    match strBytes f t S with
    | .error e => .error e
    | .ok R => if R.length ≠ 16 then .error (.wrongKeyOrIvLength f R.length) else .ok (blockOf R)

/-- The IV requirement gate (R255): none where it passes. -/
def ivGate (m : Mode) (o : CipherOpts) : Option CmdFault :=
  if m ≠ .ecb ∧ o.ivp = false then some (.missingIv m)
  else if o.ivp = true ∧ o.ivtp = false then some .missingIvType
  else none

/-- IV resolution, stage 3 (R251). "`V` is undefined and unused in ECB": the block given there is never
used. -/
def State.resolveIv (s : State) (m : Mode) (o : CipherOpts) : Except CmdFault Block :=
  match m with
  | .ecb => .ok 0
  | .cbc => s.resolve16 .iv o.ivt
  | .cfb => s.resolve16 .iv o.ivt
  | .ofb => s.resolve16 .iv o.ivt
  | .ctr => s.resolve16 .iv o.ivt

/-- The padding, mode and format stages of an encrypt (R250, R251). -/
def encryptBytes (c : Config) (m : Mode) (o : CipherOpts) (K V : Block) (D : Bytes) :
    Except CmdFault Bytes :=
  match padApply o.pad D with
  | .error f => .error f
  | .ok P => .ok (formatEnc o.fmt (modeEnc (c.blockEnc K) c.ctrWidth m V P))

/-- `ModeDec(mode, K, V, C)` with its alignment check (R278). -/
def modeDecrypt (c : Config) (m : Mode) (K V : Block) (C : Bytes) : Except CmdFault Bytes :=
  if m.wholeBlocks && C.length % 16 != 0 then .error (.dataNotBlockAligned C.length)
  else .ok (modeDec (c.blockEnc K) (c.blockDec K) c.ctrWidth m V C)

/-- The format, mode, padding and UTF-8 stages of a decrypt (R250, R251). -/
def decryptBytes (c : Config) (m : Mode) (o : CipherOpts) (K V : Block) (D : Bytes) :
    Except CmdFault Bytes :=
  match formatDec o.fmt (stripWs c.ws D) with
  | .error r => .error (.malformedInput r .input)
  | .ok C =>
    match modeDecrypt c m K V C with
    | .error f => .error f
    | .ok P =>
      match padRemove o.pad P with
      | .error f => .error f
      | .ok B => utf8Check B

/-- The stages after the input fetch, by direction (R251). -/
def sm4Transform (c : Config) (d : Dir) (m : Mode) (o : CipherOpts) (K V : Block)
    (D : Bytes) : Except CmdFault Bytes :=
  match d with
  | .enc => encryptBytes c m o K V D
  | .dec => decryptBytes c m o K V D

/-- Stages 1 to 3 (R251): the key and the IV, or the first fault among them and the gate (R285 rows 2
to 5). -/
def State.keyAndIv (s : State) (m : Mode) (o : CipherOpts) : Except CmdFault (Block × Block) :=
  match s.resolve16 .key o.kt with
  | .error f => .error f
  | .ok K =>
    match ivGate m o with
    | some f => .error f
    | none =>
      match s.resolveIv m o with
      | .error f => .error f
      | .ok V => .ok (K, V)

/-- `Sm4Exec` (R251). -/
def sm4Exec (d : Dir) (m : Mode) (o : CipherOpts) (s : State) : Except CmdFault Bytes :=
  match s.keyAndIv m o with
  | .error f => .error f
  | .ok (K, V) =>
    match s.inputOperand with
    | .error f => .error f
    | .ok D =>
      match sm4Transform s.cfg d m o K V D with
      | .error f => .error f
      | .ok B => s.outputCheck B

end Sys2Proof.Machine
end

