-- ==== Sys2Proof/Machine/CipherCommands.lean ====
section
/-! DEFINITION. The ten cipher commands: one meaning each, over the shared pipeline `Sm4Exec`
(spec/45_cipher_mode_controller.md R251) and the end of a command (10_state.md R52). A command fault is
a next state. -/

namespace Sys2Proof.Machine

/-- A cipher command from its operands to its end (R52, R251). -/
def runSm4 (d : Dir) (m : Mode) (o : CipherOpts) (s : State) : Host.Outcome State Fault Refusal :=
  .next (s.finish (sm4Exec d m o s))

/-- `SM4E.ECB`: encrypt, electronic codebook (45_cipher_mode_controller.md R290). -/
def execSm4eEcb (o : CipherOpts) (s : State) : Host.Outcome State Fault Refusal :=
  runSm4 .enc .ecb o s

/-- `SM4E.CBC`: encrypt, cipher block chaining (45_cipher_mode_controller.md R291). -/
def execSm4eCbc (o : CipherOpts) (s : State) : Host.Outcome State Fault Refusal :=
  runSm4 .enc .cbc o s

/-- `SM4E.CFB`: encrypt, cipher feedback (128-bit) (45_cipher_mode_controller.md R292). -/
def execSm4eCfb (o : CipherOpts) (s : State) : Host.Outcome State Fault Refusal :=
  runSm4 .enc .cfb o s

/-- `SM4E.OFB`: encrypt, output feedback (45_cipher_mode_controller.md R293). -/
def execSm4eOfb (o : CipherOpts) (s : State) : Host.Outcome State Fault Refusal :=
  runSm4 .enc .ofb o s

/-- `SM4E.CTR`: encrypt, counter (45_cipher_mode_controller.md R294). -/
def execSm4eCtr (o : CipherOpts) (s : State) : Host.Outcome State Fault Refusal :=
  runSm4 .enc .ctr o s

/-- `SM4D.ECB`: decrypt, electronic codebook (45_cipher_mode_controller.md R295). -/
def execSm4dEcb (o : CipherOpts) (s : State) : Host.Outcome State Fault Refusal :=
  runSm4 .dec .ecb o s

/-- `SM4D.CBC`: decrypt, cipher block chaining (45_cipher_mode_controller.md R296). -/
def execSm4dCbc (o : CipherOpts) (s : State) : Host.Outcome State Fault Refusal :=
  runSm4 .dec .cbc o s

/-- `SM4D.CFB`: decrypt, cipher feedback (128-bit) (45_cipher_mode_controller.md R297). -/
def execSm4dCfb (o : CipherOpts) (s : State) : Host.Outcome State Fault Refusal :=
  runSm4 .dec .cfb o s

/-- `SM4D.OFB`: decrypt, output feedback (45_cipher_mode_controller.md R298). -/
def execSm4dOfb (o : CipherOpts) (s : State) : Host.Outcome State Fault Refusal :=
  runSm4 .dec .ofb o s

/-- `SM4D.CTR`: decrypt, counter (45_cipher_mode_controller.md R299). -/
def execSm4dCtr (o : CipherOpts) (s : State) : Host.Outcome State Fault Refusal :=
  runSm4 .dec .ctr o s

end Sys2Proof.Machine
end

