-- ==== Sys2Proof/Machine/RadixCommands.lean ====
section
/-! DEFINITION. The fourteen radix-codec commands: one meaning each, over the shared pipeline `BxExec`
(spec/40_basex_front_end.md R121) and the end of a command (10_state.md R52). A command fault is a next
state. -/

namespace Sys2Proof.Machine

/-- A radix-codec command from its operands to its end (R52, R121). -/
def runBx (d : Dir) (b : Base) (ap : Bool) (s : State) : Host.Outcome State Fault Refusal :=
  .next (s.finish (bxExec d b ap s))

/-- `BXE.16`: base-16 encode (41_fixed_width_codec.md R160). -/
def execBxe16 (ap : Bool) (s : State) : Host.Outcome State Fault Refusal :=
  runBx .enc .b16 ap s

/-- `BXE.32`: base-32 encode (41_fixed_width_codec.md R161). -/
def execBxe32 (ap : Bool) (s : State) : Host.Outcome State Fault Refusal :=
  runBx .enc .b32 ap s

/-- `BXE.58`: base-58 encode (42_bigint_codec.md R196). -/
def execBxe58 (ap : Bool) (s : State) : Host.Outcome State Fault Refusal :=
  runBx .enc .b58 ap s

/-- `BXE.62`: base-62 encode (42_bigint_codec.md R197). -/
def execBxe62 (ap : Bool) (s : State) : Host.Outcome State Fault Refusal :=
  runBx .enc .b62 ap s

/-- `BXE.64`: base-64 encode (41_fixed_width_codec.md R162). -/
def execBxe64 (ap : Bool) (s : State) : Host.Outcome State Fault Refusal :=
  runBx .enc .b64 ap s

/-- `BXE.85`: base-85 encode (43_static_table_codec.md R232). -/
def execBxe85 (ap : Bool) (s : State) : Host.Outcome State Fault Refusal :=
  runBx .enc .b85 ap s

/-- `BXE.91`: base-91 encode (43_static_table_codec.md R233). -/
def execBxe91 (ap : Bool) (s : State) : Host.Outcome State Fault Refusal :=
  runBx .enc .b91 ap s

/-- `BXD.16`: base-16 decode (41_fixed_width_codec.md R163). -/
def execBxd16 (ap : Bool) (s : State) : Host.Outcome State Fault Refusal :=
  runBx .dec .b16 ap s

/-- `BXD.32`: base-32 decode (41_fixed_width_codec.md R164). -/
def execBxd32 (ap : Bool) (s : State) : Host.Outcome State Fault Refusal :=
  runBx .dec .b32 ap s

/-- `BXD.58`: base-58 decode (42_bigint_codec.md R198). -/
def execBxd58 (ap : Bool) (s : State) : Host.Outcome State Fault Refusal :=
  runBx .dec .b58 ap s

/-- `BXD.62`: base-62 decode (42_bigint_codec.md R199). -/
def execBxd62 (ap : Bool) (s : State) : Host.Outcome State Fault Refusal :=
  runBx .dec .b62 ap s

/-- `BXD.64`: base-64 decode (41_fixed_width_codec.md R165). -/
def execBxd64 (ap : Bool) (s : State) : Host.Outcome State Fault Refusal :=
  runBx .dec .b64 ap s

/-- `BXD.85`: base-85 decode (43_static_table_codec.md R234). -/
def execBxd85 (ap : Bool) (s : State) : Host.Outcome State Fault Refusal :=
  runBx .dec .b85 ap s

/-- `BXD.91`: base-91 decode (43_static_table_codec.md R235). -/
def execBxd91 (ap : Bool) (s : State) : Host.Outcome State Fault Refusal :=
  runBx .dec .b91 ap s

end Sys2Proof.Machine
end

