-- ==== Sys2Proof/Machine/Dispatch.lean ====
section
/-! DEFINITION. What a decoded command does: one arm per constructor of `Instr`
(spec/30_encoding.md R104). -/

namespace Sys2Proof.Machine

def exec (i : Instr) (s : State) : Host.Outcome State Fault Refusal :=
  match i with
  | .bxe16 ap => Sys2Proof.Machine.execBxe16 ap s
  | .bxe32 ap => Sys2Proof.Machine.execBxe32 ap s
  | .bxe58 ap => Sys2Proof.Machine.execBxe58 ap s
  | .bxe62 ap => Sys2Proof.Machine.execBxe62 ap s
  | .bxe64 ap => Sys2Proof.Machine.execBxe64 ap s
  | .bxe85 ap => Sys2Proof.Machine.execBxe85 ap s
  | .bxe91 ap => Sys2Proof.Machine.execBxe91 ap s
  | .bxd16 ap => Sys2Proof.Machine.execBxd16 ap s
  | .bxd32 ap => Sys2Proof.Machine.execBxd32 ap s
  | .bxd58 ap => Sys2Proof.Machine.execBxd58 ap s
  | .bxd62 ap => Sys2Proof.Machine.execBxd62 ap s
  | .bxd64 ap => Sys2Proof.Machine.execBxd64 ap s
  | .bxd85 ap => Sys2Proof.Machine.execBxd85 ap s
  | .bxd91 ap => Sys2Proof.Machine.execBxd91 ap s
  | .sm4eEcb o => Sys2Proof.Machine.execSm4eEcb o s
  | .sm4eCbc o => Sys2Proof.Machine.execSm4eCbc o s
  | .sm4eCfb o => Sys2Proof.Machine.execSm4eCfb o s
  | .sm4eOfb o => Sys2Proof.Machine.execSm4eOfb o s
  | .sm4eCtr o => Sys2Proof.Machine.execSm4eCtr o s
  | .sm4dEcb o => Sys2Proof.Machine.execSm4dEcb o s
  | .sm4dCbc o => Sys2Proof.Machine.execSm4dCbc o s
  | .sm4dCfb o => Sys2Proof.Machine.execSm4dCfb o s
  | .sm4dOfb o => Sys2Proof.Machine.execSm4dOfb o s
  | .sm4dCtr o => Sys2Proof.Machine.execSm4dCtr o s

end Sys2Proof.Machine
end

