-- ==== Sys2Proof/Machine/Engine.lean ====
section
/-! DEFINITION. The engine's step (spec/10_state.md R52, 30_encoding.md R104): decode `CMD`, run the
command to its end. -/

namespace Sys2Proof.Machine

/-- The command fault of a word that is no command (30_encoding.md R104, 60_exceptions.md R342, R345). -/
def decodeFault (w : Word) : DecodeError → CmdFault
  | .illegal => .illegalCommand w
  | .unknownBase b => .unknownBase b

/-- The engine's step in BUSY (R52): "Let `r = Exec(CMD, ...)`". -/
def engineStep (s : State) : Host.Outcome State Fault Refusal :=
  match decode s.cmd with
  | .error e => .next (s.finish (.error (decodeFault s.cmd e)))
  | .ok i => exec i s

/-- The engine's turn: its step is "enabled exactly when `STATE = BUSY`" (R52); in any other state the
turn passes. -/
def engineTurn (s : State) : Host.Outcome State Fault Refusal :=
  match s.phase with
  | .busy => engineStep s
  | .idle => .next s
  | .done => .next s
  | .fault => .next s

end Sys2Proof.Machine
end

