-- ==== Sys2Proof/Machine/Step.lean ====
section
/-! DEFINITION. One step of an instance: the next event of the outside, or the engine's step when nothing
else is pending (spec/00_scope.md R9, 10_state.md R52, 70_reset_and_hazards.md R392; log 9, 11). -/

namespace Sys2Proof.Machine

/-- The state with its first event taken off. -/
def State.pop (s : State) : State := { s with events := s.events.tail }

/-- One event of the outside. -/
def State.onEvent (e : Event) (s : State) : Host.Outcome State Fault Refusal :=
  match e with
  | .access a => hostAccess a s
  | .engineTurn => engineTurn s
  | .hardReset => .next s.hardReset

/-- One step. With nothing pending the engine finishes the command in flight, or the block "waits in
`IDLE` for the host" (10_state.md R59), as it does in DONE and FAULT. -/
def step (s : State) : Host.Outcome State Fault Refusal :=
  match s.events with
  | [] => engineTurn s
  | e :: _ => s.pop.onEvent e

/-- The state in which the very next step decodes and runs the command word whose bits are `w` (below
`nbits`): the host has written it to `CMD` and then `GO` (10_state.md R51), and the engine's turn is
next. Log 10. -/
def State.withFetchWord (s : State) (nbits w : Nat) : State :=
  { { s with cmd := BitVec.ofNat 32 (w % 2 ^ nbits) }.start with
    events := .engineTurn :: s.events }

end Sys2Proof.Machine
end

