-- ==== Sys2Proof/Machine/HostScript.lean ====
section
/-! DEFINITION. The statements of the host script language and the document's callable operations, as lists
of events, and what a call of an operation gives (spec/30_encoding.md R106, R107, R109). "They are bus accesses, not commands of the engine." -/

namespace Sys2Proof.Machine

/-- `wr REG, v` (R107). -/
def wr (r : Reg) (v : Word) : List Event :=
  [.access (.write .w32 (BitVec.ofNat 22 r.offset) v)]

/-- `rd REG` (R107). -/
def rd (r : Reg) : List Event := [.access (.read .w32 (BitVec.ofNat 22 r.offset))]

/-- Byte writes of `B` from offset `a` up, one after another. DESIGN CHOICE where `B` reaches past the end of
its buffer, of which R107 says nothing: the writes go on at the next offsets of the window (log 20). -/
def byteWrites : (a : Nat) → Bytes → List Event
  | _, [] => []
  | a, b :: B => .access (.write .w8 (BitVec.ofNat 22 a) (b.setWidth 32)) :: byteWrites (a + 1) B

/-- Byte reads of `n` bytes from offset `a` up. -/
def byteReads (a n : Nat) : List Event :=
  (List.range n).map (fun i => .access (.read .w8 (BitVec.ofNat 22 (a + i))))

/-- The length register of a buffer (R107). -/
def Space.lenReg : Space → Reg
  | .input => .inLen
  | .alpha => .alphaLen
  | .key => .keyLen
  | .iv => .ivLen
  | .output => .outLen

/-- `ld BUF, bytes` (R107): "byte writes of `bytes` to `BUF` from offset 0, then `wr BUF_LEN`"; for bytes
past the end of `BUF` see `byteWrites` (log 20). -/
def ld (sp : Space) (B : Bytes) : List Event :=
  byteWrites sp.offset B ++ wr sp.lenReg (BitVec.ofNat 32 B.length)

/-- `ld` of an operand that may be left out: "if alphabet given", "if iv given" (R109). -/
def ldGiven (sp : Space) : Option Bytes → List Event
  | some B => ld sp B
  | none => []

/-- `go` (R107). -/
def go : List Event := wr .ctrl 0x1

/-- `ack` (R107). -/
def ack : List Event := wr .ctrl 0x2

/-- `srst` (R107). -/
def srst : List Event := wr .ctrl 0x80000000

/-- `wait` (R107), as one engine turn and the `STATUS` read that ends the loop; the reads that return
BUSY change nothing (log 18). -/
def wait : List Event := .engineTurn :: rd .status

/-- A command mnemonic (R107): `wr CMD, word` then `go`. -/
def command (i : Instr) : List Event := wr .cmd (encode i) ++ go

/-- `out` for a result of `n` bytes (R107). -/
def out (n : Nat) : List Event := rd .outLen ++ byteReads Space.output.offset n

/-- The accesses of `basexEncode` and `basexDecode` (R109), to the end of `wait`. -/
def basex (d : Dir) (input : Bytes) (b : Base) (alphabet : Option Bytes) : List Event :=
  ld .input input ++ ldGiven .alpha alphabet
    ++ command (Instr.ofBx d b alphabet.isSome) ++ wait

/-- The accesses of `sm4Encrypt` and `sm4Decrypt` (R109), to the end of `wait`. An IV may be given with or
without its type (R106). -/
def sm4 (d : Dir) (m : Mode) (pad : Pad) (fmt : Fmt) (input key : Bytes) (kt : StrType)
    (iv : Option (Bytes × Option StrType)) : List Event :=
  ld .input input ++ ld .key key ++ ldGiven .iv (iv.map (·.1))
    ++ command (Instr.ofSm4 d m
        { pad := pad
          fmt := fmt
          kt := kt
          ivp := iv.isSome
          ivtp := (iv.bind (·.2)).isSome
          ivt := (iv.bind (·.2)).getD .text })
    ++ wait

/-! ## What a call gives -/

/-- The error of an operation, "(`STATUS.ERR`, `ERR_INFO0..2`)" (R109). -/
structure OpError where
  err : Byte
  info0 : Word
  info1 : Word
  info2 : Word
  deriving DecidableEq, Repr

/-- The error that the block holds (R109). -/
def State.opError (s : State) : OpError := ⟨s.err, s.errInfo0, s.errInfo1, s.errInfo2⟩

/-- "if `STATE = DONE`: result = `OUT[0 : OUT_LEN]` as text; else error = (`STATUS.ERR`,
`ERR_INFO0..2`)" (R109). -/
def State.opResult (s : State) : Except OpError Bytes :=
  match s.phase with
  | .done => .ok s.payload
  | .idle => .error s.opError
  | .busy => .error s.opError
  | .fault => .error s.opError

/-- A call: the accesses of a script, run one step each on a block that has nothing else pending, and the
result that the block then holds (log 18). -/
def call (script : List Event) (s : State) :
    Host.Outcome (State × Except OpError Bytes) Fault Refusal :=
  match Sys2Proof.core.run script.length { s with events := script } with
  | .next t => .next (t, State.opResult t)
  | .fault r => .fault r
  | .refused r => .refused r

/-- `basexEncode(input, base, alphabet?)` (R109); a text is its UTF-8 bytes. -/
def basexEncode (input : Bytes) (b : Base) (alphabet : Option Bytes) (s : State) :
    Host.Outcome (State × Except OpError Bytes) Fault Refusal :=
  call (basex .enc input b alphabet) s

/-- `basexDecode(input, base, alphabet?)` (R109). -/
def basexDecode (input : Bytes) (b : Base) (alphabet : Option Bytes) (s : State) :
    Host.Outcome (State × Except OpError Bytes) Fault Refusal :=
  call (basex .dec input b alphabet) s

/-- `sm4Encrypt(...)` (R109). -/
def sm4Encrypt (m : Mode) (pad : Pad) (fmt : Fmt) (input key : Bytes) (kt : StrType)
    (iv : Option (Bytes × Option StrType)) (s : State) :
    Host.Outcome (State × Except OpError Bytes) Fault Refusal :=
  call (sm4 .enc m pad fmt input key kt iv) s

/-- `sm4Decrypt(...)` (R109). -/
def sm4Decrypt (m : Mode) (pad : Pad) (fmt : Fmt) (input key : Bytes) (kt : StrType)
    (iv : Option (Bytes × Option StrType)) (s : State) :
    Host.Outcome (State × Except OpError Bytes) Fault Refusal :=
  call (sm4 .dec m pad fmt input key kt iv) s

end Sys2Proof.Machine
end

