-- ==== Sys2Proof/Machine/Platform.lean ====
section
/-! DEFINITION. A platform of `N_INST` independent instances (spec/00_scope.md R13, 60_exceptions.md
R372): each has its own state; they share nothing. -/

namespace Sys2Proof.Machine

/-- The instances of a platform; `N_INST` is their number. -/
abbrev Platform := List State

/-- "Each starts in `IDLE` at reset, independently" (60_exceptions.md R372). -/
def Platform.reset (nInst : Nat) : Platform := List.replicate nInst State.reset

/-- A step of instance `i`; the others are untouched. An instance that does not exist takes no step. -/
def Platform.step (p : Platform) (i : Nat) : Host.Outcome Platform Fault Refusal :=
  match p[i]? with
  | none => .next p
  | some s =>
    match Machine.step s with
    | .next t => .next (p.set i t)
    | .fault r => .fault r
    | .refused r => .refused r

end Sys2Proof.Machine
end

