-- ==== Sys2Proof/WellFormed.lean ====
section
/-! DEFINITION. Well-formedness. Every term of `Instr` is well-formed by its type: the sets of
`Syntax.lean` hold only the legal field values. What can be ill-formed is a command word
(spec/30_encoding.md R100 to R102) and a configuration (00_scope.md R13, 92_eei_decisions.md D5, D10,
D11, D14); each check is named. -/

namespace Sys2Proof

/-! ## Command words -/

/-- `OPC` is one of the four that exist (30_encoding.md R91, R101 a). -/
def CmdWord.opcLegal (w : Word) : Bool :=
  [2, 3, 4, 5].contains (w.extractLsb' 0 4)

/-- The word is of format X (R92). -/
def CmdWord.isX (w : Word) : Bool := [2, 3].contains (w.extractLsb' 0 4)

/-- Format X: `CMD[7:5]` and `CMD[31:16]` are 0 (R101 b). -/
def CmdWord.reservedX (w : Word) : Bool := w.extractLsb' 5 3 == 0 && w.extractLsb' 16 16 == 0

/-- Format X: `BASE` is one of the seven (R102). -/
def CmdWord.baseKnown (w : Word) : Bool :=
  [16, 32, 58, 62, 64, 85, 91].contains (w.extractLsb' 8 8)

/-- Format S: `CMD[7:4]`, `CMD[11]`, `CMD[15:14]` and `CMD[31:21]` are 0 (R101 c). -/
def CmdWord.reservedS (w : Word) : Bool :=
  w.extractLsb' 4 4 == 0 && w.extractLsb' 11 1 == 0 && w.extractLsb' 14 2 == 0
    && w.extractLsb' 21 11 == 0

/-- Format S: `MODE` is 0 to 4 (R101 d). -/
def CmdWord.modeLegal (w : Word) : Bool := decide (w.extractLsb' 8 3 ≤ 4)

/-- Format S: `PAD` is not 3 (R101 e). -/
def CmdWord.padLegal (w : Word) : Bool := w.extractLsb' 12 2 != 3

/-- Not illegal in the sense of R101: a command or an unknown base. -/
def CmdWord.legal (w : Word) : Bool :=
  CmdWord.opcLegal w &&
    (bif CmdWord.isX w then CmdWord.reservedX w
     else CmdWord.reservedS w && CmdWord.modeLegal w && CmdWord.padLegal w)

/-- One of the 24 commands. -/
def CmdWord.wellFormed (w : Word) : Bool :=
  CmdWord.legal w && (!CmdWord.isX w || CmdWord.baseKnown w)

/-! ## Configurations -/

/-- An admissible default alphabet of `n` symbols: distinct ASCII bytes outside `WS`
(92_eei_decisions.md D11). -/
def alphabetWf (ws : Bytes) (n : Nat) (A : Bytes) : Bool :=
  A.length == n && decide A.Nodup && A.all (fun c => decide (c.toNat < 0x80) && !ws.contains c)

/-- The buffer capacities: 1 to 2^20 (00_scope.md R13). -/
def Config.capacityWf (c : Config) : Bool :=
  decide (1 ≤ c.inMax) && decide (c.inMax ≤ 2 ^ 20) && decide (1 ≤ c.outMax)
    && decide (c.outMax ≤ 2 ^ 20)

/-- "`WS` must not contain `=` or any default-alphabet symbol" (92_eei_decisions.md D10); read as
every built-in table that a stripped text is written in. Log 17. -/
def Config.wsWf (c : Config) : Bool :=
  (padChar :: (a16 ++ a32 ++ a64 ++ a85)).all (fun x => !c.ws.contains x)

/-- `1 ≤ CTR_WIDTH ≤ 128` (00_scope.md R13, 45_cipher_mode_controller.md R276). -/
def Config.ctrWf (c : Config) : Bool := decide (1 ≤ c.ctrWidth) && decide (c.ctrWidth ≤ 128)

/-- A configuration that 00_scope.md R13 and the OPEN rows of 92_eei_decisions.md admit. -/
def Config.wf (c : Config) : Bool :=
  c.capacityWf && c.wsWf && alphabetWf c.ws 58 c.a58 && alphabetWf c.ws 62 c.a62 && c.ctrWf

end Sys2Proof
end

