-- ==== Sys2Proof/Safety.lean ====
section
/-! DEFINITION. What counts as a safe state and a safe configuration: the invariant that every step keeps,
and the named properties the spec requires of the configuration functions (spec/43_static_table_codec.md
R224, 46_block_core_sm4.md R321). -/

namespace Sys2Proof

/-- `P_rt85` (R224): "for every byte sequence `D`, `B85Dec(StripWs(B85Enc(D))) = Ok(D)`". -/
def Config.Rt85 (c : Config) : Prop := ∀ D : Bytes, c.b85Dec (stripWs c.ws (c.b85Enc D)) = .ok D

/-- `P_rt91` (R224): "for every byte sequence `D`, `B91Dec(B91Enc(D)) = Ok(D)`". -/
def Config.Rt91 (c : Config) : Prop := ∀ D : Bytes, c.b91Dec (c.b91Enc D) = .ok D

/-- `P_empty` (R224). -/
def Config.EmptyStatic (c : Config) : Prop :=
  c.b85Enc [] = [] ∧ c.b91Enc [] = [] ∧ c.b85Dec [] = .ok [] ∧ c.b91Dec [] = .ok []

/-- `P_inv` (R321): "for every `K` and `X`, `BlockDec(K, BlockEnc(K, X)) = X`". -/
def Config.CoreInv (c : Config) : Prop := ∀ K X : Block, c.blockDec K (c.blockEnc K X) = X

/-- `P_perm` (R321). -/
def Config.CorePerm (c : Config) : Prop :=
  ∀ K : Block, Function.Bijective (c.blockEnc K) ∧ ∀ Y : Block, c.blockEnc K (c.blockDec K Y) = Y

/-- `P_kat` (R321): the four known answers under the key `k`. -/
def Config.CoreKat (c : Config) : Prop :=
  ∀ p ∈ knownAnswers, c.blockEnc katKey p.1 = p.2

end Sys2Proof

namespace Sys2Proof.Machine

/-- The codes that `ERR` can hold in FAULT (60_exceptions.md R341): 11 is reserved and never raised, and
"every other value of `ERR` never occurs". -/
def legalCodes : List Byte := [1, 2, 3, 4, 5, 6, 7, 8, 9, 10, 0x80, 0x81]

/-- The offset belongs to some buffer (20_memory.md R61). -/
def mapped (c : Config) (a : Nat) : Bool := (locate c a 1).isSome

/-- The invariant of an instance. -/
structure State.Inv (s : State) : Prop where
  /-- The configuration is admissible (00_scope.md R13). -/
  cfgWf : s.cfg.wf = true
  /-- The memory is in canonical form. -/
  memWf : s.mem.wf
  /-- Only bytes of the five buffers have values (20_memory.md R61). -/
  memMapped : ∀ p ∈ s.mem, mapped s.cfg p.1 = true
  /-- "`ERR ≠ 0` exactly when `STATE = FAULT`" (10_state.md R27). -/
  errIff : s.err ≠ 0 ↔ s.phase = .fault
  /-- In FAULT the code is one that exists (60_exceptions.md R341). -/
  errLegal : s.phase = .fault → s.err ∈ legalCodes
  /-- `ERR_INFO0..2` are 0 but in FAULT (10_state.md R36). -/
  infoZero : s.phase ≠ .fault → s.errInfo0 = 0 ∧ s.errInfo1 = 0 ∧ s.errInfo2 = 0
  /-- `OUT_LEN` is 0 but in DONE (R35). -/
  outLenZero : s.phase ≠ .done → s.outLen = 0
  /-- The payload fits OUT (30_encoding.md R104). -/
  outLenLe : s.outLen.toNat ≤ s.cfg.outMax
  /-- In DONE every byte of the payload is known (10_state.md R42). -/
  payload : s.phase = .done →
    ∀ i < s.outLen.toNat, (s.mem.get (Space.output.offset + i)).isSome = true
  /-- Every byte of OUT that is no payload is unspecified (R42, R53, R54, 60_exceptions.md R360). -/
  outUnspecified : ∀ i, s.outLen.toNat ≤ i → i < s.cfg.outMax →
    s.mem.get (Space.output.offset + i) = none

end Sys2Proof.Machine
end

