-- ==== Sys2Proof/Certificates/Slice0/Obligations.lean ====
section
/-! DEFINITION. The statements for the provers, and the words they are made of. The draw counter, the
pending events and the last answer are the model's own fields (log 1, 9, 13): a clause about them says
how the model keeps its books, not what a rule says. -/

/-! ## The words of the statements -/

namespace Sys2Proof.Claims

open Sys2Proof.Machine

/-- The window offset `a` lies in OUT (20_memory.md R61). -/
def InOut (c : Config) (a : Nat) : Prop :=
  Space.output.offset ≤ a ∧ a < Space.output.offset + c.outMax

/-- What a command, GO and ACK leave alone: the configuration, `CMD`, `INTEN`, `x[0..3]`, every byte
outside OUT, and the model's list of pending events. -/
structure Kept (s t : State) : Prop where
  cfg : t.cfg = s.cfg
  cmd : t.cmd = s.cmd
  ie : t.ie = s.ie
  inLen : t.inLen = s.inLen
  alphaLen : t.alphaLen = s.alphaLen
  keyLen : t.keyLen = s.keyLen
  ivLen : t.ivLen = s.ivLen
  events : t.events = s.events
  bytes : ∀ a, ¬ InOut s.cfg a → t.mem.get a = s.mem.get a

/-- `x[4..7]` and `STATUS.ERR` are 0. -/
def Cleared (t : State) : Prop :=
  t.outLen = 0 ∧ t.err = 0 ∧ t.errInfo0 = 0 ∧ t.errInfo1 = 0 ∧ t.errInfo2 = 0

/-- No byte of OUT has a value. -/
def OutUnspecified (c : Config) (t : State) : Prop := ∀ a, InOut c a → t.mem.get a = none

/-- The end of a command in DONE with the payload `B` (10_state.md R52, R42). -/
structure Done (s t : State) (B : Bytes) : Prop where
  kept : Kept s t
  resp : t.resp = s.resp
  phase : t.phase = .done
  err : t.err = 0
  outLen : t.outLen = BitVec.ofNat 32 B.length
  infos : t.errInfo0 = s.errInfo0 ∧ t.errInfo1 = s.errInfo1 ∧ t.errInfo2 = s.errInfo2
  fits : B.length ≤ s.cfg.outMax
  payload : ∀ i (h : i < B.length), t.mem.get (Space.output.offset + i) = some B[i]
  rest : ∀ i, B.length ≤ i → i < s.cfg.outMax → t.mem.get (Space.output.offset + i) = none

/-- The end of a command in FAULT with code `c` and the detail words `i0`, `i1`, `i2`
(10_state.md R52, 60_exceptions.md R360). -/
structure Faulted (s t : State) (c : Byte) (i0 i1 i2 : Word) : Prop where
  kept : Kept s t
  resp : t.resp = s.resp
  phase : t.phase = .fault
  err : t.err = c
  outLen : t.outLen = 0
  infos : t.errInfo0 = i0 ∧ t.errInfo1 = i1 ∧ t.errInfo2 = i2
  out : OutUnspecified s.cfg t

/-- The instruction runs to DONE with the payload `B`. -/
def Completes (i : Instr) (s : State) (B : Bytes) : Prop :=
  ∃ t, exec i s = .next t ∧ Done s t B

/-- The instruction ends in FAULT with this code and these detail words. -/
def Faults (i : Instr) (s : State) (c : Byte) (i0 i1 i2 : Word) : Prop :=
  ∃ t, exec i s = .next t ∧ Faulted s t c i0 i1 i2

/-- The end of a command with the result `r` (10_state.md R52). -/
def EndsWith (s t : State) : Except CmdFault Bytes → Prop
  | .ok B => Done s t B
  | .error f => Faulted s t f.code f.info0 f.info1 f.info2

/-- A number as a 32-bit word. -/
def word (n : Nat) : Word := BitVec.ofNat 32 n

/-- The input bytes, `IN[0 : IN_LEN]`. -/
def input (s : State) : Bytes := s.fetch .input s.inLen.toNat

/-- The input fits IN. -/
def InputFits (s : State) : Prop := s.inLen.toNat ≤ s.cfg.inMax

/-- The lengths a custom alphabet may have (40_basex_front_end.md R125, R126, R124). -/
def AlphaLenOk (n : Nat) : Base → Prop
  | .b16 => n = 16
  | .b32 => n = 32
  | .b64 => n = 64
  | .b58 => 2 ≤ n ∧ n ≤ 256
  | .b62 => 2 ≤ n ∧ n ≤ 256
  | .b85 => False
  | .b91 => False

/-- The custom alphabet, `ALPHA[0 : ALPHA_LEN]`. -/
def customAlphabet (s : State) : Bytes := s.fetch .alpha s.alphaLen.toNat

/-- Every byte is ASCII (R127). -/
def Ascii (A : Bytes) : Prop := ∀ c ∈ A, c.toNat < 0x80

/-- The command uses the alphabet `A`: the default one, or an accepted custom one. -/
def AlphabetIs (s : State) (b : Base) (ap : Bool) (A : Bytes) : Prop :=
  (ap = false ∧ A = s.cfg.defaultAlphabet b) ∨
    (ap = true ∧ A = customAlphabet s ∧ AlphaLenOk s.alphaLen.toNat b ∧ Ascii A ∧ A.Nodup)

/-- A key or IV string is 16 Text bytes or 32 hex digits, and stands for the block `K`
(45_cipher_mode_controller.md R252). -/
def StringIs (s : State) (f : KeyField) (t : StrType) (K : Block) : Prop :=
  (t = .text ∧ s.strLen f = 16 ∧ K = blockOf (s.fetch f.space 16)) ∨
    (t = .hex ∧ s.strLen f = 32 ∧
      ∃ R, hexDecode (s.fetch f.space 32) = .ok R ∧ K = blockOf R)

/-- The IV gate passes (R255). -/
def GatePasses (m : Mode) (o : CipherOpts) : Prop :=
  (m ≠ .ecb → o.ivp = true) ∧ (o.ivp = true → o.ivtp = true)

/-- The gate passes and, but in ECB, the IV string stands for the block `V` (R255, R256). -/
def IvIs (s : State) (m : Mode) (o : CipherOpts) (V : Block) : Prop :=
  GatePasses m o ∧ (m ≠ .ecb → StringIs s .iv o.ivt V)

/-- A write to `CTRL` (10_state.md R26). -/
def ctrlWrite (v : Word) : Access := .write .w32 0x000010 v

/-- The fields other than `resp` and the draw counter are those of `s`. -/
def SameBut (s t : State) : Prop := t = { s with resp := t.resp, draws := t.draws }

/-- A 32-bit read at `off` gives `v` and changes nothing. -/
def ReadsAs (s : State) (off : Offset) (v : Word) : Prop :=
  ∃ t, hostAccess (.read .w32 off) s = .next t ∧ t.resp = .data v ∧ SameBut s t

/-- A 32-bit write of `v` at `off` has the effect `f`. -/
def WritesTo (s : State) (off : Offset) (v : Word) (t : State) : Prop :=
  hostAccess (.write .w32 off v) s = .next { t with resp := .written }

/-- An access of `n` bytes at `a` lies naturally aligned in the buffer `sp` (20_memory.md R65). -/
def InBuffer (c : Config) (sp : Space) (a n : Nat) : Prop :=
  a % n = 0 ∧ sp.offset ≤ a ∧ a + n ≤ sp.offset + sp.size c

/-- The state in which the host has just written GO to `CTRL` while the block was not BUSY: the
operands stand, the result is cleared (10_state.md R51). -/
structure Started (s t : State) : Prop where
  kept : Kept s t
  resp : t.resp = .written
  phase : t.phase = .busy
  cleared : Cleared t
  out : OutUnspecified s.cfg t

/-- The known bytes of the first `n` bytes of a buffer, as far as the buffer reaches, are all of them and
the same in both states. -/
def Agree (s t : State) (sp : Space) (n : Nat) : Prop :=
  ∀ j, j < n → j < sp.size s.cfg →
    ∃ b, s.mem.get (sp.offset + j) = some b ∧ t.mem.get (sp.offset + j) = some b

/-- The length register of a buffer. -/
def lenOf (s : State) : Space → Word
  | .input => s.inLen
  | .alpha => s.alphaLen
  | .key => s.keyLen
  | .iv => s.ivLen
  | .output => s.outLen

/-- Bit `k` of a byte sequence, most significant bit of the first byte first; false past the end. -/
def msbBit (D : Bytes) (k : Nat) : Bool := (D.getD (k / 8) 0).getLsbD (7 - k % 8)

/-- The geometries of the fixed-width unit (41_fixed_width_codec.md R150). -/
def geometries : List Geometry := [geo16, geo32, geo64]

/-- An alphabet of the geometry's size (R16). -/
def ValidFor (g : Geometry) (A : Bytes) : Prop := A.length = 2 ^ g.w ∧ A.Nodup

/-- One well-formed UTF-8 sequence: the nine rows of 40_basex_front_end.md R132. -/
inductive Utf8Seq : Bytes → Prop where
  | ascii (a : Byte) : a ≤ 0x7F → Utf8Seq [a]
  | two (a b : Byte) : 0xC2 ≤ a → a ≤ 0xDF → 0x80 ≤ b → b ≤ 0xBF → Utf8Seq [a, b]
  | e0 (b c : Byte) : 0xA0 ≤ b → b ≤ 0xBF → 0x80 ≤ c → c ≤ 0xBF → Utf8Seq [0xE0, b, c]
  | e1 (a b c : Byte) : 0xE1 ≤ a → a ≤ 0xEC → 0x80 ≤ b → b ≤ 0xBF → 0x80 ≤ c → c ≤ 0xBF →
      Utf8Seq [a, b, c]
  | ed (b c : Byte) : 0x80 ≤ b → b ≤ 0x9F → 0x80 ≤ c → c ≤ 0xBF → Utf8Seq [0xED, b, c]
  | ee (a b c : Byte) : 0xEE ≤ a → a ≤ 0xEF → 0x80 ≤ b → b ≤ 0xBF → 0x80 ≤ c → c ≤ 0xBF →
      Utf8Seq [a, b, c]
  | f0 (b c d : Byte) : 0x90 ≤ b → b ≤ 0xBF → 0x80 ≤ c → c ≤ 0xBF → 0x80 ≤ d → d ≤ 0xBF →
      Utf8Seq [0xF0, b, c, d]
  | f1 (a b c d : Byte) : 0xF1 ≤ a → a ≤ 0xF3 → 0x80 ≤ b → b ≤ 0xBF → 0x80 ≤ c → c ≤ 0xBF →
      0x80 ≤ d → d ≤ 0xBF → Utf8Seq [a, b, c, d]
  | f4 (b c d : Byte) : 0x80 ≤ b → b ≤ 0x8F → 0x80 ≤ c → c ≤ 0xBF → 0x80 ≤ d → d ≤ 0xBF →
      Utf8Seq [0xF4, b, c, d]

/-- Block `i` of a buffer, `P_(i+1)` of 45_cipher_mode_controller.md R270. -/
def blk (P : Bytes) (i : Nat) : Block := blockOf ((P.drop (16 * i)).take 16)

/-- Block `i` of the chain: `V` before the first, else the block before (`C_(i-1)` with `C_0 = V`). -/
def prevBlk (V : Block) (C : Bytes) (i : Nat) : Block := if i = 0 then V else blk C (i - 1)

/-- The keystream block that meets block `i` of a text `C` on decrypt (R273 to R275, R277). -/
def keyBlock (E : Block → Block) (w : Nat) (V : Block) (C : Bytes) : Mode → Nat → Block
  | .cfb, i => E (prevBlk V C i)
  | .ofb, i => E^[i + 1] V
  | .ctr, i => E ((ctrIncr w)^[i] V)
  | .ecb, _ => 0
  | .cbc, _ => 0

/-- The codes that a radix-codec command can end in (60_exceptions.md R357). -/
def bxCodes (d : Dir) (b : Base) (ap : Bool) : List Byte :=
  (if ap = true ∧ b.isStatic = false then [2, 4] else [])
    ++ (if ap = true ∧ b.isStatic = true then [3] else [])
    ++ (if d = .dec then [4, 5] else []) ++ [0x81]

/-- The codes that a cipher command can end in (R357). -/
def sm4Codes (d : Dir) (m : Mode) (o : CipherOpts) : List Byte :=
  (if d = .dec ∨ o.kt = .hex ∨ o.ivt = .hex then [4] else [])
    ++ (if d = .dec then [5] else []) ++ (if m ≠ .ecb then [6] else []) ++ [7, 8]
    ++ (if (d = .enc ∧ o.pad = .none) ∨ (d = .dec ∧ (m = .ecb ∨ m = .cbc)) then [9] else [])
    ++ (if d = .dec ∧ o.pad = .pkcs7 then [10] else []) ++ [0x81]

/-- The encode commands of one fixed-width base end in DONE with the packed text. -/
def FixedEncodes (i : Bool → Instr) (b : Base) (g : Geometry) : Prop :=
  ∀ (ap : Bool) (s : State) (A : Bytes),
    InputFits s → AlphabetIs s b ap A →
    (fwEncode g A (!ap && b != .b16) (input s)).length ≤ s.cfg.outMax →
    Completes (i ap) s (fwEncode g A (!ap && b != .b16) (input s))

/-- The decode commands of one fixed-width base end in DONE with the unpacked bytes. -/
def FixedDecodes (i : Bool → Instr) (b : Base) (g : Geometry) : Prop :=
  ∀ (ap : Bool) (s : State) (A B : Bytes),
    InputFits s → AlphabetIs s b ap A →
    fwDecode g A (!ap && b != .b16) (!ap && b == .b16) (stripWs s.cfg.ws (input s)) = .ok B →
    utf8Valid B = true → B.length ≤ s.cfg.outMax → Completes (i ap) s B

/-- The encode commands of one big-integer base end in DONE with the converted text. -/
def BigEncodes (i : Bool → Instr) (b : Base) : Prop :=
  ∀ (ap : Bool) (s : State) (A : Bytes),
    InputFits s → AlphabetIs s b ap A → (biEncode A (input s)).length ≤ s.cfg.outMax →
    Completes (i ap) s (biEncode A (input s))

/-- The decode commands of one big-integer base end in DONE with the converted bytes. -/
def BigDecodes (i : Bool → Instr) (b : Base) : Prop :=
  ∀ (ap : Bool) (s : State) (A B : Bytes),
    InputFits s → AlphabetIs s b ap A → biDecode A (stripWs s.cfg.ws (input s)) = .ok B →
    utf8Valid B = true → B.length ≤ s.cfg.outMax → Completes (i ap) s B

/-- The encrypt command of one mode ends in DONE with the encoded ciphertext. -/
def Encrypts (i : CipherOpts → Instr) (m : Mode) : Prop :=
  ∀ (o : CipherOpts) (s : State) (K V : Block) (P : Bytes),
    StringIs s .key o.kt K → IvIs s m o V → InputFits s → padApply o.pad (input s) = .ok P →
    (formatEnc o.fmt (modeEnc (s.cfg.blockEnc K) s.cfg.ctrWidth m V P)).length ≤ s.cfg.outMax →
    Completes (i o) s (formatEnc o.fmt (modeEnc (s.cfg.blockEnc K) s.cfg.ctrWidth m V P))

/-- The decrypt command of one mode ends in DONE with the recovered plaintext. -/
def Decrypts (i : CipherOpts → Instr) (m : Mode) : Prop :=
  ∀ (o : CipherOpts) (s : State) (K V : Block) (C B : Bytes),
    StringIs s .key o.kt K → IvIs s m o V → InputFits s →
    formatDec o.fmt (stripWs s.cfg.ws (input s)) = .ok C →
    (m = .ecb ∨ m = .cbc → C.length % 16 = 0) →
    padRemove o.pad (modeDec (s.cfg.blockEnc K) (s.cfg.blockDec K) s.cfg.ctrWidth m V C) = .ok B →
    utf8Valid B = true → B.length ≤ s.cfg.outMax → Completes (i o) s B

/-- The result of a command as an operation reports it (30_encoding.md R109, 60_exceptions.md R350). -/
def reported : Except CmdFault Bytes → Except OpError Bytes
  | .ok B => .ok B
  | .error f => .error ⟨f.code, f.info0, f.info1, f.info2⟩

/-- A call from `s` answers with the result `r` of its command on a state that holds the operands. -/
def Delivers (op : State → Host.Outcome (State × Except OpError Bytes) Fault Refusal)
    (r : State → Except CmdFault Bytes) (holds : State → Prop) (s : State) : Prop :=
  ∃ t u, op s = .next (t, reported (r u)) ∧ u.cfg = s.cfg ∧ holds u

/-- The state holds the input and, where one is given, the alphabet. -/
def HoldsText (D : Bytes) (al : Option Bytes) (u : State) : Prop :=
  u.inLen = word D.length ∧ input u = D ∧
    ∀ A ∈ al, u.alphaLen = word A.length ∧ customAlphabet u = A

/-- The state holds the input, the key and, where one is given, the IV. -/
def HoldsCipher (D K : Bytes) (iv : Option (Bytes × Option StrType)) (u : State) : Prop :=
  u.inLen = word D.length ∧ input u = D ∧ u.keyLen = word K.length ∧ u.fetch .key K.length = K ∧
    ∀ V ∈ iv, u.ivLen = word V.1.length ∧ u.fetch .iv V.1.length = V.1

/-- The fields of a cipher command as an operation gives them: "iv absent", "iv" without a type, or
"iv=<type>" (30_encoding.md R106). -/
def callOpts (pad : Pad) (fmt : Fmt) (kt : StrType) : Option (Bytes × Option StrType) → CipherOpts
  | none => ⟨pad, fmt, kt, false, false, .text⟩
  | some (_, none) => ⟨pad, fmt, kt, true, false, .text⟩
  | some (_, some t) => ⟨pad, fmt, kt, true, true, t⟩

/-- What recovering a plaintext gives: all of it, but under Zero padding the trailing zero bytes are
lost (45_cipher_mode_controller.md R284). -/
def recovered (p : Pad) (D : Bytes) : Bytes :=
  match p with
  | .zero => unpadZero D
  | .pkcs7 => D
  | .none => D

end Sys2Proof.Claims

open Sys2Proof Sys2Proof.Machine Sys2Proof.Claims

/-! ## The encoding -/

/-- 30_encoding.md R90 to R97: a word decodes to a command exactly when it is that command's word, with
every field at every value. -/
def Obligations.DecodeEncodeAgree : Prop :=
  ∀ (i : Instr) (w : Word), decode w = .ok i ↔ encode i = w

/-- 30_encoding.md R96. -/
def Obligations.DecodeFollowsOpcodeMap : Prop :=
  ∀ r ∈ opcodeMap, ∀ w : Word,
    r.matches w = true ↔ ∃ i, decode w = .ok i ∧ i.mnemonic = r.mnemonic

/-- 30_encoding.md R92, R93 and the examples of R106, as words written out bit by bit. -/
def Obligations.WrittenOutWordsDecode : Prop :=
  decode 0b00000000000000000100000000000010 = .ok (.bxe64 false) ∧
    decode 0b00000000000000000011101000010011 = .ok (.bxd58 true) ∧
    decode 0b00000000000000000101101100000011 = .ok (.bxd91 false) ∧
    decode 0b00000000000011000000000100000100 = .ok (.sm4eCbc ⟨.pkcs7, .hex, .text, true, true, .text⟩) ∧
    decode 0b00000000000111110010010000000101 = .ok (.sm4dCtr ⟨.none, .base64, .hex, true, true, .hex⟩) ∧
    decode 0b00000000000000000001000000000100 = .ok (.sm4eEcb ⟨.zero, .hex, .text, false, false, .text⟩)

/-- 30_encoding.md R101, R102, 60_exceptions.md R342, R345: exactly the illegal words end in code 0x80, and
exactly the format-X words with clear reserved bits and an unlisted `BASE` in code 1, whatever else the
state holds. -/
def Obligations.WordsThatAreNoCommandFault : Prop :=
  ∀ s : State, s.phase = .busy →
    (CmdWord.legal s.cmd = false ↔ ∃ t, engineTurn s = .next t ∧ Faulted s t 0x80 s.cmd 0 0) ∧
    ((CmdWord.isX s.cmd = true ∧ CmdWord.reservedX s.cmd = true ∧ CmdWord.baseKnown s.cmd = false) ↔
      ∃ t, engineTurn s = .next t ∧
        Faulted s t 1 ((s.cmd.extractLsb' 8 8).setWidth 32) 0 0)

/-- 30_encoding.md R103: the two don't-cares of `IVT`, and `AP`, which is none. -/
def Obligations.DontCareBits : Prop :=
  (∀ (d : Dir) (m : Mode) (o : CipherOpts) (v : StrType) (s : State),
    (o.ivtp = false ∨ m = .ecb) →
      exec (Instr.ofSm4 d m { o with ivt := v }) s = exec (Instr.ofSm4 d m o) s) ∧
    (∀ (d : Dir) (b : Base) (s : State), b = .b85 ∨ b = .b91 →
      Faults (Instr.ofBx d b true) s 3 (word b.radix) 0 0)

/-! ## The step -/

/-- A step runs the decoded command: with nothing pending it is `exec` of it; with the engine's turn at
the head of the model's list of events (log 9) it is `exec` of it on the state with that turn taken
off. -/
def Obligations.StepRunsDecodedCommand : Prop :=
  ∀ (s : State) (i : Instr), s.phase = .busy → decode s.cmd = .ok i →
    (s.events = [] → step s = exec i s) ∧
      ∀ es, s.events = .engineTurn :: es → step s = exec i { s with events := es }

/-- 20_memory.md R73, 10_state.md R51, 30_encoding.md R107: the host writes a command word and GO; the
engine then runs that very command on the operands as they stood. -/
def Obligations.HostStartsCommand : Prop :=
  ∀ (s : State) (i : Instr) (es : List Event),
    s.phase ≠ .busy → s.events = command i ++ .engineTurn :: es →
    ∃ t u, step s = .next t ∧ t.cmd = encode i ∧ t.phase = s.phase ∧
      step t = .next u ∧ Started { s with cmd := encode i, events := .engineTurn :: es } u ∧
      step u = exec i { u with events := es }

/-- 10_state.md R52, 30_encoding.md R104, 60_exceptions.md R360: the engine's step is enabled exactly in
BUSY, and ends the command in DONE or FAULT with the result of its pipeline, all at once. -/
def Obligations.EngineStep : Prop :=
  (∀ s : State, s.phase ≠ .busy → engineTurn s = .next s) ∧
    ∀ s : State, s.phase = .busy →
      (decode s.cmd = .error .illegal →
        ∃ t, engineTurn s = .next t ∧ EndsWith s t (.error (.illegalCommand s.cmd))) ∧
      (∀ b, decode s.cmd = .error (.unknownBase b) →
        ∃ t, engineTurn s = .next t ∧ EndsWith s t (.error (.unknownBase b))) ∧
      (∀ d b ap, decode s.cmd = .ok (Instr.ofBx d b ap) →
        ∃ t, engineTurn s = .next t ∧ EndsWith s t (bxExec d b ap s)) ∧
      (∀ d m o, decode s.cmd = .ok (Instr.ofSm4 d m o) →
        ∃ t, engineTurn s = .next t ∧ EndsWith s t (sm4Exec d m o s))

/-- The frame of every command (10_state.md R46, R40, 70_reset_and_hazards.md R389, 60_exceptions.md
R360): it ends in DONE or FAULT; it leaves `CMD`, `INTEN`, `x[0..3]` and every byte outside OUT alone;
in DONE it stores from the first offset of OUT up, as many bytes as `OUT_LEN` says, and leaves the
detail words alone; every other byte of OUT has no value after it. -/
def Obligations.CommandFrame : Prop :=
  ∀ (i : Instr) (s : State), ∃ t, exec i s = .next t ∧ Kept s t ∧ t.resp = s.resp ∧
    (t.phase = .done ∨ t.phase = .fault) ∧
    (t.phase = .done → t.err = 0 ∧ t.errInfo0 = s.errInfo0 ∧ t.errInfo1 = s.errInfo1 ∧
      t.errInfo2 = s.errInfo2) ∧
    (t.phase = .fault → t.err ∈ legalCodes ∧ t.outLen = 0) ∧
    ∃ n, t.outLen = word n ∧ n ≤ s.cfg.outMax ∧ ∀ j, j < s.cfg.outMax →
      ((t.mem.get (Space.output.offset + j)).isSome = true ↔ j < n)

/-! ## What the commands compute -/

/-- 41_fixed_width_codec.md R151, R160 to R162: BXE.16, BXE.32, BXE.64. -/
def Obligations.FixedWidthEncodeResult : Prop :=
  FixedEncodes .bxe16 .b16 geo16 ∧ FixedEncodes .bxe32 .b32 geo32 ∧ FixedEncodes .bxe64 .b64 geo64

/-- 41_fixed_width_codec.md R151, R155, R163 to R165: BXD.16, BXD.32, BXD.64. -/
def Obligations.FixedWidthDecodeResult : Prop :=
  FixedDecodes .bxd16 .b16 geo16 ∧ FixedDecodes .bxd32 .b32 geo32 ∧ FixedDecodes .bxd64 .b64 geo64

/-- 42_bigint_codec.md R190, R196, R197: BXE.58, BXE.62; with a custom alphabet they do the same. -/
def Obligations.BigIntEncodeResult : Prop :=
  BigEncodes .bxe58 .b58 ∧ BigEncodes .bxe62 .b62 ∧
    ∀ s : State, AlphaLenOk s.alphaLen.toNat .b58 → exec (.bxe58 true) s = exec (.bxe62 true) s

/-- 42_bigint_codec.md R190, R198, R199: BXD.58, BXD.62; with a custom alphabet they do the same. -/
def Obligations.BigIntDecodeResult : Prop :=
  BigDecodes .bxd58 .b58 ∧ BigDecodes .bxd62 .b62 ∧
    ∀ s : State, AlphaLenOk s.alphaLen.toNat .b58 → exec (.bxd58 true) s = exec (.bxd62 true) s

/-- 43_static_table_codec.md R232 to R235, 40_basex_front_end.md R131, with any transforms: BXE.85, BXE.91,
BXD.85, which strips whitespace, and BXD.91, which does not. `AP` = 1 always faults:
`AlphabetSupportAndLengthFaults`. -/
def Obligations.StaticTableResult : Prop :=
  (∀ s : State, InputFits s → (s.cfg.b85Enc (input s)).length ≤ s.cfg.outMax →
    Completes (.bxe85 false) s (s.cfg.b85Enc (input s))) ∧
  (∀ s : State, InputFits s → (s.cfg.b91Enc (input s)).length ≤ s.cfg.outMax →
    Completes (.bxe91 false) s (s.cfg.b91Enc (input s))) ∧
  (∀ (s : State) (B : Bytes), InputFits s → s.cfg.b85Dec (stripWs s.cfg.ws (input s)) = .ok B →
    utf8Valid B = true → B.length ≤ s.cfg.outMax → Completes (.bxd85 false) s B) ∧
  ∀ (s : State) (B : Bytes), InputFits s → s.cfg.b91Dec (input s) = .ok B →
    utf8Valid B = true → B.length ≤ s.cfg.outMax → Completes (.bxd91 false) s B

/-- 45_cipher_mode_controller.md R250, R263, R280, R290 to R294: the five encrypts. -/
def Obligations.EncryptResult : Prop :=
  Encrypts .sm4eEcb .ecb ∧ Encrypts .sm4eCbc .cbc ∧ Encrypts .sm4eCfb .cfb ∧
    Encrypts .sm4eOfb .ofb ∧ Encrypts .sm4eCtr .ctr

/-- 45_cipher_mode_controller.md R250, R281, R295 to R299: the five decrypts. -/
def Obligations.DecryptResult : Prop :=
  Decrypts .sm4dEcb .ecb ∧ Decrypts .sm4dCbc .cbc ∧ Decrypts .sm4dCfb .cfb ∧
    Decrypts .sm4dOfb .ofb ∧ Decrypts .sm4dCtr .ctr

/-! ## The command faults -/

/-- 40_basex_front_end.md R124, R125, 60_exceptions.md R346, R347: a custom alphabet for base 85 or 91,
whatever else the state holds; and the two causes of a length mismatch, in both directions. -/
def Obligations.AlphabetSupportAndLengthFaults : Prop :=
  (∀ s : State, Faults (.bxe85 true) s 3 85 0 0 ∧ Faults (.bxe91 true) s 3 91 0 0 ∧
    Faults (.bxd85 true) s 3 85 0 0 ∧ Faults (.bxd91 true) s 3 91 0 0) ∧
  (∀ (d : Dir) (b : Base) (s : State), b = .b16 ∨ b = .b32 ∨ b = .b64 →
    s.alphaLen.toNat ≠ b.radix →
      Faults (Instr.ofBx d b true) s 2 (word b.radix) (word b.radix) s.alphaLen) ∧
  ∀ (d : Dir) (b : Base) (s : State), b = .b58 ∨ b = .b62 → s.alphaLen.toNat < 2 →
    Faults (Instr.ofBx d b true) s 2 (word b.radix) 2 s.alphaLen

/-- 40_basex_front_end.md R127, R128: the two content checks in their order, and the cap of 128
symbols. -/
def Obligations.AlphabetContentFaults : Prop :=
  ∀ (d : Dir) (b : Base) (s : State), AlphaLenOk s.alphaLen.toNat b →
    (¬ Ascii (customAlphabet s) → Faults (Instr.ofBx d b true) s 4 6 1 0) ∧
    (Ascii (customAlphabet s) → ¬ (customAlphabet s).Nodup →
      Faults (Instr.ofBx d b true) s 4 5 1 0) ∧
    (128 < s.alphaLen.toNat →
      Faults (Instr.ofBx d b true) s 4 6 1 0 ∨ Faults (Instr.ofBx d b true) s 4 5 1 0)

/-- 60_exceptions.md R344, 40_basex_front_end.md R135: the five buffers, each with its capacity and the
length asked for. -/
def Obligations.CapacityFault : Prop :=
  (∀ (d : Dir) (b : Base) (ap : Bool) (A : Bytes) (s : State), AlphabetIs s b ap A →
    s.cfg.inMax < s.inLen.toNat →
      Faults (Instr.ofBx d b ap) s 0x81 0 (word s.cfg.inMax) s.inLen) ∧
  (∀ (d : Dir) (m : Mode) (o : CipherOpts) (K V : Block) (s : State), StringIs s .key o.kt K →
    IvIs s m o V → s.cfg.inMax < s.inLen.toNat →
      Faults (Instr.ofSm4 d m o) s 0x81 0 (word s.cfg.inMax) s.inLen) ∧
  (∀ (d : Dir) (b : Base) (s : State), b = .b58 ∨ b = .b62 → 256 < s.alphaLen.toNat →
    Faults (Instr.ofBx d b true) s 0x81 1 256 s.alphaLen) ∧
  (∀ (d : Dir) (m : Mode) (o : CipherOpts) (s : State), o.kt = .hex → 64 < s.keyLen.toNat →
    Faults (Instr.ofSm4 d m o) s 0x81 2 64 s.keyLen) ∧
  (∀ (d : Dir) (m : Mode) (o : CipherOpts) (K : Block) (s : State), StringIs s .key o.kt K →
    m ≠ .ecb → GatePasses m o → o.ivt = .hex → 64 < s.ivLen.toNat →
      Faults (Instr.ofSm4 d m o) s 0x81 3 64 s.ivLen) ∧
  (∀ (d : Dir) (b : Base) (ap : Bool) (A B : Bytes) (s : State), AlphabetIs s b ap A →
    InputFits s → bxTransform s.cfg d b ap A (input s) = .ok B → s.cfg.outMax < B.length →
      Faults (Instr.ofBx d b ap) s 0x81 4 (word s.cfg.outMax) (word B.length)) ∧
  (∀ (d : Dir) (m : Mode) (o : CipherOpts) (K V : Block) (B : Bytes) (s : State),
    StringIs s .key o.kt K → IvIs s m o V → InputFits s →
    sm4Transform s.cfg d m o K V (input s) = .ok B → s.cfg.outMax < B.length →
      Faults (Instr.ofSm4 d m o) s 0x81 4 (word s.cfg.outMax) (word B.length))

/-- 60_exceptions.md R348 (a), (b), (c), (e), R351: a text that its decoder refuses, with the decoder's
reason and the source. Cause (d) is `AlphabetContentFaults`. -/
def Obligations.MalformedInputFault : Prop :=
  (∀ (b : Base) (ap : Bool) (A : Bytes) (r : Reason) (s : State), AlphabetIs s b ap A →
    InputFits s → s.cfg.unitDecode b ap A (s.cfg.textOf b (input s)) = .error r →
      Faults (Instr.ofBx .dec b ap) s 4 (reasonCode r) 0 0) ∧
  (∀ (m : Mode) (o : CipherOpts) (K V : Block) (r : Reason) (s : State),
    StringIs s .key o.kt K → IvIs s m o V → InputFits s →
    formatDec o.fmt (stripWs s.cfg.ws (input s)) = .error r →
      Faults (Instr.ofSm4 .dec m o) s 4 (reasonCode r) 0 0) ∧
  (∀ (d : Dir) (m : Mode) (o : CipherOpts) (r : Reason) (s : State), o.kt = .hex →
    s.keyLen.toNat ≤ 64 → hexDecode (s.fetch .key s.keyLen.toNat) = .error r →
      Faults (Instr.ofSm4 d m o) s 4 (reasonCode r) 2 0) ∧
  (∀ (d : Dir) (m : Mode) (o : CipherOpts) (K : Block) (r : Reason) (s : State),
    StringIs s .key o.kt K → m ≠ .ecb → GatePasses m o → o.ivt = .hex →
    s.ivLen.toNat ≤ 64 → hexDecode (s.fetch .iv s.ivLen.toNat) = .error r →
      Faults (Instr.ofSm4 d m o) s 4 (reasonCode r) 3 0)

/-- 60_exceptions.md R349, 40_basex_front_end.md R133, R134, 45_cipher_mode_controller.md R282: after the
transform and the padding removal have succeeded; never by an encode or an encrypt. -/
def Obligations.InvalidUtf8OutputFault : Prop :=
  (∀ (b : Base) (ap : Bool) (A B : Bytes) (s : State), AlphabetIs s b ap A → InputFits s →
    s.cfg.unitDecode b ap A (s.cfg.textOf b (input s)) = .ok B → utf8Valid B = false →
      Faults (Instr.ofBx .dec b ap) s 5 0 0 0) ∧
  (∀ (m : Mode) (o : CipherOpts) (K V : Block) (C B : Bytes) (s : State),
    StringIs s .key o.kt K → IvIs s m o V → InputFits s →
    formatDec o.fmt (stripWs s.cfg.ws (input s)) = .ok C →
    (m = .ecb ∨ m = .cbc → C.length % 16 = 0) →
    padRemove o.pad (modeDec (s.cfg.blockEnc K) (s.cfg.blockDec K) s.cfg.ctrWidth m V C) = .ok B →
    utf8Valid B = false → Faults (Instr.ofSm4 .dec m o) s 5 0 0 0) ∧
  (∀ (b : Base) (ap : Bool) (s t : State), exec (Instr.ofBx .enc b ap) s = .next t → t.err ≠ 5) ∧
  (∀ (m : Mode) (o : CipherOpts) (s t : State),
    exec (Instr.ofSm4 .enc m o) s = .next t → t.err ≠ 5)

/-- 45_cipher_mode_controller.md R255, 60_exceptions.md R352, R353: the gate, after the key. -/
def Obligations.IvGateFaults : Prop :=
  (∀ (d : Dir) (m : Mode) (o : CipherOpts) (K : Block) (s : State), StringIs s .key o.kt K →
    m ≠ .ecb → o.ivp = false → Faults (Instr.ofSm4 d m o) s 6 (m.field.setWidth 32) 0 0) ∧
  (∀ (d : Dir) (m : Mode) (o : CipherOpts) (K : Block) (s : State), StringIs s .key o.kt K →
    o.ivp = true → o.ivtp = false → Faults (Instr.ofSm4 d m o) s 7 0 0 0) ∧
  (∀ (d : Dir) (o : CipherOpts) (s t : State),
    exec (Instr.ofSm4 d .ecb o) s = .next t → t.err ≠ 6) ∧
  (∀ (d : Dir) (m : Mode) (o : CipherOpts) (K : Block) (s : State), StringIs s .key o.kt K →
    m ≠ .ecb → o.ivp = true → o.ivtp = true → s.ivLen = 0 →
      Faults (Instr.ofSm4 d m o) s 8 1 16 0)

/-- 60_exceptions.md R354, 45_cipher_mode_controller.md R254: the byte count observed is the length of a
Text string and half the number of digits of a well-formed Hex string. The key comes first. -/
def Obligations.WrongKeyOrIvLengthFault : Prop :=
  (∀ (d : Dir) (m : Mode) (o : CipherOpts) (s : State), o.kt = .text → s.keyLen.toNat ≠ 16 →
    Faults (Instr.ofSm4 d m o) s 8 0 16 s.keyLen) ∧
  (∀ (d : Dir) (m : Mode) (o : CipherOpts) (R : Bytes) (s : State), o.kt = .hex →
    s.keyLen.toNat ≤ 64 → hexDecode (s.fetch .key s.keyLen.toNat) = .ok R → s.keyLen.toNat ≠ 32 →
      Faults (Instr.ofSm4 d m o) s 8 0 16 (word (s.keyLen.toNat / 2))) ∧
  (∀ (d : Dir) (m : Mode) (o : CipherOpts) (K : Block) (s : State), StringIs s .key o.kt K →
    m ≠ .ecb → GatePasses m o → o.ivt = .text → s.ivLen.toNat ≠ 16 →
      Faults (Instr.ofSm4 d m o) s 8 1 16 s.ivLen) ∧
  (∀ (d : Dir) (m : Mode) (o : CipherOpts) (K : Block) (R : Bytes) (s : State),
    StringIs s .key o.kt K → m ≠ .ecb → GatePasses m o → o.ivt = .hex → s.ivLen.toNat ≤ 64 →
    hexDecode (s.fetch .iv s.ivLen.toNat) = .ok R → s.ivLen.toNat ≠ 32 →
      Faults (Instr.ofSm4 d m o) s 8 1 16 (word (s.ivLen.toNat / 2)))

/-- 60_exceptions.md R355 (a) and (b), R356, 45_cipher_mode_controller.md R262, R278: data that is not
whole blocks, and a deciphered buffer `P` that fails one of the tests of the PKCS7 padding. -/
def Obligations.AlignmentAndPaddingFaults : Prop :=
  (∀ (m : Mode) (o : CipherOpts) (K V : Block) (s : State), StringIs s .key o.kt K →
    IvIs s m o V → InputFits s → o.pad = .none → s.inLen.toNat % 16 ≠ 0 →
      Faults (Instr.ofSm4 .enc m o) s 9 s.inLen 0 0) ∧
  (∀ (m : Mode) (o : CipherOpts) (K V : Block) (C : Bytes) (s : State), StringIs s .key o.kt K →
    IvIs s m o V → InputFits s → m = .ecb ∨ m = .cbc →
    formatDec o.fmt (stripWs s.cfg.ws (input s)) = .ok C → C.length % 16 ≠ 0 →
      Faults (Instr.ofSm4 .dec m o) s 9 (word C.length) 0 0) ∧
  ∀ (m : Mode) (o : CipherOpts) (K V : Block) (C P : Bytes) (s : State),
    StringIs s .key o.kt K → IvIs s m o V → InputFits s → o.pad = .pkcs7 →
    formatDec o.fmt (stripWs s.cfg.ws (input s)) = .ok C →
    (m = .ecb ∨ m = .cbc → C.length % 16 = 0) →
    modeDec (s.cfg.blockEnc K) (s.cfg.blockDec K) s.cfg.ctrWidth m V C = P →
    (P = [] ∨ P.length % 16 ≠ 0 ∨ (∃ p, P.getLast? = some p ∧
      (p = 0x00 ∨ 0x10 < p ∨ ∃ c ∈ P.drop (P.length - p.toNat), c ≠ p))) →
      Faults (Instr.ofSm4 .dec m o) s 10 0 0 0

/-- 60_exceptions.md R357: no command ends in a code its row does not hold. -/
def Obligations.FaultCodesPerCommand : Prop :=
  (∀ (d : Dir) (b : Base) (ap : Bool) (s t : State), exec (Instr.ofBx d b ap) s = .next t →
    t.phase = .fault → t.err ∈ bxCodes d b ap) ∧
  ∀ (d : Dir) (m : Mode) (o : CipherOpts) (s t : State), exec (Instr.ofSm4 d m o) s = .next t →
    t.phase = .fault → t.err ∈ sm4Codes d m o

/-! ## The host's steps -/

/-- 10_state.md R51. -/
def Obligations.GoStartsCommand : Prop :=
  ∀ (s : State) (v : Word), v.getLsbD 0 = true → v.getLsbD 31 = false →
    (s.phase ≠ .busy → ∃ t, hostAccess (ctrlWrite v) s = .next t ∧ Started s t) ∧
    (s.phase = .busy → hostAccess (ctrlWrite v) s = .next { s with resp := .written })

/-- 10_state.md R53, for a write that sets `ACK` and not `GO` (with both, R26 puts the GO after it). -/
def Obligations.AckReturnsToIdle : Prop :=
  ∀ (s : State) (v : Word), v.getLsbD 1 = true → v.getLsbD 0 = false → v.getLsbD 31 = false →
    (s.phase = .done ∨ s.phase = .fault → ∃ t, hostAccess (ctrlWrite v) s = .next t ∧
      Kept s t ∧ t.phase = .idle ∧ Cleared t ∧ OutUnspecified s.cfg t) ∧
    (s.phase = .idle ∨ s.phase = .busy →
      hostAccess (ctrlWrite v) s = .next { s with resp := .written })

/-- 10_state.md R54, 70_reset_and_hazards.md R380: the soft reset in any state, and the hardware
reset. -/
def Obligations.ResetsClear : Prop :=
  (∀ (s : State) (v : Word), v.getLsbD 31 = true → ∃ t, hostAccess (ctrlWrite v) s = .next t ∧
    t.cfg = s.cfg ∧ t.cmd = 0 ∧ t.ie = false ∧ t.inLen = 0 ∧ t.alphaLen = 0 ∧ t.keyLen = 0 ∧
    t.ivLen = 0 ∧ t.phase = .idle ∧ Cleared t ∧ OutUnspecified s.cfg t ∧
    ∀ a, ¬ InOut s.cfg a → t.mem.get a = s.mem.get a) ∧
  ∀ (s : State) (es : List Event), s.events = .hardReset :: es → ∃ t, step s = .next t ∧
    t.cfg = s.cfg ∧ t.cmd = 0 ∧ t.ie = false ∧ t.inLen = 0 ∧ t.alphaLen = 0 ∧ t.keyLen = 0 ∧
    t.ivLen = 0 ∧ t.phase = .idle ∧ Cleared t ∧ ∀ a, t.mem.get a = none

/-- 10_state.md R59, 70_reset_and_hazards.md R381, as the host sees it on the bus; the capacities are
those of the model's reset configuration (log 4). -/
def Obligations.ResetState : Prop :=
  (∀ a, State.reset.mem.get a = none) ∧ State.reset.phase = .idle ∧ State.reset.irq = false ∧
    ReadsAs State.reset 0x000 0x544B4345 ∧
    ReadsAs State.reset 0x004 (word State.reset.cfg.inMax) ∧
    ReadsAs State.reset 0x008 (word State.reset.cfg.outMax) ∧
    ∀ off : Offset, 0x00C ≤ off.toNat → off.toNat < 0x100 → off.toNat % 4 = 0 →
      ReadsAs State.reset off 0

/-- 10_state.md R26: only the strobe bits count; `SRST` alone acts if it is set; else `ACK` first, then
`GO`; reads return 0. -/
def Obligations.StrobeOrder : Prop :=
  ∀ (s : State) (v : Word),
    (v.getLsbD 31 = true →
      hostAccess (ctrlWrite v) s = hostAccess (ctrlWrite 0x80000000) s) ∧
    (v.getLsbD 31 = false → v.getLsbD 1 = true → v.getLsbD 0 = true → ∃ t,
      hostAccess (ctrlWrite 2) s = .next t ∧
        hostAccess (ctrlWrite v) s = hostAccess (ctrlWrite 1) t) ∧
    (v.getLsbD 31 = false → v.getLsbD 1 = true → v.getLsbD 0 = false →
      hostAccess (ctrlWrite v) s = hostAccess (ctrlWrite 2) s) ∧
    (v.getLsbD 31 = false → v.getLsbD 1 = false → v.getLsbD 0 = true →
      hostAccess (ctrlWrite v) s = hostAccess (ctrlWrite 1) s) ∧
    (v.getLsbD 31 = false → v.getLsbD 1 = false → v.getLsbD 0 = false →
      hostAccess (ctrlWrite v) s = .next { s with resp := .written }) ∧
    ReadsAs s 0x010 0

/-- 10_state.md R55: in BUSY every admitted write but a soft reset is dropped without an error; the
listed registers and the known bytes of the buffers read as they are; `x[4..7]` and OUT read as free
values (log 1). That a byte read is zero above its 8 bits is the model's choice (log 14). -/
def Obligations.BusyDropsWrites : Prop :=
  ∀ s : State, s.Inv → s.phase = .busy →
    (∀ (w : Width) (off : Offset) (v : Word), ¬ (off = 0x000010 ∧ v.getLsbD 31 = true) →
      hostAccess (.write w off v) s = .fault .busError ∨
        hostAccess (.write w off v) s = .next { s with resp := .written }) ∧
    ReadsAs s 0x000 0x544B4345 ∧ ReadsAs s 0x004 (word s.cfg.inMax) ∧
    ReadsAs s 0x008 (word s.cfg.outMax) ∧ ReadsAs s 0x00C s.cmd ∧ ReadsAs s 0x014 s.status ∧
    ReadsAs s 0x018 ((BitVec.ofBool s.ie).setWidth 32) ∧ ReadsAs s 0x020 s.inLen ∧
    ReadsAs s 0x024 s.alphaLen ∧ ReadsAs s 0x028 s.keyLen ∧ ReadsAs s 0x02C s.ivLen ∧
    (∀ r : Reg, r = .outLen ∨ r = .errInfo0 ∨ r = .errInfo1 ∨ r = .errInfo2 →
      ReadsAs s (BitVec.ofNat 22 r.offset) (Config.freeWord s.draws r.offset)) ∧
    (∀ (sp : Space) (off : Offset) (b : Byte), sp ≠ .output → InBuffer s.cfg sp off.toNat 1 →
      s.mem.get off.toNat = some b → ∃ t, hostAccess (.read .w8 off) s = .next t ∧
        t.resp = .data (b.setWidth 32) ∧ SameBut s t) ∧
    ∀ off : Offset, InBuffer s.cfg .output off.toNat 1 → ∃ t,
      hostAccess (.read .w8 off) s = .next t ∧
        t.resp = .data ((Config.freeByte s.draws off.toNat).setWidth 32) ∧ SameBut s t

/-- 20_memory.md R67, 10_state.md R47: no read changes anything; and the free values of two reads are
two draws (log 1). -/
def Obligations.ReadsHaveNoSideEffect : Prop :=
  ∀ (s t : State) (w : Width) (off : Offset), hostAccess (.read w off) s = .next t →
    t = { s with resp := t.resp, draws := s.draws + 1 } ∧
      (0x100 ≤ off.toNat → (∀ i < w.bytes, (s.mem.get (off.toNat + i)).isSome = true) →
        ∃ u, hostAccess (.read w off) t = .next u ∧ u.resp = t.resp)

/-- 10_state.md R23 and R29 in every state; outside BUSY, R21 (and R24, R25, R28, R31 to R36 as its access
column says): what the host reads in each location, and what a write does there. -/
def Obligations.RegisterPage : Prop :=
  ∀ (s : State) (v : Word),
    (ReadsAs s 0x000 0x544B4345 ∧ WritesTo s 0x000 v s) ∧
    (∀ off : Offset, off = 0x01C ∨ (0x040 ≤ off.toNat ∧ off.toNat < 0x100) → off.toNat % 4 = 0 →
      ReadsAs s off 0 ∧ WritesTo s off v s) ∧
    (s.phase ≠ .busy →
      (ReadsAs s 0x004 (word s.cfg.inMax) ∧ WritesTo s 0x004 v s) ∧
      (ReadsAs s 0x008 (word s.cfg.outMax) ∧ WritesTo s 0x008 v s) ∧
      (ReadsAs s 0x00C s.cmd ∧ WritesTo s 0x00C v { s with cmd := v }) ∧
      (ReadsAs s 0x010 0) ∧
      (ReadsAs s 0x014 s.status ∧ WritesTo s 0x014 v s) ∧
      (ReadsAs s 0x018 (if s.ie then 1 else 0) ∧ WritesTo s 0x018 v { s with ie := v.getLsbD 0 }) ∧
      (ReadsAs s 0x020 s.inLen ∧ WritesTo s 0x020 v { s with inLen := v }) ∧
      (ReadsAs s 0x024 s.alphaLen ∧ WritesTo s 0x024 v { s with alphaLen := v }) ∧
      (ReadsAs s 0x028 s.keyLen ∧ WritesTo s 0x028 v { s with keyLen := v }) ∧
      (ReadsAs s 0x02C s.ivLen ∧ WritesTo s 0x02C v { s with ivLen := v }) ∧
      (ReadsAs s 0x030 s.outLen ∧ WritesTo s 0x030 v s) ∧
      (ReadsAs s 0x034 s.errInfo0 ∧ WritesTo s 0x034 v s) ∧
      (ReadsAs s 0x038 s.errInfo1 ∧ WritesTo s 0x038 v s) ∧
      (ReadsAs s 0x03C s.errInfo2 ∧ WritesTo s 0x03C v s))

/-- 10_state.md R27: the fields of `STATUS`, in every state, and the invariant of `ERR`. -/
def Obligations.StatusWord : Prop :=
  ∀ s : State, ∃ v, ReadsAs s 0x014 v ∧
    v.extractLsb' 0 2 = (match s.phase with | .idle => 0 | .busy => 1 | .done => 2 | .fault => 3) ∧
    v.extractLsb' 2 6 = 0 ∧ v.extractLsb' 8 8 = s.err ∧ v.extractLsb' 16 16 = 0 ∧
    (s.Inv → (v.extractLsb' 8 8 ≠ 0#8 ↔ v.extractLsb' 0 2 = 3#2))

/-- 20_memory.md R61, R64, R65, R66: exactly the accesses the block does not admit get a bus error. The
model gives such an access no next state (log 12). -/
def Obligations.BusErrors : Prop :=
  ∀ (s : State) (a : Access) (w : Width) (off : Offset),
    (a = .read w off ∨ ∃ v, a = .write w off v) →
    (((off.toNat < 0x100 ∧ w = .w32 ∧ off.toNat % 4 = 0) ∨
        ∃ sp : Space, InBuffer s.cfg sp off.toNat w.bytes) →
      ∃ t, hostAccess a s = .next t) ∧
    (¬ ((off.toNat < 0x100 ∧ w = .w32 ∧ off.toNat % 4 = 0) ∨
        ∃ sp : Space, InBuffer s.cfg sp off.toNat w.bytes) →
      hostAccess a s = .fault .busError)

/-- 20_memory.md R62: a read carries byte `a + i` in bits `8i+7 : 8i`, and a write stores it there; the
value of a narrow read is zero above its width, which is the model's choice (log 14). -/
def Obligations.LittleEndianBus : Prop :=
  (∀ (s : State) (sp : Space) (w : Width) (off : Offset) (b : Nat → Byte),
    InBuffer s.cfg sp off.toNat w.bytes →
    (∀ i < w.bytes, s.mem.get (off.toNat + i) = some (b i)) →
    ∃ t v, hostAccess (.read w off) s = .next t ∧ t.resp = .data v ∧
      (∀ i < w.bytes, v.extractLsb' (8 * i) 8 = b i) ∧ v.toNat < 2 ^ (8 * w.bytes)) ∧
  ∀ (s : State) (sp : Space) (w : Width) (off : Offset) (v : Word), s.cfg.wf = true →
    InBuffer s.cfg sp off.toNat w.bytes → sp ≠ .output → s.phase ≠ .busy →
    ∃ t, hostAccess (.write w off v) s = .next t ∧
      ∀ i < w.bytes, t.mem.get (off.toNat + i) = some (v.extractLsb' (8 * i) 8)

/-- 20_memory.md R61, R67, 10_state.md R40: a write to a buffer changes its own bytes and nothing else;
a write to OUT changes nothing. -/
def Obligations.BufferWriteFrame : Prop :=
  ∀ (s : State) (sp : Space) (w : Width) (off : Offset) (v : Word), s.cfg.wf = true →
    InBuffer s.cfg sp off.toNat w.bytes → ∃ t, hostAccess (.write w off v) s = .next t ∧
      t = { s with mem := t.mem, resp := .written } ∧
      (∀ a, a < off.toNat ∨ off.toNat + w.bytes ≤ a → t.mem.get a = s.mem.get a) ∧
      (sp = .output → t.mem = s.mem)

/-- 10_state.md R56, 60_exceptions.md R364: the level, and the only ways it falls. -/
def Obligations.IrqLevel : Prop :=
  (∀ s : State, s.irq = true ↔ s.ie = true ∧ (s.phase = .done ∨ s.phase = .fault)) ∧
  ∀ s t : State, step s = .next t → s.irq = true → t.irq = false →
    ∃ es, s.events = .hardReset :: es ∨
      (∃ v, s.events = .access (ctrlWrite v) :: es ∧
        (v.getLsbD 0 = true ∨ v.getLsbD 1 = true ∨ v.getLsbD 31 = true)) ∨
      ∃ v, s.events = .access (.write .w32 0x000018 v) :: es ∧ v.getLsbD 0 = false

/-! ## The whole machine -/

/-- 10_state.md R50: the transitions are exactly these, and each of them happens. -/
def Obligations.PhaseTransitions : Prop :=
  (∀ s t : State, step s = .next t → t.phase ≠ s.phase →
    (s.phase ≠ .busy ∧ t.phase = .busy ∧ ∃ v es, s.events = .access (ctrlWrite v) :: es ∧
        v.getLsbD 0 = true ∧ v.getLsbD 31 = false) ∨
      (s.phase = .busy ∧ (t.phase = .done ∨ t.phase = .fault) ∧
        (s.events = [] ∨ ∃ es, s.events = .engineTurn :: es)) ∨
      ((s.phase = .done ∨ s.phase = .fault) ∧ t.phase = .idle ∧ ∃ v es,
        s.events = .access (ctrlWrite v) :: es ∧ v.getLsbD 1 = true ∧ v.getLsbD 31 = false) ∨
      (t.phase = .idle ∧ ((∃ v es, s.events = .access (ctrlWrite v) :: es ∧ v.getLsbD 31 = true) ∨
        ∃ es, s.events = .hardReset :: es))) ∧
  ∀ s : State,
    (s.phase ≠ .busy → ∀ v es, s.events = .access (ctrlWrite v) :: es → v.getLsbD 0 = true →
      v.getLsbD 31 = false → ∃ t, step s = .next t ∧ t.phase = .busy) ∧
    (s.phase = .busy → (s.events = [] ∨ ∃ es, s.events = .engineTurn :: es) →
      ∃ t, step s = .next t ∧ (t.phase = .done ∨ t.phase = .fault)) ∧
    (s.phase ≠ .busy → ∀ v es, s.events = .access (ctrlWrite v) :: es → v.getLsbD 1 = true →
      v.getLsbD 0 = false → v.getLsbD 31 = false → ∃ t, step s = .next t ∧ t.phase = .idle) ∧
    (∀ v es, s.events = .access (ctrlWrite v) :: es → v.getLsbD 31 = true →
      ∃ t, step s = .next t ∧ t.phase = .idle) ∧
    ∀ es, s.events = .hardReset :: es → ∃ t, step s = .next t ∧ t.phase = .idle

/-- The invariant of an instance is kept by every step (10_state.md R27, R35, R36, R42,
60_exceptions.md R341; the canonical form of the memory is the model's, log 2). -/
def Obligations.StepKeepsInvariant : Prop :=
  ∀ s t : State, s.Inv → step s = .next t → t.Inv

/-- The invariant holds after hardware reset. -/
def Obligations.ResetHasInvariant : Prop := State.reset.Inv

/-- 10_state.md R24. -/
def Obligations.CapacitiesConstant : Prop :=
  (∀ s : State, s.cfg.wf = true → ∃ v w, ReadsAs s 0x004 v ∧ v.toNat = s.cfg.inMax ∧
    ReadsAs s 0x008 w ∧ w.toNat = s.cfg.outMax) ∧
  ∀ s t : State, step s = .next t → t.cfg = s.cfg

/-- 00_scope.md R6: two states that hold the same command word, the same four lengths, the same
configuration and the same written operand bytes give the same result, whatever else they hold and
whatever ran before. -/
def Obligations.CommandIsStateless : Prop :=
  ∀ s s' : State, s.phase = .busy → s'.phase = .busy → s'.cfg = s.cfg → s'.cmd = s.cmd →
    s'.inLen = s.inLen → s'.alphaLen = s.alphaLen → s'.keyLen = s.keyLen → s'.ivLen = s.ivLen →
    Agree s s' .input s.inLen.toNat →
    (∀ d b, decode s.cmd = .ok (Instr.ofBx d b true) → Agree s s' .alpha s.alphaLen.toNat) →
    (∀ d m o, decode s.cmd = .ok (Instr.ofSm4 d m o) → Agree s s' .key s.keyLen.toNat ∧
      (m ≠ .ecb → o.ivp = true → Agree s s' .iv s.ivLen.toNat)) →
    ∃ t t', engineTurn s = .next t ∧ engineTurn s' = .next t' ∧ t'.phase = t.phase ∧
      t'.err = t.err ∧ t'.outLen = t.outLen ∧ t'.payload = t.payload ∧
      (t.phase = .fault → t'.errInfo0 = t.errInfo0 ∧ t'.errInfo1 = t.errInfo1 ∧
        t'.errInfo2 = t.errInfo2)

/-- 60_exceptions.md R372: every instance starts in IDLE, a step of one touches no other, and two steps
of different instances commute. -/
def Obligations.InstancesAreIndependent : Prop :=
  (∀ (n k : Nat) (s : State), (Platform.reset n)[k]? = some s → s.phase = .idle) ∧
  (∀ (p q : Platform) (i j : Nat), Platform.step p i = .next q → i ≠ j → q[j]? = p[j]?) ∧
  ∀ (p q r : Platform) (i j : Nat), i ≠ j → Platform.step p i = .next q →
    Platform.step p j = .next r → ∃ u, Platform.step q j = .next u ∧ Platform.step r i = .next u

/-- 30_encoding.md R107: `ld BUF, bytes`, run as bus writes, stores the bytes and the length and nothing
else. -/
def Obligations.LoadStoresOperand : Prop :=
  ∀ (s : State) (sp : Space) (B : Bytes) (es : List Event), s.cfg.wf = true → s.phase ≠ .busy →
    sp ≠ .output → B.length ≤ sp.size s.cfg → s.events = ld sp B ++ es →
    ∃ t : State, Sys2Proof.core.run (B.length + 1) s = .next t ∧
      t = { s with
        mem := t.mem, events := es, resp := .written, inLen := t.inLen, alphaLen := t.alphaLen,
        keyLen := t.keyLen, ivLen := t.ivLen } ∧
      lenOf t sp = word B.length ∧ (∀ q, q ≠ sp → lenOf t q = lenOf s q) ∧
      (∀ i (h : i < B.length), t.mem.get (sp.offset + i) = some B[i]) ∧
      ∀ a, a < sp.offset ∨ sp.offset + B.length ≤ a → t.mem.get a = s.mem.get a

/-- 30_encoding.md R109: `basexEncode` with the default alphabet, run as bus accesses and one engine
turn (the list of pending events is the model's, log 9; the one turn and the one STATUS read that stand
for `wait` too, log 18), from any state of the invariant in which the block is not BUSY, ends in DONE with
the encoded text as the payload. -/
def Obligations.BasexEncodeRuns : Prop :=
  ∀ (s : State) (b : Base) (D : Bytes) (es : List Event), s.Inv → s.phase ≠ .busy →
    s.events = basex .enc D b none ++ es → D.length ≤ s.cfg.inMax →
    (s.cfg.unitEncode b false (s.cfg.defaultAlphabet b) D).length ≤ s.cfg.outMax →
    ∃ n, ∃ t : State, Sys2Proof.core.run n s = .next t ∧ t.events = es ∧ t.phase = .done ∧
      t.resp = .data 2 ∧ t.payload = s.cfg.unitEncode b false (s.cfg.defaultAlphabet b) D

/-! ## The laws of the codecs -/

/-- 41_fixed_width_codec.md R152: the symbols stand for the bits of the bytes, most significant first,
then zero bits; the padding fills the last block. -/
def Obligations.FixedWidthPacking : Prop :=
  ∀ g ∈ geometries, ∀ (A : Bytes) (pad : Bool) (D : Bytes), ∃ (ds : List Nat) (k : Nat),
    fwEncode g A pad D = ds.map (symOf A) ++ List.replicate k padChar ∧
    8 * D.length ≤ ds.length * g.w ∧ ds.length * g.w < 8 * D.length + g.w ∧
    (∀ i < ds.length, ds.getD i 0 < 2 ^ g.w ∧
      ∀ j < g.w, (ds.getD i 0).testBit (g.w - 1 - j) = msbBit D (i * g.w + j)) ∧
    (pad = false → k = 0) ∧
    (pad = true → k < g.symbols ∧ (ds.length + k) % g.symbols = 0)

/-- 41_fixed_width_codec.md R153. -/
def Obligations.FixedWidthLengths : Prop :=
  (∀ A D : Bytes,
    (fwEncode geo16 A false D).length = 2 * D.length ∧
    (fwEncode geo32 A false D).length = (8 * D.length + 4) / 5 ∧
    (fwEncode geo64 A false D).length = (4 * D.length + 2) / 3 ∧
    (fwEncode geo32 A true D).length = 8 * ((D.length + 4) / 5) ∧
    (fwEncode geo64 A true D).length = 4 * ((D.length + 2) / 3) ∧
    fwEncode geo32 A true D =
      fwEncode geo32 A false D ++ List.replicate ([0, 6, 4, 3, 1].getD (D.length % 5) 0) 0x3D ∧
    fwEncode geo64 A true D =
      fwEncode geo64 A false D ++ List.replicate ([0, 2, 1].getD (D.length % 3) 0) 0x3D) ∧
  ∀ g ∈ geometries, ∀ (c : Config) (A : Bytes) (pad : Bool) (D : Bytes), c.wsWf = true →
    ValidFor g A → (∀ x ∈ A, x ∉ c.ws) → ∀ x ∈ fwEncode g A pad D, x ∉ c.ws

/-- 41_fixed_width_codec.md R156: the round trip, the canonical form, and the texts that `fold` adds. -/
def Obligations.FixedWidthRoundTrip : Prop :=
  (∀ g ∈ geometries, ∀ (A : Bytes) (pad fold : Bool) (D : Bytes), ValidFor g A →
    (pad = true → padChar ∉ A) → (fold = true → A = a16) →
      fwDecode g A pad fold (fwEncode g A pad D) = .ok D) ∧
  (∀ g ∈ geometries, ∀ (A : Bytes) (pad : Bool) (T D : Bytes), ValidFor g A →
    (pad = true → padChar ∉ A) → fwDecode g A pad false T = .ok D → T = fwEncode g A pad D) ∧
  ∀ T D : Bytes, fwDecode geo16 a16 false true T = .ok D ↔ foldHex T = fwEncode geo16 a16 false D

/-- 42_bigint_codec.md R191, R192, R195: leading zero bytes one for one, then the base-`R` digits of the
big-endian number, most significant first and without a leading zero, as few as there can be; and the
round trip, both ways. -/
def Obligations.BigIntConversion : Prop :=
  (∀ A D : Bytes, 2 ≤ A.length → ∃ (z : Nat) (ds : List Nat),
    biEncode A D = List.replicate z (symOf A 0) ++ ds.map (symOf A) ∧
    (∃ E, D = List.replicate z 0x00 ++ E ∧ E.head? ≠ some 0x00) ∧
    (∀ d ∈ ds, d < A.length) ∧ ds.head? ≠ some 0 ∧
    ds.foldl (fun acc d => acc * A.length + d) 0 = beNat D ∧
    beNat D < A.length ^ ds.length ∧ ∀ L, beNat D < A.length ^ L → ds.length ≤ L) ∧
  ∀ A : Bytes, 2 ≤ A.length → A.Nodup →
    (∀ D, biDecode A (biEncode A D) = .ok D) ∧
    ∀ T, (∀ c ∈ T, c ∈ A) → ∃ D, biDecode A T = .ok D ∧ biEncode A D = T

/-- 40_basex_front_end.md R132. -/
def Obligations.Utf8Wellformed : Prop :=
  ∀ B : Bytes, utf8Valid B = true ↔ ∃ parts : List Bytes, B = parts.flatten ∧
    ∀ p ∈ parts, Utf8Seq p

/-- 45_cipher_mode_controller.md R260, R261, R264, R265. -/
def Obligations.PaddingLaws : Prop :=
  (∀ D : Bytes, ∃ p, 1 ≤ p ∧ p ≤ 16 ∧ (D.length + p) % 16 = 0 ∧
    padPkcs7 D = D ++ List.replicate p (BitVec.ofNat 8 p)) ∧
  (∀ D : Bytes, ∃ z, z < 16 ∧ (D.length + z) % 16 = 0 ∧ padZero D = D ++ List.replicate z 0x00) ∧
  (∀ P D : Bytes, unpadPkcs7 P = some D ↔ P.length % 16 = 0 ∧ ∃ p, 1 ≤ p ∧ p ≤ 16 ∧
    P = D ++ List.replicate p (BitVec.ofNat 8 p)) ∧
  ∀ P : Bytes, ∃ j, j ≤ P.length ∧ unpadZero P = P.take j ∧ (∀ x ∈ P.drop j, x = 0x00) ∧
    ∀ j', (∀ x ∈ P.drop j', x = 0x00) → j ≤ j'

/-- 45_cipher_mode_controller.md R271 to R276: the equations of the five modes, block by block, and the
counter. -/
def Obligations.ModeEquations : Prop :=
  (∀ (E D : Block → Block) (w : Nat) (V : Block) (P : Bytes) (i : Nat),
    P.length % 16 = 0 → i < P.length / 16 →
    blk (modeEnc E w .ecb V P) i = E (blk P i) ∧
    blk (modeDec E D w .ecb V P) i = D (blk P i) ∧
    blk (modeEnc E w .cbc V P) i = E (blk P i ^^^ prevBlk V (modeEnc E w .cbc V P) i) ∧
    blk (modeDec E D w .cbc V P) i = D (blk P i) ^^^ prevBlk V P i ∧
    blk (modeEnc E w .cfb V P) i = blk P i ^^^ E (prevBlk V (modeEnc E w .cfb V P) i) ∧
    blk (modeDec E D w .cfb V P) i = blk P i ^^^ E (prevBlk V P i) ∧
    blk (modeEnc E w .ofb V P) i = blk P i ^^^ E^[i + 1] V ∧
    blk (modeDec E D w .ofb V P) i = blk P i ^^^ E^[i + 1] V ∧
    blk (modeEnc E w .ctr V P) i = blk P i ^^^ E ((ctrIncr w)^[i] V) ∧
    blk (modeDec E D w .ctr V P) i = blk P i ^^^ E ((ctrIncr w)^[i] V)) ∧
  ∀ (w : Nat) (T : Block), 1 ≤ w → w ≤ 128 →
    (ctrIncr w T).toNat % 2 ^ w = (T.toNat % 2 ^ w + 1) % 2 ^ w ∧
      (ctrIncr w T).toNat / 2 ^ w = T.toNat / 2 ^ w

/-- 45_cipher_mode_controller.md R277: CFB, OFB and CTR decrypt take a text of any length, byte by byte
against the keystream. -/
def Obligations.StreamingModesTakeAnyLength : Prop :=
  ∀ (E D : Block → Block) (w : Nat) (m : Mode) (V : Block) (C : Bytes),
    m = .cfb ∨ m = .ofb ∨ m = .ctr →
    (modeDec E D w m V C).length = C.length ∧
    ∀ k < C.length, (modeDec E D w m V C).getD k 0 =
      C.getD k 0 ^^^ (blockBytes (keyBlock E w V C m (k / 16))).getD (k % 16) 0

/-- 45_cipher_mode_controller.md R279: the laws of the Mode Layer. -/
def Obligations.ModeLaws : Prop :=
  (∀ (E : Block → Block) (w : Nat) (m : Mode) (V : Block) (P : Bytes), P.length % 16 = 0 →
    (modeEnc E w m V P).length = P.length) ∧
  (∀ (E D : Block → Block) (w : Nat) (m : Mode) (V : Block) (P : Bytes), P.length % 16 = 0 →
    (∀ X, D (E X) = X) → modeDec E D w m V (modeEnc E w m V P) = P) ∧
  (∀ (E D : Block → Block) (w : Nat) (m : Mode) (V : Block) (P : Bytes), m = .ofb ∨ m = .ctr →
    modeDec E D w m V P = modeEnc E w m V P) ∧
  ∀ (E D D' : Block → Block) (w : Nat) (m : Mode) (V : Block) (P : Bytes),
    m = .cfb ∨ m = .ofb ∨ m = .ctr → modeDec E D w m V P = modeDec E D' w m V P

/-- 46_block_core_sm4.md R321, R328: the core of every instance, the default one among them, has the named
properties; and the default core gives the four known answers, written out. Of another core the
properties are all that is known (log 7). -/
def Obligations.DefaultCoreProperties : Prop :=
  (∀ c : Config, c.CoreInv ∧ c.CorePerm ∧ c.CoreKat) ∧
  sm4Enc 0x31323334353637383930313233343536 0x30313233343536373839616263646566 =
    0xba611296fd1f3f27299eff1c29b18d63 ∧
  sm4Enc 0x31323334353637383930313233343536 0x66656463626139383736353433323130 =
    0xde48b88f34351e6d653b381ce1355ca6 ∧
  sm4Enc 0x31323334353637383930313233343536 0x10101010101010101010101010101010 =
    0x6c88f739af2a29a735381f5677badef7 ∧
  sm4Enc 0x31323334353637383930313233343536 0x31323334353637383930313233343536 =
    0xb083dcc0a9f64bd9fae2fa8c936e3d77

/-- 43_static_table_codec.md R224, for the defaults of R226 to R230 and for any other transforms (log 6): the
named properties of the static-table transforms. `P_total` and `P_err` hold by their types. And
40_basex_front_end.md R120: every encoder and every decoder, of all seven bases, maps empty to empty. -/
def Obligations.DefaultStaticTableProperties : Prop :=
  (∀ c : Config, (c.wsWf = true → c.Rt85) ∧ c.Rt91 ∧ c.EmptyStatic) ∧
  ∀ (c : Config) (b : Base) (ap : Bool) (A : Bytes),
    c.unitEncode b ap A [] = [] ∧ c.unitDecode b ap A (c.textOf b []) = .ok []

/-- 40_basex_front_end.md R137: the text that an encode of well-formed UTF-8 delivers, given back as the
input of the decode of the same base, is decoded to the bytes that were encoded. -/
def Obligations.RadixRoundTrip : Prop :=
  ∀ (b : Base) (s t s' : State), s.cfg.wf = true →
    utf8Valid (input s) = true → exec (Instr.ofBx .enc b false) s = .next t → t.phase = .done →
    s'.cfg = s.cfg → s'.inLen = t.outLen → input s' = t.payload → InputFits s' →
    (input s).length ≤ s.cfg.outMax → Completes (Instr.ofBx .dec b false) s' (input s)

/-- 45_cipher_mode_controller.md R284: the text that an encrypt of well-formed UTF-8 delivers, given back
as the input of the decrypt with the same fields, key and IV, is decrypted to the plaintext; under Zero
padding to the plaintext without its trailing zero bytes. -/
def Obligations.CipherRoundTrip : Prop :=
  ∀ (m : Mode) (o : CipherOpts) (s t s' : State), s.cfg.wf = true →
    utf8Valid (input s) = true → exec (Instr.ofSm4 .enc m o) s = .next t → t.phase = .done →
    s'.cfg = s.cfg → s'.keyLen = s.keyLen → s'.ivLen = s.ivLen →
    s'.fetch .key s.keyLen.toNat = s.fetch .key s.keyLen.toNat →
    s'.fetch .iv s.ivLen.toNat = s.fetch .iv s.ivLen.toNat →
    s'.inLen = t.outLen → input s' = t.payload → InputFits s' →
    (input s).length ≤ s.cfg.outMax →
    Completes (Instr.ofSm4 .dec m o) s' (recovered o.pad (input s))

/-! ## The callable operations -/

/-- 30_encoding.md R109: each of the four operations, called on a block that is not BUSY with operands that
fit their buffers, gives the payload or the error of its command on those operands. How a call is run is
the model's (log 9, 18). -/
def Obligations.OperationsDeliver : Prop :=
  ∀ s : State, s.cfg.wf = true → s.phase ≠ .busy →
    (∀ (D : Bytes) (b : Base) (al : Option Bytes), D.length ≤ s.cfg.inMax →
      (∀ A ∈ al, A.length ≤ 256) →
      Delivers (basexEncode D b al) (bxExec .enc b al.isSome) (HoldsText D al) s ∧
        Delivers (basexDecode D b al) (bxExec .dec b al.isSome) (HoldsText D al) s) ∧
    ∀ (m : Mode) (pad : Pad) (fmt : Fmt) (D K : Bytes) (kt : StrType)
      (iv : Option (Bytes × Option StrType)), D.length ≤ s.cfg.inMax → K.length ≤ 64 →
      (∀ V ∈ iv, V.1.length ≤ 64) →
      Delivers (sm4Encrypt m pad fmt D K kt iv) (sm4Exec .enc m (callOpts pad fmt kt iv))
          (HoldsCipher D K iv) s ∧
        Delivers (sm4Decrypt m pad fmt D K kt iv) (sm4Exec .dec m (callOpts pad fmt kt iv))
          (HoldsCipher D K iv) s
end

