-- ==== Sys2Proof/Laws/BlockCore.lean ====
section
/-! SUPPORT. What laying known answers on a permutation does (spec/46_block_core_sm4.md R321 `P_kat`): the
result gives them, and a permutation that gives them already is left as it is. -/

namespace Sys2Proof

@[simp] theorem withAnswers_nil (p : Equiv.Perm Block) : withAnswers p [] = p := rfl

theorem withAnswers_cons (p : Equiv.Perm Block) (x c : Block) (kv : List (Block × Block)) :
    withAnswers p ((x, c) :: kv) = withAnswers (Equiv.swap (p x) c * p) kv := rfl

/-- A later pair of another block and another answer leaves an answer alone. -/
theorem withAnswers_keeps (kv : List (Block × Block)) :
    ∀ (p : Equiv.Perm Block) (x : Block), (∀ q ∈ kv, x ≠ q.1 ∧ p x ≠ q.2) →
      withAnswers p kv x = p x := by
  induction kv with
  | nil => intro p x _; rfl
  | cons q kv ih =>
    obtain ⟨y, d⟩ := q
    intro p x h
    have hy := h (y, d) (by simp)
    have hp : (Equiv.swap (p y) d * p) x = p x := by
      rw [Equiv.Perm.mul_apply]
      exact Equiv.swap_apply_of_ne_of_ne (fun e => hy.1 (p.injective e)) hy.2
    rw [withAnswers_cons, ih _ x fun q hq => ?_, hp]
    rw [hp]
    exact h q (by simp [hq])

/-- The result gives every answer, if the blocks are distinct and the answers are. -/
theorem withAnswers_apply {kv : List (Block × Block)}
    (h : kv.Pairwise fun q r => q.1 ≠ r.1 ∧ q.2 ≠ r.2) :
    ∀ (p : Equiv.Perm Block), ∀ q ∈ kv, withAnswers p kv q.1 = q.2 := by
  induction kv with
  | nil => simp
  | cons r kv ih =>
    obtain ⟨x, c⟩ := r
    rw [List.pairwise_cons] at h
    intro p q hq
    rw [withAnswers_cons]
    rcases List.mem_cons.1 hq with rfl | hq
    · have hx : (Equiv.swap (p x) c * p) x = c := by simp
      refine (withAnswers_keeps kv _ x fun q hq => ⟨(h.1 q hq).1, ?_⟩).trans hx
      rw [hx]
      exact (h.1 q hq).2
    · exact ih h.2 _ q hq

/-- A permutation that gives the answers already is left as it is: no core that R321 admits is lost. -/
theorem withAnswers_of_answers (p : Equiv.Perm Block) :
    ∀ {kv : List (Block × Block)}, (∀ q ∈ kv, p q.1 = q.2) → withAnswers p kv = p := by
  intro kv
  induction kv with
  | nil => intro _; rfl
  | cons q kv ih =>
    obtain ⟨x, c⟩ := q
    intro h
    have hx : p x = c := h (x, c) (by simp)
    rw [withAnswers_cons, hx, Equiv.swap_self]
    exact ih fun q hq => h q (by simp [hq])

/-- The four pairs of `P_kat` are distinct in both places. -/
theorem knownAnswers_pairwise :
    knownAnswers.Pairwise fun q r => q.1 ≠ r.1 ∧ q.2 ≠ r.2 := by decide

end Sys2Proof
end

