-- ==== Sys2Proof/Laws/Memory.lean ====
section
/-! SUPPORT. The laws of the memory operations: read after write, what is left alone, and that every
operation keeps the canonical form. None but `Memory.ext_of_get` needs the canonical form. -/

namespace Sys2Proof.Machine

@[simp] theorem Memory.get_nil (a : Nat) : Memory.get [] a = none := rfl

theorem Memory.get_set (m : Memory) (a : Nat) (b : Byte) (x : Nat) :
    (m.set a b).get x = if x = a then some b else m.get x := by
  induction m with
  | nil => simp [Memory.set, Memory.get, eq_comm]
  | cons p m ih =>
    obtain ⟨k, c⟩ := p
    simp only [Memory.set]
    split
    · simp only [Memory.get]; grind
    · split
      · simp only [Memory.get]; grind
      · simp only [Memory.get, ih]; grind

@[simp] theorem Memory.get_set_same (m : Memory) (a : Nat) (b : Byte) :
    (m.set a b).get a = some b := by simp [Memory.get_set]

theorem Memory.get_set_ne (m : Memory) {a x : Nat} (b : Byte) (h : x ≠ a) :
    (m.set a b).get x = m.get x := by simp [Memory.get_set, h]

theorem Memory.get_setBytes (B : Bytes) : ∀ (m : Memory) (a x : Nat),
    (m.setBytes a B).get x = if a ≤ x ∧ x < a + B.length then B[x - a]? else m.get x := by
  induction B with
  | nil => intro m a x; simp [Memory.setBytes]
  | cons b B ih =>
    intro m a x
    simp only [Memory.setBytes, ih, Memory.get_set, List.length_cons]
    by_cases h1 : a + 1 ≤ x ∧ x < a + 1 + B.length
    · rw [if_pos h1, if_pos (by omega)]
      obtain ⟨k, rfl⟩ : ∃ k, x = a + 1 + k := ⟨x - (a + 1), by omega⟩
      rw [show a + 1 + k - (a + 1) = k by omega, show a + 1 + k - a = k + 1 by omega,
        List.getElem?_cons_succ]
    · rw [if_neg h1]
      by_cases h2 : x = a
      · subst h2; simp
      · rw [if_neg h2, if_neg (by omega)]

/-- A byte of a stored sequence reads as it was stored. -/
theorem Memory.get_setBytes_in (m : Memory) (a i : Nat) (B : Bytes) (h : i < B.length) :
    (m.setBytes a B).get (a + i) = some B[i] := by
  rw [Memory.get_setBytes, if_pos (by omega)]
  simp [h]

/-- A byte outside a stored sequence reads as before. -/
theorem Memory.get_setBytes_out (m : Memory) (a x : Nat) (B : Bytes)
    (h : x < a ∨ a + B.length ≤ x) : (m.setBytes a B).get x = m.get x := by
  rw [Memory.get_setBytes, if_neg (by omega)]

theorem Memory.get_forget (m : Memory) (a n x : Nat) :
    (m.forget a n).get x = if a ≤ x ∧ x < a + n then none else m.get x := by
  induction m with
  | nil => simp [Memory.forget]
  | cons p m ih =>
    obtain ⟨k, c⟩ := p
    simp only [Memory.forget] at ih
    by_cases hk : k < a ∨ a + n ≤ k
    · have : (decide (k < a) || decide (a + n ≤ k)) = true := by simpa using hk
      simp only [Memory.forget, List.filter_cons, this, if_true, Memory.get, ih]
      by_cases hkx : k = x
      · subst hkx; simp; omega
      · simp [hkx]
    · have : (decide (k < a) || decide (a + n ≤ k)) = false := by
        simp; omega
      simp only [Memory.forget, List.filter_cons, this, Memory.get]
      rw [if_neg (by simp), ih]
      by_cases hx : a ≤ x ∧ x < a + n
      · simp [hx]
      · rw [if_neg hx, if_neg hx, if_neg (by omega)]

theorem Memory.get_forget_in (m : Memory) {a n x : Nat} (h : a ≤ x ∧ x < a + n) :
    (m.forget a n).get x = none := by rw [Memory.get_forget, if_pos h]

theorem Memory.get_forget_out (m : Memory) {a n x : Nat} (h : x < a ∨ a + n ≤ x) :
    (m.forget a n).get x = m.get x := by rw [Memory.get_forget, if_neg (by omega)]

/-! ## The entries after an operation -/

theorem Memory.mem_set {m : Memory} {a : Nat} {b : Byte} {p : Host.Cell} (h : p ∈ m.set a b) :
    p = (a, b) ∨ p ∈ m := by
  induction m with
  | nil => simpa [Memory.set] using h
  | cons q m ih =>
    obtain ⟨k, c⟩ := q
    simp only [Memory.set] at h
    split at h
    · simpa using h
    · split at h <;> simp at h ⊢
      · rcases h with h | h <;> simp [h]
      · rcases h with h | h
        · simp [h]
        · rcases ih h with h | h <;> simp [h]

theorem Memory.mem_setBytes {B : Bytes} : ∀ {m : Memory} {a : Nat} {p : Host.Cell},
    p ∈ m.setBytes a B → (a ≤ p.1 ∧ p.1 < a + B.length) ∨ p ∈ m := by
  induction B with
  | nil => intro m a p h; exact .inr h
  | cons b B ih =>
    intro m a p h
    simp only [Memory.setBytes] at h
    rcases ih h with h | h
    · left; simp; omega
    · rcases Memory.mem_set h with h | h
      · left; simp [h]
      · exact .inr h

theorem Memory.mem_forget {m : Memory} {a n : Nat} {p : Host.Cell} (h : p ∈ m.forget a n) :
    p ∈ m ∧ (p.1 < a ∨ a + n ≤ p.1) := by
  simpa [Memory.forget, List.mem_filter] using h

/-! ## The canonical form -/

@[simp] theorem Memory.wf_nil : Memory.wf [] := List.Pairwise.nil

theorem Memory.wf_set {m : Memory} (h : m.wf) (a : Nat) (b : Byte) : (m.set a b).wf := by
  induction m with
  | nil => simp [Memory.set, Memory.wf]
  | cons p m ih =>
    obtain ⟨k, c⟩ := p
    obtain ⟨hk, hm⟩ := List.pairwise_cons.1 h
    simp only [Memory.set]
    split
    · rename_i hak
      refine List.pairwise_cons.2 ⟨fun q hq => ?_, h⟩
      rcases List.mem_cons.1 hq with rfl | hq
      · exact hak
      · exact Nat.lt_trans hak (hk q hq)
    · split
      · rename_i hak
        subst hak
        exact List.pairwise_cons.2 ⟨hk, hm⟩
      · refine List.pairwise_cons.2 ⟨fun q hq => ?_, ih hm⟩
        rcases Memory.mem_set hq with rfl | hq
        · simp; omega
        · exact hk q hq

theorem Memory.wf_setBytes (B : Bytes) : ∀ {m : Memory}, m.wf → ∀ a, (m.setBytes a B).wf := by
  induction B with
  | nil => intro m h a; exact h
  | cons b B ih => intro m h a; exact ih (Memory.wf_set h a b) (a + 1)

theorem Memory.wf_forget {m : Memory} (h : m.wf) (a n : Nat) : (m.forget a n).wf :=
  List.Pairwise.filter _ h

theorem Memory.get_of_lt {m : Memory} {a : Nat} (h : ∀ p ∈ m, a < p.1) : m.get a = none := by
  induction m with
  | nil => rfl
  | cons p m ih =>
    obtain ⟨k, c⟩ := p
    have : a < k := h (k, c) (by simp)
    rw [Memory.get, if_neg (by omega)]
    exact ih fun q hq => h q (by simp [hq])

/-- Two memories in canonical form that read alike are equal. -/
theorem Memory.ext_of_get : ∀ {m n : Memory}, m.wf → n.wf → (∀ a, m.get a = n.get a) → m = n
  | [], [], _, _, _ => rfl
  | [], (k, c) :: n, _, _, h => by simpa [Memory.get] using h k
  | (k, c) :: m, [], _, _, h => by simpa [Memory.get] using h k
  | (k, c) :: m, (l, d) :: n, hm, hn, h => by
    obtain ⟨hk, hm'⟩ := List.pairwise_cons.1 hm
    obtain ⟨hl, hn'⟩ := List.pairwise_cons.1 hn
    have hkl : k = l := by
      rcases Nat.lt_trichotomy k l with hlt | heq | hgt
      · have h1 := h k
        rw [Memory.get, if_pos rfl, Memory.get, if_neg (by omega),
          Memory.get_of_lt fun q hq => Nat.lt_trans hlt (hl q hq)] at h1
        simp at h1
      · exact heq
      · have h1 := h l
        rw [Memory.get, if_neg (by omega), Memory.get, if_pos rfl,
          Memory.get_of_lt fun q hq => Nat.lt_trans hgt (hk q hq)] at h1
        simp at h1
    subst hkl
    have hcd : c = d := by simpa [Memory.get] using h k
    subst hcd
    congr 1
    refine Memory.ext_of_get hm' hn' fun a => ?_
    by_cases ha : k = a
    · subst ha
      rw [Memory.get_of_lt hk, Memory.get_of_lt hl]
    · simpa [Memory.get, ha] using h a

/-! ## Byte sequences of the window -/

@[simp] theorem State.length_bytesAt (s : State) (a n : Nat) : (s.bytesAt a n).length = n := by
  simp [State.bytesAt]

@[simp] theorem State.length_fetch (s : State) (sp : Space) (n : Nat) :
    (s.fetch sp n).length = n := by simp [State.fetch]

theorem State.getElem_bytesAt (s : State) (a n i : Nat) (h : i < (s.bytesAt a n).length) :
    (s.bytesAt a n)[i] = s.byteAt (a + i) := by simp [State.bytesAt]

theorem State.getElem_fetch (s : State) (sp : Space) (n i : Nat) (h : i < (s.fetch sp n).length) :
    (s.fetch sp n)[i] = s.byteAt (sp.offset + i) := by simp [State.fetch, State.bytesAt]

theorem State.byteAt_of_some {s : State} {a : Nat} {b : Byte} (h : s.mem.get a = some b) :
    s.byteAt a = b := by simp [State.byteAt, h]

/-- Bytes that are known read the same in every state whose memory gives them. -/
theorem State.bytesAt_congr {s t : State} {a n : Nat}
    (h : ∀ i < n, s.byteAt (a + i) = t.byteAt (a + i)) : s.bytesAt a n = t.bytesAt a n := by
  simp only [State.bytesAt]
  exact List.map_congr_left fun i hi => h i (List.mem_range.1 hi)

theorem State.bytesAt_eq_of_get {s : State} {a : Nat} {B : Bytes}
    (h : ∀ i (hi : i < B.length), s.mem.get (a + i) = some B[i]) : s.bytesAt a B.length = B := by
  refine List.ext_getElem (by simp) fun i h1 h2 => ?_
  rw [State.getElem_bytesAt]
  exact State.byteAt_of_some (h i h2)

end Sys2Proof.Machine
end

