-- ==== Sys2Proof/Laws/State.lean ====
section
/-! SUPPORT. One lemma per field per update of the state, so that no later proof unfolds a record
update. -/

namespace Sys2Proof.Machine

/-! ## `State.forgetOut` -/

@[simp] theorem State.forgetOut_cfg (s : State) : s.forgetOut.cfg = s.cfg :=
  rfl

@[simp] theorem State.forgetOut_cmd (s : State) : s.forgetOut.cmd = s.cmd :=
  rfl

@[simp] theorem State.forgetOut_phase (s : State) : s.forgetOut.phase = s.phase :=
  rfl

@[simp] theorem State.forgetOut_err (s : State) : s.forgetOut.err = s.err :=
  rfl

@[simp] theorem State.forgetOut_ie (s : State) : s.forgetOut.ie = s.ie :=
  rfl

@[simp] theorem State.forgetOut_inLen (s : State) : s.forgetOut.inLen = s.inLen :=
  rfl

@[simp] theorem State.forgetOut_alphaLen (s : State) : s.forgetOut.alphaLen = s.alphaLen :=
  rfl

@[simp] theorem State.forgetOut_keyLen (s : State) : s.forgetOut.keyLen = s.keyLen :=
  rfl

@[simp] theorem State.forgetOut_ivLen (s : State) : s.forgetOut.ivLen = s.ivLen :=
  rfl

@[simp] theorem State.forgetOut_outLen (s : State) : s.forgetOut.outLen = s.outLen :=
  rfl

@[simp] theorem State.forgetOut_errInfo0 (s : State) : s.forgetOut.errInfo0 = s.errInfo0 :=
  rfl

@[simp] theorem State.forgetOut_errInfo1 (s : State) : s.forgetOut.errInfo1 = s.errInfo1 :=
  rfl

@[simp] theorem State.forgetOut_errInfo2 (s : State) : s.forgetOut.errInfo2 = s.errInfo2 :=
  rfl

@[simp] theorem State.forgetOut_mem (s : State) : s.forgetOut.mem = s.mem.forget Space.output.offset (Space.output.size s.cfg) :=
  rfl

@[simp] theorem State.forgetOut_events (s : State) : s.forgetOut.events = s.events :=
  rfl

@[simp] theorem State.forgetOut_resp (s : State) : s.forgetOut.resp = s.resp :=
  rfl

@[simp] theorem State.forgetOut_draws (s : State) : s.forgetOut.draws = s.draws :=
  rfl

/-! ## `State.drawn` -/

@[simp] theorem State.drawn_cfg (s : State) : s.drawn.cfg = s.cfg :=
  rfl

@[simp] theorem State.drawn_cmd (s : State) : s.drawn.cmd = s.cmd :=
  rfl

@[simp] theorem State.drawn_phase (s : State) : s.drawn.phase = s.phase :=
  rfl

@[simp] theorem State.drawn_err (s : State) : s.drawn.err = s.err :=
  rfl

@[simp] theorem State.drawn_ie (s : State) : s.drawn.ie = s.ie :=
  rfl

@[simp] theorem State.drawn_inLen (s : State) : s.drawn.inLen = s.inLen :=
  rfl

@[simp] theorem State.drawn_alphaLen (s : State) : s.drawn.alphaLen = s.alphaLen :=
  rfl

@[simp] theorem State.drawn_keyLen (s : State) : s.drawn.keyLen = s.keyLen :=
  rfl

@[simp] theorem State.drawn_ivLen (s : State) : s.drawn.ivLen = s.ivLen :=
  rfl

@[simp] theorem State.drawn_outLen (s : State) : s.drawn.outLen = s.outLen :=
  rfl

@[simp] theorem State.drawn_errInfo0 (s : State) : s.drawn.errInfo0 = s.errInfo0 :=
  rfl

@[simp] theorem State.drawn_errInfo1 (s : State) : s.drawn.errInfo1 = s.errInfo1 :=
  rfl

@[simp] theorem State.drawn_errInfo2 (s : State) : s.drawn.errInfo2 = s.errInfo2 :=
  rfl

@[simp] theorem State.drawn_mem (s : State) : s.drawn.mem = s.mem :=
  rfl

@[simp] theorem State.drawn_events (s : State) : s.drawn.events = s.events :=
  rfl

@[simp] theorem State.drawn_resp (s : State) : s.drawn.resp = s.resp :=
  rfl

@[simp] theorem State.drawn_draws (s : State) : s.drawn.draws = s.draws + 1 :=
  rfl

/-! ## `State.clearResult` -/

@[simp] theorem State.clearResult_cfg (s : State) : s.clearResult.cfg = s.cfg :=
  rfl

@[simp] theorem State.clearResult_cmd (s : State) : s.clearResult.cmd = s.cmd :=
  rfl

@[simp] theorem State.clearResult_phase (s : State) : s.clearResult.phase = s.phase :=
  rfl

@[simp] theorem State.clearResult_err (s : State) : s.clearResult.err = 0 :=
  rfl

@[simp] theorem State.clearResult_ie (s : State) : s.clearResult.ie = s.ie :=
  rfl

@[simp] theorem State.clearResult_inLen (s : State) : s.clearResult.inLen = s.inLen :=
  rfl

@[simp] theorem State.clearResult_alphaLen (s : State) : s.clearResult.alphaLen = s.alphaLen :=
  rfl

@[simp] theorem State.clearResult_keyLen (s : State) : s.clearResult.keyLen = s.keyLen :=
  rfl

@[simp] theorem State.clearResult_ivLen (s : State) : s.clearResult.ivLen = s.ivLen :=
  rfl

@[simp] theorem State.clearResult_outLen (s : State) : s.clearResult.outLen = 0 :=
  rfl

@[simp] theorem State.clearResult_errInfo0 (s : State) : s.clearResult.errInfo0 = 0 :=
  rfl

@[simp] theorem State.clearResult_errInfo1 (s : State) : s.clearResult.errInfo1 = 0 :=
  rfl

@[simp] theorem State.clearResult_errInfo2 (s : State) : s.clearResult.errInfo2 = 0 :=
  rfl

@[simp] theorem State.clearResult_mem (s : State) : s.clearResult.mem = s.mem :=
  rfl

@[simp] theorem State.clearResult_events (s : State) : s.clearResult.events = s.events :=
  rfl

@[simp] theorem State.clearResult_resp (s : State) : s.clearResult.resp = s.resp :=
  rfl

@[simp] theorem State.clearResult_draws (s : State) : s.clearResult.draws = s.draws :=
  rfl

/-! ## `State.start` -/

@[simp] theorem State.start_cfg (s : State) : s.start.cfg = s.cfg :=
  rfl

@[simp] theorem State.start_cmd (s : State) : s.start.cmd = s.cmd :=
  rfl

@[simp] theorem State.start_phase (s : State) : s.start.phase = .busy :=
  rfl

@[simp] theorem State.start_err (s : State) : s.start.err = 0 :=
  rfl

@[simp] theorem State.start_ie (s : State) : s.start.ie = s.ie :=
  rfl

@[simp] theorem State.start_inLen (s : State) : s.start.inLen = s.inLen :=
  rfl

@[simp] theorem State.start_alphaLen (s : State) : s.start.alphaLen = s.alphaLen :=
  rfl

@[simp] theorem State.start_keyLen (s : State) : s.start.keyLen = s.keyLen :=
  rfl

@[simp] theorem State.start_ivLen (s : State) : s.start.ivLen = s.ivLen :=
  rfl

@[simp] theorem State.start_outLen (s : State) : s.start.outLen = 0 :=
  rfl

@[simp] theorem State.start_errInfo0 (s : State) : s.start.errInfo0 = 0 :=
  rfl

@[simp] theorem State.start_errInfo1 (s : State) : s.start.errInfo1 = 0 :=
  rfl

@[simp] theorem State.start_errInfo2 (s : State) : s.start.errInfo2 = 0 :=
  rfl

@[simp] theorem State.start_mem (s : State) : s.start.mem = s.mem.forget Space.output.offset (Space.output.size s.cfg) :=
  rfl

@[simp] theorem State.start_events (s : State) : s.start.events = s.events :=
  rfl

@[simp] theorem State.start_resp (s : State) : s.start.resp = s.resp :=
  rfl

@[simp] theorem State.start_draws (s : State) : s.start.draws = s.draws :=
  rfl

/-! ## `State.toIdle` -/

@[simp] theorem State.toIdle_cfg (s : State) : s.toIdle.cfg = s.cfg :=
  rfl

@[simp] theorem State.toIdle_cmd (s : State) : s.toIdle.cmd = s.cmd :=
  rfl

@[simp] theorem State.toIdle_phase (s : State) : s.toIdle.phase = .idle :=
  rfl

@[simp] theorem State.toIdle_err (s : State) : s.toIdle.err = 0 :=
  rfl

@[simp] theorem State.toIdle_ie (s : State) : s.toIdle.ie = s.ie :=
  rfl

@[simp] theorem State.toIdle_inLen (s : State) : s.toIdle.inLen = s.inLen :=
  rfl

@[simp] theorem State.toIdle_alphaLen (s : State) : s.toIdle.alphaLen = s.alphaLen :=
  rfl

@[simp] theorem State.toIdle_keyLen (s : State) : s.toIdle.keyLen = s.keyLen :=
  rfl

@[simp] theorem State.toIdle_ivLen (s : State) : s.toIdle.ivLen = s.ivLen :=
  rfl

@[simp] theorem State.toIdle_outLen (s : State) : s.toIdle.outLen = 0 :=
  rfl

@[simp] theorem State.toIdle_errInfo0 (s : State) : s.toIdle.errInfo0 = 0 :=
  rfl

@[simp] theorem State.toIdle_errInfo1 (s : State) : s.toIdle.errInfo1 = 0 :=
  rfl

@[simp] theorem State.toIdle_errInfo2 (s : State) : s.toIdle.errInfo2 = 0 :=
  rfl

@[simp] theorem State.toIdle_mem (s : State) : s.toIdle.mem = s.mem.forget Space.output.offset (Space.output.size s.cfg) :=
  rfl

@[simp] theorem State.toIdle_events (s : State) : s.toIdle.events = s.events :=
  rfl

@[simp] theorem State.toIdle_resp (s : State) : s.toIdle.resp = s.resp :=
  rfl

@[simp] theorem State.toIdle_draws (s : State) : s.toIdle.draws = s.draws :=
  rfl

/-! ## `State.resetRegs` -/

@[simp] theorem State.resetRegs_cfg (s : State) : s.resetRegs.cfg = s.cfg :=
  rfl

@[simp] theorem State.resetRegs_cmd (s : State) : s.resetRegs.cmd = 0 :=
  rfl

@[simp] theorem State.resetRegs_phase (s : State) : s.resetRegs.phase = .idle :=
  rfl

@[simp] theorem State.resetRegs_err (s : State) : s.resetRegs.err = 0 :=
  rfl

@[simp] theorem State.resetRegs_ie (s : State) : s.resetRegs.ie = false :=
  rfl

@[simp] theorem State.resetRegs_inLen (s : State) : s.resetRegs.inLen = 0 :=
  rfl

@[simp] theorem State.resetRegs_alphaLen (s : State) : s.resetRegs.alphaLen = 0 :=
  rfl

@[simp] theorem State.resetRegs_keyLen (s : State) : s.resetRegs.keyLen = 0 :=
  rfl

@[simp] theorem State.resetRegs_ivLen (s : State) : s.resetRegs.ivLen = 0 :=
  rfl

@[simp] theorem State.resetRegs_outLen (s : State) : s.resetRegs.outLen = 0 :=
  rfl

@[simp] theorem State.resetRegs_errInfo0 (s : State) : s.resetRegs.errInfo0 = 0 :=
  rfl

@[simp] theorem State.resetRegs_errInfo1 (s : State) : s.resetRegs.errInfo1 = 0 :=
  rfl

@[simp] theorem State.resetRegs_errInfo2 (s : State) : s.resetRegs.errInfo2 = 0 :=
  rfl

@[simp] theorem State.resetRegs_mem (s : State) : s.resetRegs.mem = s.mem :=
  rfl

@[simp] theorem State.resetRegs_events (s : State) : s.resetRegs.events = s.events :=
  rfl

@[simp] theorem State.resetRegs_resp (s : State) : s.resetRegs.resp = s.resp :=
  rfl

@[simp] theorem State.resetRegs_draws (s : State) : s.resetRegs.draws = s.draws :=
  rfl

/-! ## `State.softReset` -/

@[simp] theorem State.softReset_cfg (s : State) : s.softReset.cfg = s.cfg :=
  rfl

@[simp] theorem State.softReset_cmd (s : State) : s.softReset.cmd = 0 :=
  rfl

@[simp] theorem State.softReset_phase (s : State) : s.softReset.phase = .idle :=
  rfl

@[simp] theorem State.softReset_err (s : State) : s.softReset.err = 0 :=
  rfl

@[simp] theorem State.softReset_ie (s : State) : s.softReset.ie = false :=
  rfl

@[simp] theorem State.softReset_inLen (s : State) : s.softReset.inLen = 0 :=
  rfl

@[simp] theorem State.softReset_alphaLen (s : State) : s.softReset.alphaLen = 0 :=
  rfl

@[simp] theorem State.softReset_keyLen (s : State) : s.softReset.keyLen = 0 :=
  rfl

@[simp] theorem State.softReset_ivLen (s : State) : s.softReset.ivLen = 0 :=
  rfl

@[simp] theorem State.softReset_outLen (s : State) : s.softReset.outLen = 0 :=
  rfl

@[simp] theorem State.softReset_errInfo0 (s : State) : s.softReset.errInfo0 = 0 :=
  rfl

@[simp] theorem State.softReset_errInfo1 (s : State) : s.softReset.errInfo1 = 0 :=
  rfl

@[simp] theorem State.softReset_errInfo2 (s : State) : s.softReset.errInfo2 = 0 :=
  rfl

@[simp] theorem State.softReset_mem (s : State) : s.softReset.mem = s.mem.forget Space.output.offset (Space.output.size s.cfg) :=
  rfl

@[simp] theorem State.softReset_events (s : State) : s.softReset.events = s.events :=
  rfl

@[simp] theorem State.softReset_resp (s : State) : s.softReset.resp = s.resp :=
  rfl

@[simp] theorem State.softReset_draws (s : State) : s.softReset.draws = s.draws :=
  rfl

/-! ## `State.hardReset` -/

@[simp] theorem State.hardReset_cfg (s : State) : s.hardReset.cfg = s.cfg :=
  rfl

@[simp] theorem State.hardReset_cmd (s : State) : s.hardReset.cmd = 0 :=
  rfl

@[simp] theorem State.hardReset_phase (s : State) : s.hardReset.phase = .idle :=
  rfl

@[simp] theorem State.hardReset_err (s : State) : s.hardReset.err = 0 :=
  rfl

@[simp] theorem State.hardReset_ie (s : State) : s.hardReset.ie = false :=
  rfl

@[simp] theorem State.hardReset_inLen (s : State) : s.hardReset.inLen = 0 :=
  rfl

@[simp] theorem State.hardReset_alphaLen (s : State) : s.hardReset.alphaLen = 0 :=
  rfl

@[simp] theorem State.hardReset_keyLen (s : State) : s.hardReset.keyLen = 0 :=
  rfl

@[simp] theorem State.hardReset_ivLen (s : State) : s.hardReset.ivLen = 0 :=
  rfl

@[simp] theorem State.hardReset_outLen (s : State) : s.hardReset.outLen = 0 :=
  rfl

@[simp] theorem State.hardReset_errInfo0 (s : State) : s.hardReset.errInfo0 = 0 :=
  rfl

@[simp] theorem State.hardReset_errInfo1 (s : State) : s.hardReset.errInfo1 = 0 :=
  rfl

@[simp] theorem State.hardReset_errInfo2 (s : State) : s.hardReset.errInfo2 = 0 :=
  rfl

@[simp] theorem State.hardReset_mem (s : State) : s.hardReset.mem = [] :=
  rfl

@[simp] theorem State.hardReset_events (s : State) : s.hardReset.events = s.events :=
  rfl

@[simp] theorem State.hardReset_resp (s : State) : s.hardReset.resp = .none :=
  rfl

@[simp] theorem State.hardReset_draws (s : State) : s.hardReset.draws = s.draws :=
  rfl

/-! ## `State.deliver` -/

@[simp] theorem State.deliver_cfg (s : State) (B : Bytes) : (s.deliver B).cfg = s.cfg :=
  rfl

@[simp] theorem State.deliver_cmd (s : State) (B : Bytes) : (s.deliver B).cmd = s.cmd :=
  rfl

@[simp] theorem State.deliver_phase (s : State) (B : Bytes) : (s.deliver B).phase = .done :=
  rfl

@[simp] theorem State.deliver_err (s : State) (B : Bytes) : (s.deliver B).err = 0 :=
  rfl

@[simp] theorem State.deliver_ie (s : State) (B : Bytes) : (s.deliver B).ie = s.ie :=
  rfl

@[simp] theorem State.deliver_inLen (s : State) (B : Bytes) : (s.deliver B).inLen = s.inLen :=
  rfl

@[simp] theorem State.deliver_alphaLen (s : State) (B : Bytes) : (s.deliver B).alphaLen = s.alphaLen :=
  rfl

@[simp] theorem State.deliver_keyLen (s : State) (B : Bytes) : (s.deliver B).keyLen = s.keyLen :=
  rfl

@[simp] theorem State.deliver_ivLen (s : State) (B : Bytes) : (s.deliver B).ivLen = s.ivLen :=
  rfl

@[simp] theorem State.deliver_outLen (s : State) (B : Bytes) : (s.deliver B).outLen = BitVec.ofNat 32 B.length :=
  rfl

@[simp] theorem State.deliver_errInfo0 (s : State) (B : Bytes) : (s.deliver B).errInfo0 = s.errInfo0 :=
  rfl

@[simp] theorem State.deliver_errInfo1 (s : State) (B : Bytes) : (s.deliver B).errInfo1 = s.errInfo1 :=
  rfl

@[simp] theorem State.deliver_errInfo2 (s : State) (B : Bytes) : (s.deliver B).errInfo2 = s.errInfo2 :=
  rfl

@[simp] theorem State.deliver_mem (s : State) (B : Bytes) : (s.deliver B).mem = (s.mem.forget Space.output.offset (Space.output.size s.cfg)).setBytes Space.output.offset B :=
  rfl

@[simp] theorem State.deliver_events (s : State) (B : Bytes) : (s.deliver B).events = s.events :=
  rfl

@[simp] theorem State.deliver_resp (s : State) (B : Bytes) : (s.deliver B).resp = s.resp :=
  rfl

@[simp] theorem State.deliver_draws (s : State) (B : Bytes) : (s.deliver B).draws = s.draws :=
  rfl

/-! ## `State.takeFault` -/

@[simp] theorem State.takeFault_cfg (s : State) (f : CmdFault) : (s.takeFault f).cfg = s.cfg :=
  rfl

@[simp] theorem State.takeFault_cmd (s : State) (f : CmdFault) : (s.takeFault f).cmd = s.cmd :=
  rfl

@[simp] theorem State.takeFault_phase (s : State) (f : CmdFault) : (s.takeFault f).phase = .fault :=
  rfl

@[simp] theorem State.takeFault_err (s : State) (f : CmdFault) : (s.takeFault f).err = f.code :=
  rfl

@[simp] theorem State.takeFault_ie (s : State) (f : CmdFault) : (s.takeFault f).ie = s.ie :=
  rfl

@[simp] theorem State.takeFault_inLen (s : State) (f : CmdFault) : (s.takeFault f).inLen = s.inLen :=
  rfl

@[simp] theorem State.takeFault_alphaLen (s : State) (f : CmdFault) : (s.takeFault f).alphaLen = s.alphaLen :=
  rfl

@[simp] theorem State.takeFault_keyLen (s : State) (f : CmdFault) : (s.takeFault f).keyLen = s.keyLen :=
  rfl

@[simp] theorem State.takeFault_ivLen (s : State) (f : CmdFault) : (s.takeFault f).ivLen = s.ivLen :=
  rfl

@[simp] theorem State.takeFault_outLen (s : State) (f : CmdFault) : (s.takeFault f).outLen = 0 :=
  rfl

@[simp] theorem State.takeFault_errInfo0 (s : State) (f : CmdFault) : (s.takeFault f).errInfo0 = f.info0 :=
  rfl

@[simp] theorem State.takeFault_errInfo1 (s : State) (f : CmdFault) : (s.takeFault f).errInfo1 = f.info1 :=
  rfl

@[simp] theorem State.takeFault_errInfo2 (s : State) (f : CmdFault) : (s.takeFault f).errInfo2 = f.info2 :=
  rfl

@[simp] theorem State.takeFault_mem (s : State) (f : CmdFault) : (s.takeFault f).mem = s.mem.forget Space.output.offset (Space.output.size s.cfg) :=
  rfl

@[simp] theorem State.takeFault_events (s : State) (f : CmdFault) : (s.takeFault f).events = s.events :=
  rfl

@[simp] theorem State.takeFault_resp (s : State) (f : CmdFault) : (s.takeFault f).resp = s.resp :=
  rfl

@[simp] theorem State.takeFault_draws (s : State) (f : CmdFault) : (s.takeFault f).draws = s.draws :=
  rfl

end Sys2Proof.Machine
end

