-- ==== Sys2Proof/Laws/Ops.lean ====
section
/-! SUPPORT. One lemma per shared operation: what the strobes and the end of a command can do
(spec/10_state.md R51 to R53, 60_exceptions.md R360). -/

namespace Sys2Proof.Machine

theorem State.go_of_busy {s : State} (h : s.phase = .busy) : s.go = s := by simp [State.go, h]

theorem State.go_of_not_busy {s : State} (h : s.phase ≠ .busy) : s.go = s.start := by
  cases hp : s.phase <;> simp_all [State.go]

/-- What GO can do. -/
theorem State.go_cases (s : State) :
    (s.phase = .busy ∧ s.go = s) ∨ (s.phase ≠ .busy ∧ s.go = s.start) := by
  by_cases h : s.phase = .busy
  · exact .inl ⟨h, State.go_of_busy h⟩
  · exact .inr ⟨h, State.go_of_not_busy h⟩

/-- What ACK can do. -/
theorem State.ack_cases (s : State) :
    ((s.phase = .busy ∨ s.phase = .idle) ∧ s.ack = s) ∨
      ((s.phase = .done ∨ s.phase = .fault) ∧ s.ack = s.toIdle) := by
  cases hp : s.phase <;> simp [State.ack, hp]

/-- What the end of a command can do. -/
theorem State.finish_ok (s : State) (B : Bytes) : s.finish (.ok B) = (s.deliver B).drawn := rfl

theorem State.finish_error (s : State) (f : CmdFault) :
    s.finish (.error f) = (s.takeFault f).drawn := rfl

/-- The payload that `deliver` stores reads back. -/
theorem State.deliver_fetch (s : State) (B : Bytes) :
    (s.deliver B).fetch .output B.length = B :=
  State.bytesAt_eq_of_get fun i hi => by
    rw [State.deliver_mem]
    exact Memory.get_setBytes_in _ _ _ _ hi

/-- The fields that no end of a command writes. -/
theorem State.finish_keeps (s : State) (r : Except CmdFault Bytes) :
    (s.finish r).cfg = s.cfg ∧ (s.finish r).cmd = s.cmd ∧ (s.finish r).ie = s.ie ∧
      (s.finish r).inLen = s.inLen ∧ (s.finish r).alphaLen = s.alphaLen ∧
      (s.finish r).keyLen = s.keyLen ∧ (s.finish r).ivLen = s.ivLen ∧
      (s.finish r).events = s.events ∧ (s.finish r).resp = s.resp ∧
      (s.finish r).draws = s.draws + 1 := by
  cases r <;> simp [State.finish]

/-- A command ends in DONE or in FAULT, as its result says. -/
theorem State.finish_phase (s : State) (r : Except CmdFault Bytes) :
    (s.finish r).phase = match r with | .ok _ => .done | .error _ => .fault := by
  cases r <;> rfl

/-- `forgetOut` leaves every offset outside OUT alone. -/
theorem State.get_forgetOut_out (s : State) {a : Nat}
    (h : a < Space.output.offset ∨ Space.output.offset + Space.output.size s.cfg ≤ a) :
    s.forgetOut.mem.get a = s.mem.get a := Memory.get_forget_out _ h

/-- Every code a fault has is one that exists, and none is 0 (60_exceptions.md R341). -/
theorem CmdFault.code_ne_zero (f : CmdFault) : f.code ≠ 0 := by cases f <;> simp [CmdFault.code]

end Sys2Proof.Machine
end

