-- ==== Sys2Proof/Laws/Bus.lean ====
section
/-! SUPPORT. What one access of the host can do (spec/20_memory.md R64 to R67, 10_state.md R21, R55). -/

namespace Sys2Proof.Machine

@[simp] theorem State.respond_mem (s : State) (v : Word) : (s.respond v).mem = s.mem := rfl

@[simp] theorem State.respond_cfg (s : State) (v : Word) : (s.respond v).cfg = s.cfg := rfl

@[simp] theorem State.respond_phase (s : State) (v : Word) : (s.respond v).phase = s.phase := rfl

@[simp] theorem State.respond_events (s : State) (v : Word) : (s.respond v).events = s.events := rfl

@[simp] theorem State.respond_resp (s : State) (v : Word) : (s.respond v).resp = .data v := rfl

/-- A register offset belongs to that register and to no other. -/
@[simp] theorem Reg.at_offset (r : Reg) : Reg.at r.offset = some r := by cases r <;> rfl

theorem Reg.at_some {a : Nat} {r : Reg} (h : Reg.at a = some r) : (r.offset == a) = true :=
  List.find?_some (p := fun (q : Reg) => q.offset == a) h

/-- What a buffer located for an access says of the access (20_memory.md R65). -/
theorem locate_some {c : Config} {a n : Nat} {sp : Space} (h : locate c a n = some sp) :
    sp.offset ≤ a ∧ a + n ≤ sp.offset + sp.size c := by
  have := List.find?_some h
  simpa using this

/-- What a target says of the access (20_memory.md R64, R65). -/
theorem target_cases {c : Config} {w : Width} {a : Nat} {t : Target} (h : target c w a = some t) :
    a % w.bytes = 0 ∧
      ((t = .page ∧ a < 0x100 ∧ w = .w32) ∨
        (∃ sp, t = .buffer sp ∧ 0x100 ≤ a ∧ locate c a w.bytes = some sp)) := by
  unfold target at h
  split at h
  · cases h
  · rename_i h1
    refine ⟨by simpa using h1, ?_⟩
    split at h
    · rename_i h2
      cases w <;> simp at h
      exact .inl ⟨h.symm, h2, rfl⟩
    · rename_i h2
      cases hl : locate c a w.bytes with
      | none => simp [hl] at h
      | some sp =>
        simp [hl] at h
        exact .inr ⟨sp, h.symm, by omega, rfl⟩

/-- What a read can do: it is a bus error, or it changes nothing but the answer and the draw counter
(20_memory.md R66, R67). -/
theorem busRead_cases (s : State) (w : Width) (a : Nat) :
    (target s.cfg w a = none ∧ busRead s w a = .fault .busError) ∨
      (∃ v, (target s.cfg w a).isSome ∧ busRead s w a = .next (s.respond v)) := by
  unfold busRead
  cases target s.cfg w a with
  | none => exact .inl ⟨rfl, rfl⟩
  | some t => cases t <;> exact .inr ⟨_, rfl, rfl⟩

/-- What a write can do (20_memory.md R66, 10_state.md R55). -/
theorem busWrite_cases (s : State) (w : Width) (a : Nat) (v : Word) :
    (target s.cfg w a = none ∧ busWrite s w a v = .fault .busError) ∨
      (target s.cfg w a = some .page ∧
        busWrite s w a v = .next { s.writePage a v with resp := .written }) ∨
      (∃ sp, target s.cfg w a = some (.buffer sp) ∧
        busWrite s w a v = .next { s.writeBuffer sp a w v with resp := .written }) := by
  unfold busWrite
  cases target s.cfg w a with
  | none => exact .inl ⟨rfl, rfl⟩
  | some t =>
    cases t with
    | page => exact .inr (.inl ⟨rfl, rfl⟩)
    | buffer sp => exact .inr (.inr ⟨sp, rfl, rfl⟩)

/-- What a write to `CTRL` can do: a soft reset, or ACK and GO as their bits say (10_state.md R26). -/
theorem State.writeCtrl_cases (s : State) (v : Word) :
    (v.getLsbD 31 = true ∧ s.writeCtrl v = s.softReset) ∨
      (v.getLsbD 31 = false ∧ v.getLsbD 1 = false ∧ v.getLsbD 0 = false ∧ s.writeCtrl v = s) ∨
      (v.getLsbD 31 = false ∧ v.getLsbD 1 = false ∧ v.getLsbD 0 = true ∧ s.writeCtrl v = s.go) ∨
      (v.getLsbD 31 = false ∧ v.getLsbD 1 = true ∧ v.getLsbD 0 = false ∧ s.writeCtrl v = s.ack) ∨
      (v.getLsbD 31 = false ∧ v.getLsbD 1 = true ∧ v.getLsbD 0 = true ∧
        s.writeCtrl v = s.ack.go) := by
  unfold State.writeCtrl
  cases h31 : v.getLsbD 31
  · cases h1 : v.getLsbD 1 <;> cases h0 : v.getLsbD 0
    · exact .inr (.inl ⟨rfl, rfl, rfl, rfl⟩)
    · exact .inr (.inr (.inl ⟨rfl, rfl, rfl, rfl⟩))
    · exact .inr (.inr (.inr (.inl ⟨rfl, rfl, rfl, rfl⟩)))
    · exact .inr (.inr (.inr (.inr ⟨rfl, rfl, rfl, rfl⟩)))
  · exact .inl ⟨rfl, rfl⟩

/-- What a write to the page can do: nothing, a plain store of one host register, or a `CTRL` write
(10_state.md R21, R55). -/
theorem State.writePage_cases (s : State) (a : Nat) (v : Word) :
    s.writePage a v = s ∨
      (s.phase ≠ .busy ∧
        ((a = Reg.offset .cmd ∧ s.writePage a v = { s with cmd := v }) ∨
          (a = Reg.offset .inten ∧ s.writePage a v = { s with ie := v.getLsbD 0 }) ∨
          (a = Reg.offset .inLen ∧ s.writePage a v = { s with inLen := v }) ∨
          (a = Reg.offset .alphaLen ∧ s.writePage a v = { s with alphaLen := v }) ∨
          (a = Reg.offset .keyLen ∧ s.writePage a v = { s with keyLen := v }) ∨
          (a = Reg.offset .ivLen ∧ s.writePage a v = { s with ivLen := v }))) ∨
      (a = Reg.offset .ctrl ∧ s.writePage a v = s.writeCtrl v) := by
  unfold State.writePage
  cases h : Reg.at a with
  | none => exact .inl rfl
  | some r =>
    have ha : a = r.offset := (beq_iff_eq.1 (Reg.at_some h)).symm
    subst ha
    by_cases hb : s.phase = .busy
    · cases r <;> simp [State.writeReg, State.storeReg, hb]
    · cases r <;> simp [State.writeReg, State.storeReg, hb]

/-- What a write to a buffer can do (10_state.md R40, R55, 20_memory.md R62). -/
theorem State.writeBuffer_cases (s : State) (sp : Space) (a : Nat) (w : Width) (v : Word) :
    ((s.phase = .busy ∨ sp = .output) ∧ s.writeBuffer sp a w v = s) ∨
      (s.phase ≠ .busy ∧ sp ≠ .output ∧
        s.writeBuffer sp a w v = { s with mem := s.mem.setBytes a (bytesLe w.bytes v.toNat) }) := by
  unfold State.writeBuffer
  by_cases h : s.phase = .busy ∨ sp = .output
  · exact .inl ⟨h, if_pos h⟩
  · exact .inr ⟨fun hb => h (.inl hb), fun ho => h (.inr ho), if_neg h⟩

@[simp] theorem length_bytesLe (k v : Nat) : (bytesLe k v).length = k := by
  induction k generalizing v with
  | zero => rfl
  | succ k ih => simp [bytesLe, ih]

end Sys2Proof.Machine
end

