-- ==== Sys2Proof/Laws/Exec.lean ====
section
/-! SUPPORT. What a command can do, said once: `exec` always answers a next state, which is the end of the
command with the result of its pipeline (spec/10_state.md R52); and what the stages of the pipelines give
when they succeed. -/

namespace Sys2Proof.Machine

/-- The result of a command on a state: `Exec` of spec/30_encoding.md R104 for a decoded command. -/
def resultOf (i : Instr) (s : State) : Except CmdFault Bytes :=
  match i with
  | .bxe16 ap => bxExec .enc .b16 ap s
  | .bxe32 ap => bxExec .enc .b32 ap s
  | .bxe58 ap => bxExec .enc .b58 ap s
  | .bxe62 ap => bxExec .enc .b62 ap s
  | .bxe64 ap => bxExec .enc .b64 ap s
  | .bxe85 ap => bxExec .enc .b85 ap s
  | .bxe91 ap => bxExec .enc .b91 ap s
  | .bxd16 ap => bxExec .dec .b16 ap s
  | .bxd32 ap => bxExec .dec .b32 ap s
  | .bxd58 ap => bxExec .dec .b58 ap s
  | .bxd62 ap => bxExec .dec .b62 ap s
  | .bxd64 ap => bxExec .dec .b64 ap s
  | .bxd85 ap => bxExec .dec .b85 ap s
  | .bxd91 ap => bxExec .dec .b91 ap s
  | .sm4eEcb o => sm4Exec .enc .ecb o s
  | .sm4eCbc o => sm4Exec .enc .cbc o s
  | .sm4eCfb o => sm4Exec .enc .cfb o s
  | .sm4eOfb o => sm4Exec .enc .ofb o s
  | .sm4eCtr o => sm4Exec .enc .ctr o s
  | .sm4dEcb o => sm4Exec .dec .ecb o s
  | .sm4dCbc o => sm4Exec .dec .cbc o s
  | .sm4dCfb o => sm4Exec .dec .cfb o s
  | .sm4dOfb o => sm4Exec .dec .ofb o s
  | .sm4dCtr o => sm4Exec .dec .ctr o s

/-- Every command answers a next state: its end with its result. -/
theorem exec_eq_finish (i : Instr) (s : State) : exec i s = .next (s.finish (resultOf i s)) := by
  cases i <;> rfl

@[simp] theorem resultOf_ofBx (d : Dir) (b : Base) (ap : Bool) (s : State) :
    resultOf (Instr.ofBx d b ap) s = bxExec d b ap s := by cases d <;> cases b <;> rfl

@[simp] theorem resultOf_ofSm4 (d : Dir) (m : Mode) (o : CipherOpts) (s : State) :
    resultOf (Instr.ofSm4 d m o) s = sm4Exec d m o s := by cases d <;> cases m <;> rfl

/-- Every command is a radix-codec command or a cipher command. -/
theorem Instr.cases_unit (i : Instr) :
    (∃ d b ap, i = Instr.ofBx d b ap) ∨ (∃ d m o, i = Instr.ofSm4 d m o) := by
  cases i
  case bxe16 ap => exact .inl ⟨.enc, .b16, ap, rfl⟩
  case bxe32 ap => exact .inl ⟨.enc, .b32, ap, rfl⟩
  case bxe58 ap => exact .inl ⟨.enc, .b58, ap, rfl⟩
  case bxe62 ap => exact .inl ⟨.enc, .b62, ap, rfl⟩
  case bxe64 ap => exact .inl ⟨.enc, .b64, ap, rfl⟩
  case bxe85 ap => exact .inl ⟨.enc, .b85, ap, rfl⟩
  case bxe91 ap => exact .inl ⟨.enc, .b91, ap, rfl⟩
  case bxd16 ap => exact .inl ⟨.dec, .b16, ap, rfl⟩
  case bxd32 ap => exact .inl ⟨.dec, .b32, ap, rfl⟩
  case bxd58 ap => exact .inl ⟨.dec, .b58, ap, rfl⟩
  case bxd62 ap => exact .inl ⟨.dec, .b62, ap, rfl⟩
  case bxd64 ap => exact .inl ⟨.dec, .b64, ap, rfl⟩
  case bxd85 ap => exact .inl ⟨.dec, .b85, ap, rfl⟩
  case bxd91 ap => exact .inl ⟨.dec, .b91, ap, rfl⟩
  case sm4eEcb o => exact .inr ⟨.enc, .ecb, o, rfl⟩
  case sm4eCbc o => exact .inr ⟨.enc, .cbc, o, rfl⟩
  case sm4eCfb o => exact .inr ⟨.enc, .cfb, o, rfl⟩
  case sm4eOfb o => exact .inr ⟨.enc, .ofb, o, rfl⟩
  case sm4eCtr o => exact .inr ⟨.enc, .ctr, o, rfl⟩
  case sm4dEcb o => exact .inr ⟨.dec, .ecb, o, rfl⟩
  case sm4dCbc o => exact .inr ⟨.dec, .cbc, o, rfl⟩
  case sm4dCfb o => exact .inr ⟨.dec, .cfb, o, rfl⟩
  case sm4dOfb o => exact .inr ⟨.dec, .ofb, o, rfl⟩
  case sm4dCtr o => exact .inr ⟨.dec, .ctr, o, rfl⟩

/-- The result of the engine's step on a state (spec/30_encoding.md R104). -/
def engineResult (s : State) : Except CmdFault Bytes :=
  match decode s.cmd with
  | .error e => .error (decodeFault s.cmd e)
  | .ok i => resultOf i s

/-- The engine's step always answers a next state (spec/10_state.md R52). -/
theorem engineStep_eq_finish (s : State) : engineStep s = .next (s.finish (engineResult s)) := by
  unfold engineStep engineResult
  cases decode s.cmd with
  | error e => rfl
  | ok i => exact exec_eq_finish i s

/-! ## The stages of the pipelines -/

/-- What the output capacity check can do (40_basex_front_end.md R135). -/
theorem State.outputCheck_ok {s : State} {B C : Bytes} :
    s.outputCheck B = .ok C ↔ B = C ∧ B.length ≤ s.cfg.outMax := by
  unfold State.outputCheck
  split <;> simp <;> omega

/-- What the input fetch can do. -/
theorem State.inputOperand_ok {s : State} {D : Bytes} :
    s.inputOperand = .ok D ↔ s.inLen.toNat ≤ s.cfg.inMax ∧ D = s.fetch .input s.inLen.toNat := by
  unfold State.inputOperand
  split <;> simp [eq_comm] <;> omega

/-- What the UTF-8 check can do (40_basex_front_end.md R133). -/
theorem utf8Check_ok {B C : Bytes} : utf8Check B = .ok C ↔ B = C ∧ utf8Valid B = true := by
  unfold utf8Check
  split <;> simp [*]

/-- When `BxExec` succeeds, and with what (40_basex_front_end.md R121). -/
theorem bxExec_ok {d : Dir} {b : Base} {ap : Bool} {s : State} {B : Bytes} :
    bxExec d b ap s = .ok B ↔
      ∃ A D, s.alphabet b ap = .ok A ∧ s.inputOperand = .ok D ∧
        bxTransform s.cfg d b ap A D = .ok B ∧ B.length ≤ s.cfg.outMax := by
  unfold bxExec
  cases hA : s.alphabet b ap with
  | error f => simp
  | ok A =>
    cases hD : s.inputOperand with
    | error f => simp
    | ok D =>
      cases hT : bxTransform s.cfg d b ap A D with
      | error f => simp [hT]
      | ok C =>
        simp only [hT, State.outputCheck_ok]
        constructor
        · rintro ⟨rfl, h⟩; exact ⟨A, D, rfl, rfl, hT, h⟩
        · rintro ⟨A', D', h0, h0', h1, h2⟩
          cases h0; cases h0'
          rw [hT] at h1
          cases h1
          exact ⟨rfl, h2⟩

/-- When `Sm4Exec` succeeds, and with what (45_cipher_mode_controller.md R251). -/
theorem sm4Exec_ok {d : Dir} {m : Mode} {o : CipherOpts} {s : State} {B : Bytes} :
    sm4Exec d m o s = .ok B ↔
      ∃ K V D, s.keyAndIv m o = .ok (K, V) ∧ s.inputOperand = .ok D ∧
        sm4Transform s.cfg d m o K V D = .ok B ∧ B.length ≤ s.cfg.outMax := by
  unfold sm4Exec
  cases hK : s.keyAndIv m o with
  | error f => simp
  | ok KV =>
    obtain ⟨K, V⟩ := KV
    cases hD : s.inputOperand with
    | error f => simp
    | ok D =>
      cases hT : sm4Transform s.cfg d m o K V D with
      | error f => simp [hT]
      | ok C =>
        simp only [hT, State.outputCheck_ok]
        constructor
        · rintro ⟨rfl, h⟩; exact ⟨K, V, D, rfl, rfl, hT, h⟩
        · rintro ⟨K', V', D', h0, h0', h1, h2⟩
          cases h0; cases h0'
          rw [hT] at h1
          cases h1
          exact ⟨rfl, h2⟩

/-- "Its result is `Ok(B)` with `len(B) ≤ OUT_MAX`, or `Err`" (30_encoding.md R104). -/
theorem resultOf_length {i : Instr} {s : State} {B : Bytes} (h : resultOf i s = .ok B) :
    B.length ≤ s.cfg.outMax := by
  rcases Instr.cases_unit i with ⟨d, b, ap, rfl⟩ | ⟨d, m, o, rfl⟩
  · rw [resultOf_ofBx] at h
    obtain ⟨A, D, -, -, -, hl⟩ := bxExec_ok.1 h
    exact hl
  · rw [resultOf_ofSm4] at h
    obtain ⟨K, V, D, -, -, -, hl⟩ := sm4Exec_ok.1 h
    exact hl

theorem engineResult_length {s : State} {B : Bytes} (h : engineResult s = .ok B) :
    B.length ≤ s.cfg.outMax := by
  unfold engineResult at h
  cases hd : decode s.cmd with
  | error e => simp [hd] at h
  | ok i => rw [hd] at h; exact resultOf_length h

end Sys2Proof.Machine
end

