-- ==== Sys2Proof/Laws/Step.lean ====
section
/-! SUPPORT. What a step can do, said once (spec/00_scope.md R9, 10_state.md R52). -/

namespace Sys2Proof.Machine

@[simp] theorem State.pop_cfg (s : State) : s.pop.cfg = s.cfg := rfl

@[simp] theorem State.pop_cmd (s : State) : s.pop.cmd = s.cmd := rfl

@[simp] theorem State.pop_phase (s : State) : s.pop.phase = s.phase := rfl

@[simp] theorem State.pop_mem (s : State) : s.pop.mem = s.mem := rfl

@[simp] theorem State.pop_draws (s : State) : s.pop.draws = s.draws := rfl

@[simp] theorem State.pop_events (s : State) : s.pop.events = s.events.tail := rfl

theorem step_of_nil {s : State} (h : s.events = []) : step s = engineTurn s := by simp [step, h]

theorem step_of_cons {s : State} {e : Event} {es : List Event} (h : s.events = e :: es) :
    step s = s.pop.onEvent e := by simp [step, h]

/-- What the engine's turn can do. -/
theorem engineTurn_cases (s : State) :
    (s.phase = .busy ∧ engineTurn s = .next (s.finish (engineResult s))) ∨
      (s.phase ≠ .busy ∧ engineTurn s = .next s) := by
  cases h : s.phase <;> simp [engineTurn, h, engineStep_eq_finish]

/-- What one access of the host can do. -/
theorem hostAccess_cases (a : Access) (s : State) :
    (∃ w off, a = .read w off ∧ hostAccess a s = busRead s w off.toNat) ∨
      (∃ w off v, a = .write w off v ∧ hostAccess a s = busWrite s w off.toNat v) := by
  cases a with
  | read w off => exact .inl ⟨w, off, rfl, rfl⟩
  | write w off v => exact .inr ⟨w, off, v, rfl, rfl⟩

/-- What a step can do: the engine's turn, an access of the host, or a hardware reset. -/
theorem step_cases (s : State) :
    (s.events = [] ∧ step s = engineTurn s) ∨
      (∃ es, s.events = .engineTurn :: es ∧ step s = engineTurn s.pop) ∨
      (∃ a es, s.events = .access a :: es ∧ step s = hostAccess a s.pop) ∨
      (∃ es, s.events = .hardReset :: es ∧ step s = .next s.pop.hardReset) := by
  cases h : s.events with
  | nil => exact .inl ⟨rfl, step_of_nil h⟩
  | cons e es =>
    cases e with
    | engineTurn => exact .inr (.inl ⟨es, rfl, step_of_cons h⟩)
    | access a => exact .inr (.inr (.inl ⟨a, es, rfl, step_of_cons h⟩))
    | hardReset => exact .inr (.inr (.inr ⟨es, rfl, step_of_cons h⟩))

/-- A step is never refused. -/
theorem step_not_refused (s : State) (r : Refusal) : step s ≠ .refused r := by
  rcases step_cases s with ⟨-, h⟩ | ⟨es, -, h⟩ | ⟨a, es, -, h⟩ | ⟨es, -, h⟩ <;> rw [h]
  · rcases engineTurn_cases s with ⟨-, h⟩ | ⟨-, h⟩ <;> rw [h] <;> simp
  · rcases engineTurn_cases s.pop with ⟨-, h⟩ | ⟨-, h⟩ <;> rw [h] <;> simp
  · rcases hostAccess_cases a s.pop with ⟨w, off, -, h⟩ | ⟨w, off, v, -, h⟩ <;> rw [h]
    · rcases busRead_cases s.pop w off.toNat with ⟨-, h⟩ | ⟨v, -, h⟩ <;> rw [h] <;> simp
    · rcases busWrite_cases s.pop w off.toNat v with ⟨-, h⟩ | ⟨-, h⟩ | ⟨sp, -, h⟩ <;> rw [h] <;> simp
  · simp

end Sys2Proof.Machine
end

