-- ==== Sys2Proof/Laws/Claims.lean ====
section
/-! SUPPORT. The words of the statements, unfolded once: what the end of a command, the stages of the
pipelines and one bus access give, in those words. -/

namespace Sys2Proof.Laws

open Sys2Proof.Machine Sys2Proof.Claims

/-- What no end of a command touches. -/
theorem kept_finish (s : State) (r : Except CmdFault Bytes) (hr : ∀ B,
    r = .ok B → B.length ≤ s.cfg.outMax) : Kept s (s.finish r) := by
  obtain ⟨h1,h2,h3,h4,h5,h6,h7,h8,h9,h10⟩ := State.finish_keeps s r
  refine ⟨h1,h2,h3,h4,h5,h6,h7,h8,?_⟩
  intro a ha
  have ha' : a < Space.output.offset ∨ Space.output.offset + Space.output.size s.cfg ≤ a := by
    simp only [InOut] at ha; simp only [Space.size]; omega
  cases r with
  | ok B =>
    have := hr B rfl
    rw [State.finish_ok]
    show (s.deliver B).mem.get a = _
    rw [State.deliver_mem, Memory.get_setBytes_out, Memory.get_forget_out _ ha']
    simp only [Space.size] at ha'; omega
  | error f =>
    rw [State.finish_error]
    exact Memory.get_forget_out _ ha'

/-- The end of a command whose result is a payload. -/
theorem done_finish {s : State} {B : Bytes} (h : B.length ≤ s.cfg.outMax) :
    Done s (s.finish (.ok B)) B where
  kept := kept_finish s _ (fun _ h' => by cases h'; exact h)
  resp := rfl
  phase := rfl
  err := rfl
  outLen := rfl
  infos := ⟨rfl, rfl, rfl⟩
  fits := h
  payload := fun i hi => Memory.get_setBytes_in _ _ _ _ hi
  rest := fun i h1 h2 => by
    show (s.deliver B).mem.get _ = _
    rw [State.deliver_mem, Memory.get_setBytes_out _ _ _ _ (by omega), Memory.get_forget_in]
    simp only [Space.size]; omega

/-- The end of a command whose result is a fault. -/
theorem faulted_finish (s : State) (f : CmdFault) : Faulted s (s.finish (.error f))
    f.code f.info0 f.info1 f.info2 where
  kept := kept_finish s _ (fun _ h' => by cases h')
  resp := rfl
  phase := rfl
  err := rfl
  outLen := rfl
  infos := ⟨rfl, rfl, rfl⟩
  out := fun a ha => Memory.get_forget_in _ ha

/-- A command whose pipeline gives a payload completes with it. -/
theorem completes_of_result {i : Instr} {s : State} {B : Bytes} (h : resultOf i s = .ok B) :
    Completes i s B :=
  ⟨_, exec_eq_finish i s, by rw [h]; exact done_finish (resultOf_length h)⟩

/-- A command whose pipeline gives a fault ends in it. -/
theorem faults_of_result {i : Instr} {s : State} {f : CmdFault} (h : resultOf i s = .error f) :
    Faults i s f.code f.info0 f.info1 f.info2 :=
  ⟨_, exec_eq_finish i s, by rw [h]; exact faulted_finish s f⟩

/-- The end of a command, by its result. -/
theorem endsWith_finish {s : State} {r} (hr : ∀ B, r = .ok B → B.length ≤ s.cfg.outMax) :
    EndsWith s (s.finish r) r := by
  cases r with
  | ok B => exact done_finish (hr B rfl)
  | error f => exact faulted_finish s f

/-- The Alphabet Validator accepts the alphabets of `AlphabetIs`. -/
theorem alphabet_of_alphabetIs {s : State} {b : Base} {ap : Bool} {A : Bytes} (h :
    AlphabetIs s b ap A) : s.alphabet b ap = .ok A := by
  rcases h with ⟨rfl, rfl⟩ | ⟨rfl, rfl, hl, ha, hn⟩
  · simp [State.alphabet]
  · cases b <;> simp [AlphaLenOk] at hl <;>
    (simp [State.alphabet, Base.isStatic, Base.isFixed, Base.isBigInt, Base.radix, hl, State.alphaOperand, alphabetContent]
     have h1 : ¬ ∃ x ∈ customAlphabet s, 128 ≤ x.toNat := by
       rintro ⟨x, hx, h⟩; have := ha x hx; omega
     simp only [customAlphabet, hl] at h1 hn
     first
     | rw [if_neg (by simpa using h1), if_pos hn]
       simp [customAlphabet, hl]
     | rw [if_neg (by omega)]
       rw [if_neg (by omega)]
       simp only
       rw [if_neg (by simpa using h1), if_pos hn]
       simp [customAlphabet])

/-- The input fetch succeeds where the input fits. -/
theorem inputOperand_of_fits {s : State} (h : InputFits s) : s.inputOperand = .ok (input s) := by
  simp only [State.inputOperand, InputFits] at *; rw [if_neg (by omega)]; rfl

/-- The radix pipeline gives what its transform gives. -/
theorem bxExec_ok_of {s : State} {d} {b : Base} {ap : Bool} {A B: Bytes} (h : AlphabetIs s b ap A)
    (hi : InputFits s)
  (ht : bxTransform s.cfg d b ap A (input s) = .ok B) (hl : B.length ≤ s.cfg.outMax) : bxExec d b ap s = .ok B :=
  bxExec_ok.2 ⟨A, input s, alphabet_of_alphabetIs h, inputOperand_of_fits hi, ht, hl⟩

/-- The decode transform, from its unit and the UTF-8 check. -/
theorem bxTransform_dec_of {c : Config} {b ap A D B} (h : c.unitDecode b ap A (c.textOf b D)
    = .ok B) (hu : utf8Valid B = true) :
  bxTransform c .dec b ap A D = .ok B := by
  simp [bxTransform, bxDecode, h, utf8Check, hu]

/-- A radix encode completes with what its unit gives. -/
theorem bxe_completes (b : Base) {s : State} {ap A B} (hA : AlphabetIs s b ap A) (hi : InputFits s)
  (ht : s.cfg.unitEncode b ap A (input s) = B) (hl : B.length ≤ s.cfg.outMax) : Completes (Instr.ofBx .enc b ap) s B :=
  completes_of_result (by rw [resultOf_ofBx]; exact bxExec_ok_of hA hi (by rw [← ht]; rfl) hl)

/-- A radix decode completes with what its unit gives. -/
theorem bxd_completes (b : Base) {s : State} {ap A B} (hA : AlphabetIs s b ap A) (hi : InputFits s)
  (ht : s.cfg.unitDecode b ap A (s.cfg.textOf b (input s)) = .ok B) (hu : utf8Valid B = true) (hl : B.length ≤ s.cfg.outMax) : Completes (Instr.ofBx .dec b ap) s B :=
  completes_of_result (by rw [resultOf_ofBx]; exact bxExec_ok_of hA hi (bxTransform_dec_of ht hu) hl)

/-- What `FwDecode` steps 4 to 6 give when they succeed. -/
theorem fwUnpack_ok {g A b R} (h : fwUnpack g A b = .ok R) : ¬ (b.length % g.symbols * g.w)
    % 8 ≥ g.w ∧
   fwValue g A b % 2 ^ (b.length * g.w - 8 * (b.length * g.w / 8)) = 0 ∧
   R = bytesBe (b.length * g.w / 8) (fwValue g A b >>> (b.length * g.w - 8 * (b.length * g.w / 8))) := by
  unfold fwUnpack at h
  dsimp only at h
  by_cases h1 : (b.length % g.symbols * g.w) % 8 ≥ g.w
  · rw [if_pos h1] at h; cases h
  · rw [if_neg h1] at h
    by_cases h2 : fwValue g A b % 2 ^ (b.length * g.w - 8 * (b.length * g.w / 8)) ≠ 0
    · rw [if_pos h2] at h; cases h
    · rw [if_neg h2] at h; cases h; exact ⟨h1, by simpa using h2, rfl⟩

/-- The lengths of a well-formed hex string and of its bytes. -/
theorem hexDecode_length {S R : Bytes} (h : hexDecode S = .ok R) :
    S.length % 2 = 0 ∧ R.length = S.length / 2 := by
  simp only [hexDecode, fwDecode, fwBody, cond_true, cond_false] at h
  split at h
  · cases h
  · obtain ⟨h1, -, rfl⟩ := fwUnpack_ok h
    have e : (foldHex S).length = S.length := by simp [foldHex]
    simp [bytesBe, length_bytesLe, geo16, e] at *
    omega

/-- `Resolve16` gives the block a string stands for. -/
theorem resolve16_of_stringIs {s : State} {f t K} (h : StringIs s f t K) :
    s.resolve16 f t = .ok K := by
  rcases h with ⟨rfl, h, rfl⟩ | ⟨rfl, h, R, hR, rfl⟩
  · simp [State.resolve16, State.strOperand, h, strBytes]
  · have hl : R.length = 16 := by have := (hexDecode_length hR).2; simpa using this
    simp [State.resolve16, State.strOperand, h, strBytes, hR, hl]

/-- The IV gate lets pass what `GatePasses` says. -/
theorem ivGate_of_passes {m o} (h : GatePasses m o) : ivGate m o = none := by
  obtain ⟨h1, h2⟩ := h
  unfold ivGate
  rw [if_neg, if_neg]
  · rintro ⟨a, b⟩; simp [h2 a] at b
  · rintro ⟨a, b⟩; simp [h1 a] at b

/-- Stages 1 to 3 of the cipher pipeline give the key and, but in ECB, the IV. -/
theorem keyAndIv_of {s : State} {m o K V} (hk : StringIs s .key o.kt K) (hv : IvIs s m o V) :
    ∃ V', s.keyAndIv m o = .ok (K, V') ∧ (m ≠ .ecb → V' = V) := by
  obtain ⟨hg, hv⟩ := hv
  simp only [State.keyAndIv, resolve16_of_stringIs hk, ivGate_of_passes hg]
  cases m
  · exact ⟨0, rfl, by simp⟩
  all_goals simp only [State.resolveIv, resolve16_of_stringIs (hv (by simp))]; exact ⟨V, rfl, by simp⟩

/-- A cipher command completes with what its transform gives. -/
theorem sm4_completes_of {s : State} {d m o K V B} (hk : StringIs s .key o.kt K) (hv :
    IvIs s m o V) (hi : InputFits s)
   (ht : ∀ V', (m ≠ .ecb → V' = V) → sm4Transform s.cfg d m o K V' (input s) = .ok B) (hl : B.length ≤ s.cfg.outMax) :
   Completes (Instr.ofSm4 d m o) s B := by
  obtain ⟨V', h1, h2⟩ := keyAndIv_of hk hv
  refine completes_of_result ?_
  rw [resultOf_ofSm4]
  exact sm4Exec_ok.2 ⟨K, V', input s, h1, inputOperand_of_fits hi, ht V' h2, hl⟩

/-- `ModeDec` in ECB does not use the IV. -/
theorem modeDec_iv_congr (E D w m V V' C) (h : m ≠ .ecb → V' = V) :
    modeDec E D w m V' C = modeDec E D w m V C := by
  cases m
  · rfl
  all_goals rw [h (by simp)]

/-- A custom alphabet of a legal length goes to the content checks. -/
theorem alphabet_of_lenOk {s : State} {b} (h : AlphaLenOk s.alphaLen.toNat b) :
    s.alphabet b true = alphabetContent (customAlphabet s) := by
  cases b <;> simp [AlphaLenOk] at h <;>
    simp [State.alphabet, Base.isStatic, Base.isFixed, Base.isBigInt, Base.radix, h, State.alphaOperand, customAlphabet]
  all_goals rw [if_neg (by omega), if_neg (by omega)]

/-- An alphabet fault is the result of the command. -/
theorem resultOf_of_alphabet_error {s : State} {d b ap f} (h : s.alphabet b ap = .error f) :
    resultOf (Instr.ofBx d b ap) s = .error f := by
  rw [resultOf_ofBx]; simp [bxExec, h]

/-- The same with the code and the detail words given by equations. -/
theorem faults_of_result_eq (f : CmdFault) {i s c i0 i1 i2} (h : resultOf i s = .error f) (h1 :
    f.code = c) (h2 : f.info0 = i0) (h3 : f.info1 = i1) (h4 : f.info2 = i2) : Faults i s c i0 i1 i2 := by
  subst h1 h2 h3 h4; exact faults_of_result h

/-- A key, gate or IV fault is the result of the command. -/
theorem resultOf_of_keyAndIv_error {s : State} {d m o f} (h : s.keyAndIv m o = .error f) :
    resultOf (Instr.ofSm4 d m o) s = .error f := by
  rw [resultOf_ofSm4]; simp [sm4Exec, h]

/-- A key fault comes first. -/
theorem keyAndIv_of_key_error {s : State} {m o f} (h : s.resolve16 .key o.kt = .error f) :
    s.keyAndIv m o = .error f := by
  simp [State.keyAndIv, h]

/-- An IV fault comes after the key and the gate. -/
theorem keyAndIv_of_iv_error {s : State} {m o f K} (hk : StringIs s .key o.kt K) (hm : m ≠ .ecb)
    (hg : GatePasses m o) (h : s.resolve16 .iv o.ivt = .error f) : s.keyAndIv m o = .error f := by
  simp only [State.keyAndIv, resolve16_of_stringIs hk, ivGate_of_passes hg]
  cases m <;> simp_all [State.resolveIv]

/-- A fault of the radix transform is the result of the command. -/
theorem resultOf_of_bxTransform_error {s : State} {d b ap A f} (hA : AlphabetIs s b ap A) (hi :
    InputFits s) (h : bxTransform s.cfg d b ap A (input s) = .error f) : resultOf (Instr.ofBx d b ap) s = .error f := by
  rw [resultOf_ofBx]; simp [bxExec, alphabet_of_alphabetIs hA, inputOperand_of_fits hi, h]

/-- A fault of the cipher transform is the result of the command. -/
theorem resultOf_of_sm4Transform_error {s : State} {d m o K V f} (hk : StringIs s .key o.kt K)
    (hv : IvIs s m o V) (hi : InputFits s) (h : sm4Transform s.cfg d m o K V (input s) = .error f) : resultOf (Instr.ofSm4 d m o) s = .error f := by
  obtain ⟨V', h1, h2⟩ := keyAndIv_of hk hv
  have ht' : sm4Transform s.cfg d m o K V' (input s) = .error f := by
    rw [← h]
    by_cases hm : m = .ecb
    · subst hm; cases d <;> rfl
    · rw [h2 hm]
  rw [resultOf_ofSm4]; simp [sm4Exec, h1, inputOperand_of_fits hi, ht']

/-- The alignment check of `ModeDec` passes on whole blocks. -/
theorem not_misaligned {m : Mode} {C : Bytes} (ha : m = .ecb ∨ m = .cbc → C.length % 16 = 0) :
    ¬ (m.wholeBlocks && C.length % 16 != 0) = true := by
    cases m <;> simp_all [Mode.wholeBlocks]

/-- The codes of the Alphabet Validator. -/
theorem alphabet_error_code {s : State} {b ap f} (h : s.alphabet b ap = .error f) : ap = true ∧
   ((b.isStatic = true ∧ f.code = 3) ∨ (b.isStatic = false ∧ (f.code = 2 ∨ f.code = 0x81 ∨ f.code = 4))) := by
  unfold State.alphabet at h
  cases ap
  · simp at h
  · refine ⟨rfl, ?_⟩
    cases hb : b.isStatic
    · right; refine ⟨rfl, ?_⟩
      simp only [hb, Bool.and_true, Bool.false_eq_true, if_false] at h
      split at h
      · cases h; exact .inl rfl
      · split at h
        · cases h; exact .inl rfl
        · simp only [if_true] at h
          unfold State.alphaOperand at h
          split at h
          · rename_i h'; split at h' <;> cases h'; cases h; exact .inr (.inl rfl)
          · unfold alphabetContent at h
            split at h
            · cases h; exact .inr (.inr rfl)
            · split at h
              · cases h; exact .inr (.inr rfl)
              · cases h
    · left; simp [hb] at h; subst h; exact ⟨rfl, rfl⟩

/-- The code of the input fetch. -/
theorem inputOperand_error_code {s : State} {f} (h : s.inputOperand = .error f) :
    f.code = 0x81 := by
  unfold State.inputOperand at h; split at h <;> cases h; rfl

/-- The code of the output check. -/
theorem outputCheck_error_code {s : State} {B f} (h : s.outputCheck B = .error f) :
    f.code = 0x81 := by
  unfold State.outputCheck at h; split at h <;> cases h; rfl

/-- The code of the UTF-8 check. -/
theorem utf8Check_error_code {B f} (h : utf8Check B = .error f) : f.code = 5 := by
  unfold utf8Check at h; split at h <;> cases h; rfl

/-- The codes of `Resolve16`. -/
theorem resolve16_error_code {s : State} {k t f} (h : s.resolve16 k t = .error f) :
    f.code = 8 ∨ f.code = 0x81 ∨ (t = .hex ∧ f.code = 4) := by
  unfold State.resolve16 at h
  split at h
  · rename_i h'; cases h
    unfold State.strOperand at h'
    split at h'
    · split at h' <;> cases h'; exact .inl rfl
    · split at h' <;> cases h'; exact .inr (.inl rfl)
  · split at h
    · rename_i h'; cases h
      unfold strBytes at h'
      split at h'
      · cases h'
      · split at h' <;> cases h'; exact .inr (.inr ⟨rfl, rfl⟩)
    · split at h <;> cases h; exact .inl rfl

/-- The codes of the IV gate. -/
theorem ivGate_error_code {m o f} (h : ivGate m o = some f) : (m ≠ .ecb ∧ f.code = 6)
    ∨ f.code = 7 := by
  unfold ivGate at h
  split at h
  · rename_i h'; cases h; exact .inl ⟨h'.1, rfl⟩
  · split at h <;> cases h; exact .inr rfl

/-- The engine turn in BUSY ends the command. -/
theorem engineTurn_of_busy {s : State} (h : s.phase = .busy) :
    engineTurn s = .next (s.finish (engineResult s)) := by
  rcases engineTurn_cases s with ⟨_, h'⟩ | ⟨h', _⟩
  · exact h'
  · exact absurd h h'

/-- A write to `CTRL` is always admitted. -/
theorem hostAccess_ctrlWrite (s : State) (v : Word) : hostAccess (ctrlWrite v)
    s = .next { s.writeCtrl v with resp := .written } := by
  have h1 : target s.cfg .w32 16 = some .page := rfl
  show busWrite s .w32 16 v = _
  simp only [busWrite, h1]
  congr 1
  have : s.writePage 16 v = s.writeCtrl v := by
    show s.writeReg .ctrl v = _
    simp [State.writeReg, State.storeReg]
  rw [this]

/-- A read of the register page. -/
theorem hostAccess_pageRead (s : State) (off : Offset) (h : off.toNat < 0x100) (h4 :
    off.toNat % 4 = 0) : hostAccess (.read .w32 off) s = .next (s.respond (s.readPage off.toNat)) := by
  have : target s.cfg .w32 off.toNat = some .page := by simp [target, Width.bytes, h, h4]
  simp [hostAccess, busRead, this]

/-- What the page reads as. -/
theorem readsAs_of_readPage (s : State) (off : Offset) (v : Word) (h : off.toNat < 0x100) (h4 :
    off.toNat % 4 = 0) (hv : s.readPage off.toNat = v) : ReadsAs s off v :=
  ⟨_, hostAccess_pageRead s off h h4, by rw [hv]; rfl, rfl⟩

/-- What a write to the page does. -/
theorem writesTo_of_writePage (s t : State) (off : Offset) (v : Word) (h : off.toNat < 0x100)
    (h4 : off.toNat % 4 = 0) (hv : s.writePage off.toNat v = t) : WritesTo s off v t := by
  have : target s.cfg .w32 off.toNat = some .page := by simp [target, Width.bytes, h, h4]
  simp [WritesTo, hostAccess, busWrite, this, hv]

/-- The reserved locations are no registers. -/
theorem regAt_reserved (a : Nat) (h : a = 0x1C ∨ (0x40 ≤ a ∧ a < 0x100)) : Reg.at a = none := by
  have : ∀ a < 0x100, (a = 0x1C ∨ 0x40 ≤ a) → Reg.at a = none := by decide +kernel
  exact this a (by omega) (by omega)

/-- No access is empty. -/
theorem Width_bytes_pos (w : Width) : 0 < w.bytes := by cases w <;> decide

/-- No buffer holds an access that `locate` does not find. -/
theorem locate_none {c : Config} {a n : Nat} (h : locate c a n = none) (sp : Space) :
    ¬ (sp.offset ≤ a ∧ a + n ≤ sp.offset + sp.size c) := by
  unfold locate at h
  rw [List.find?_eq_none] at h
  have := h sp (by cases sp <;> simp [Space.all])
  simpa using this

/-- Every buffer lies above the register page. -/
theorem offset_ge (sp : Space) : 0x100 ≤ sp.offset := by cases sp <;> decide

/-- The accesses the block admits. -/
theorem target_isSome_iff (c : Config) (w : Width) (a : Nat) : (target c w a).isSome = true ↔
   ((a < 0x100 ∧ w = .w32 ∧ a % 4 = 0) ∨ ∃ sp : Space, InBuffer c sp a w.bytes) := by
  constructor
  · intro h
    obtain ⟨t, ht⟩ := Option.isSome_iff_exists.1 h
    obtain ⟨h1, ⟨rfl, h2, rfl⟩ | ⟨sp, rfl, h2, h3⟩⟩ := target_cases ht
    · exact .inl ⟨h2, rfl, h1⟩
    · exact .inr ⟨sp, h1, locate_some h3⟩
  · rintro (⟨h1, rfl, h2⟩ | ⟨sp, h1, h2, h3⟩)
    · simp [target, Width.bytes, h2, h1]
    · have := offset_ge sp
      have h4 : ¬ a < 0x100 := by omega
      simp only [target, h1, ne_eq, not_true_eq_false, if_false, h4]
      cases h : locate c a w.bytes with
      | none => exact absurd ⟨h2, h3⟩ (locate_none h sp)
      | some q => rfl

/-- An access to a buffer reaches a buffer that holds it. -/
theorem target_of_inBuffer {c : Config} {sp : Space} {w : Width} {a : Nat} (h :
    InBuffer c sp a w.bytes) : ∃ q, target c w a = some (.buffer q) ∧ InBuffer c q a w.bytes := by
  have := (target_isSome_iff c w a).2 (.inr ⟨sp, h⟩)
  obtain ⟨t, ht⟩ := Option.isSome_iff_exists.1 this
  obtain ⟨h1, ⟨rfl, h2, rfl⟩ | ⟨q, rfl, h2, h3⟩⟩ := target_cases ht
  · have := offset_ge sp; have := h.2.1; omega
  · exact ⟨q, ht, h1, locate_some h3⟩

/-- The capacities of an admissible configuration. -/
theorem capacities_of_wf {c : Config} (h : c.wf = true) :
    1 ≤ c.inMax ∧ c.inMax ≤ 2^20 ∧ 1 ≤ c.outMax ∧ c.outMax ≤ 2^20 := by
  simp [Config.wf, Config.capacityWf] at h
  omega

/-- The buffers do not overlap. -/
theorem inBuffer_unique {c : Config} {p q : Space} {a n : Nat} (hc : c.wf = true) (hn : 0 < n)
    (h1 : InBuffer c p a n) (h2 : InBuffer c q a n) : p = q := by
  have := capacities_of_wf hc
  obtain ⟨_, h1, h1'⟩ := h1
  obtain ⟨_, h2, h2'⟩ := h2
  cases p <;> cases q <;> simp [Space.offset, Space.size] at * <;> omega

/-- The bound of a little-endian number. -/
theorem leNat_lt (B : Bytes) : leNat B < 2 ^ (8 * B.length) := by
  induction B with
  | nil => simp [leNat]
  | cons b B ih =>
    simp only [leNat, List.length_cons, Nat.mul_add, Nat.pow_add]
    have := b.isLt
    omega

/-- The bytes of a little-endian number. -/
theorem leNat_byte (B : Bytes) : ∀ i (h : i < B.length), leNat B / 2 ^ (8 * i)
    % 256 = B[i].toNat := by
  induction B with
  | nil => intro i h; simp at h
  | cons b B ih =>
    intro i h
    cases i with
    | zero => simp [leNat]; omega
    | succ i =>
      have := b.isLt
      have e : 2 ^ (8 * (i+1)) = 256 * 2 ^ (8 * i) := by rw [Nat.mul_add, Nat.pow_add]; exact Nat.mul_comm _ _
      rw [e, ← Nat.div_div_eq_div_mul, leNat]
      have : (b.toNat + 256 * leNat B) / 256 = leNat B := by omega
      rw [this]; simpa using ih i (by simpa using h)

/-- The bytes of the little-endian form. -/
theorem bytesLe_get (k v : Nat) : ∀ i (h : i < (bytesLe k v).length),
    (bytesLe k v)[i] = BitVec.ofNat 8 (v / 2 ^ (8 * i)) := by
  induction k generalizing v with
  | zero => intro i h; simp [bytesLe] at h
  | succ k ih =>
    intro i h
    cases i with
    | zero => simp [bytesLe]
    | succ i =>
      simp only [bytesLe, List.getElem_cons_succ]
      rw [ih]
      congr 1
      rw [Nat.div_div_eq_div_mul, Nat.mul_add, Nat.pow_add]; congr 1; exact Nat.mul_comm _ _

/-- Everything one admitted access can do. -/
theorem hostAccess_cases {s t : State} {a : Access} (h : hostAccess a s = .next t) :
  (∃ v, t = s.respond v) ∨ t = { s with resp := .written } ∨
  (∃ v, a = ctrlWrite v ∧ t = { s.writeCtrl v with resp := .written }) ∨
  (s.phase ≠ .busy ∧ ∃ off v, a = .write .w32 off v ∧ off.toNat < 0x100 ∧ off ≠ 0x10 ∧ (off = 0x18 → t.ie = v.getLsbD 0) ∧ (off ≠ 0x18 → t.ie = s.ie) ∧
    t = { s with cmd := t.cmd, ie := t.ie, inLen := t.inLen, alphaLen := t.alphaLen, keyLen := t.keyLen, ivLen := t.ivLen, resp := .written }) ∨
  (s.phase ≠ .busy ∧ ∃ w off v sp, a = .write w off v ∧ sp ≠ .output ∧ InBuffer s.cfg sp off.toNat w.bytes ∧
    t = { s with mem := s.mem.setBytes off.toNat (bytesLe w.bytes v.toNat), resp := .written }) := by
  cases a with
  | read w off =>
    rcases busRead_cases s w off.toNat with ⟨_, h'⟩ | ⟨v, _, h'⟩
    · rw [show hostAccess (.read w off) s = busRead s w off.toNat from rfl, h'] at h; cases h
    · rw [show hostAccess (.read w off) s = busRead s w off.toNat from rfl, h'] at h; cases h; exact .inl ⟨v, rfl⟩
  | write w off v =>
    right
    rcases busWrite_cases s w off.toNat v with ⟨_, h'⟩ | ⟨ht, h'⟩ | ⟨sp, ht, h'⟩ <;>
      rw [show hostAccess (.write w off v) s = busWrite s w off.toNat v from rfl, h'] at h <;> cases h
    · obtain ⟨_, ⟨_, h3, rfl⟩ | ⟨q, h2, h3, h4⟩⟩ := target_cases ht
      · rcases State.writePage_cases s off.toNat v with e | ⟨e, e2⟩ | ⟨e1, e2⟩
        · exact .inl (by rw [e])
        · right; right; left
          refine ⟨e, off, v, rfl, h3, ?_⟩
          have hne : ∀ r : Reg, off.toNat = r.offset → off = BitVec.ofNat 22 r.offset := by
            intro r hr; rw [← hr]; simp
          rcases e2 with ⟨a, e2⟩ | ⟨a, e2⟩ | ⟨a, e2⟩ | ⟨a, e2⟩ | ⟨a, e2⟩ | ⟨a, e2⟩ <;> rw [e2] <;> rw [hne _ a] <;>
            refine ⟨by decide, ?_, ?_, rfl⟩ <;> intro h <;> (try rfl) <;> exact absurd h (by decide)
        · right; left
          have : off = 0x10 := BitVec.eq_of_toNat_eq e1
          subst this
          exact ⟨v, rfl, by rw [e2]⟩
      · cases h2
    · obtain ⟨h1, ⟨h2, _⟩ | ⟨q, h2, h3, h4⟩⟩ := target_cases ht
      · cases h2
      · cases h2
        rcases State.writeBuffer_cases s sp off.toNat w v with ⟨_, e⟩ | ⟨h5, h6, e⟩
        · exact .inl (by rw [e])
        · right; right; right
          exact ⟨h5, w, off, v, sp, rfl, h6, ⟨h1, locate_some h4⟩, by rw [e]⟩

/-- An offset inside a buffer is mapped. -/
theorem mapped_of_inBuffer {c : Config} {sp : Space} {a : Nat} (h1 : sp.offset ≤ a) (h2 :
    a < sp.offset + sp.size c) : mapped c a = true := by
  unfold mapped
  cases h : locate c a 1 with
  | none => exact absurd ⟨h1, by omega⟩ (locate_none h sp)
  | some q => rfl

end Sys2Proof.Laws
end

