-- ==== Sys2Proof/Laws/HostScript.lean ====
section
/-! SUPPORT. What running a script and calling an operation can do (spec/30_encoding.md R107, R109). -/

namespace Sys2Proof.Machine

theorem State.opResult_of_done {s : State} (h : s.phase = .done) : s.opResult = .ok s.payload := by
  simp [State.opResult, h]

theorem State.opResult_of_not_done {s : State} (h : s.phase ≠ .done) :
    s.opResult = .error s.opError := by
  cases hp : s.phase <;> simp_all [State.opResult]

theorem run_of_next {M : Host.Core} {s u : M.State} (k : Nat) (h : M.step s = .next u) :
    M.run (k + 1) s = M.run k u := by simp [Host.Core.run, h]

/-- Steps run one after another. -/
theorem run_add {M : Host.Core} (a b : Nat) : ∀ {s t : M.State}, M.run a s = .next t →
    M.run (a + b) s = M.run b t := by
  induction a with
  | zero => intro s t h; cases h; rw [Nat.zero_add]
  | succ a ih =>
    intro s t h
    cases hs : M.step s with
    | next u =>
      rw [Nat.succ_add, run_of_next _ hs]
      exact ih ((run_of_next _ hs).symm.trans h)
    | fault r => simp [Host.Core.run, hs] at h
    | refused r => simp [Host.Core.run, hs] at h

/-- A run whose first step answers `u` goes on from `u`. -/
theorem core_run_of_step {s u : State} (k : Nat) (h : step s = .next u) :
    Sys2Proof.core.run (k + 1) s = Sys2Proof.core.run k u :=
  run_of_next (M := Sys2Proof.core) k h

theorem core_run_add {s t : State} (a b : Nat) (h : Sys2Proof.core.run a s = .next t) :
    Sys2Proof.core.run (a + b) s = Sys2Proof.core.run b t :=
  run_add (M := Sys2Proof.core) a b h

@[simp] theorem core_run_zero (s : State) : Sys2Proof.core.run 0 s = .next s := rfl

/-- What a call can do: the script runs to its end and the block's result is the answer, or an access of it
is not admitted. -/
theorem call_of_run {script : List Event} {s t : State}
    (h : Sys2Proof.core.run script.length { s with events := script } = .next t) :
    call script s = .next (t, t.opResult) := by
  simp [call, h]

@[simp] theorem length_byteWrites (a : Nat) (B : Bytes) : (byteWrites a B).length = B.length := by
  induction B generalizing a with
  | nil => rfl
  | cons b B ih => simp [byteWrites, ih]

@[simp] theorem length_ld (sp : Space) (B : Bytes) : (ld sp B).length = B.length + 1 := by
  simp [ld, wr]

@[simp] theorem ldGiven_none (sp : Space) : ldGiven sp none = [] := rfl

@[simp] theorem ldGiven_some (sp : Space) (B : Bytes) : ldGiven sp (some B) = ld sp B := rfl

@[simp] theorem length_command (i : Instr) : (command i).length = 2 := rfl

@[simp] theorem length_wait : wait.length = 2 := rfl

end Sys2Proof.Machine
end

