-- ==== Sys2Proof/Laws/PerInstr.lean ====
section
/-! SUPPORT. Per instruction: its words lie in its own row of the opcode map (spec/30_encoding.md
R96). -/

namespace Sys2Proof.Laws.EncodesInRow

/-- The word of the instruction matches the row of the opcode map that carries its mnemonic. -/
def Statement (i : Instr) : Prop :=
  ∃ r ∈ opcodeMap, r.mnemonic = i.mnemonic ∧ r.matches (encode i) = true

/-- A format-S word whose fields other than `OPC` and `MODE` are free meets its row's mask. -/
theorem wordS_matches (o : CipherOpts) (m : Mode) (d : Bool) :
    Row.matches ⟨"", .s, 0#21 ++ m.field ++ 0#4 ++ (2#3 ++ BitVec.ofBool d), 0xFFE0CFFF⟩
      (wordS o m.field (2#3 ++ BitVec.ofBool d)) = true := by
  obtain ⟨p, f, k, v, vt, t⟩ := o
  cases m <;> cases p <;> cases f <;> cases k <;> cases t <;> revert d v vt <;> decide +kernel

theorem bxe16 (ap : Bool) : Statement (.bxe16 ap) :=
  ⟨opcodeMap[0], List.getElem_mem _, rfl, by cases ap <;> rfl⟩

theorem bxe32 (ap : Bool) : Statement (.bxe32 ap) :=
  ⟨opcodeMap[1], List.getElem_mem _, rfl, by cases ap <;> rfl⟩

theorem bxe58 (ap : Bool) : Statement (.bxe58 ap) :=
  ⟨opcodeMap[2], List.getElem_mem _, rfl, by cases ap <;> rfl⟩

theorem bxe62 (ap : Bool) : Statement (.bxe62 ap) :=
  ⟨opcodeMap[3], List.getElem_mem _, rfl, by cases ap <;> rfl⟩

theorem bxe64 (ap : Bool) : Statement (.bxe64 ap) :=
  ⟨opcodeMap[4], List.getElem_mem _, rfl, by cases ap <;> rfl⟩

theorem bxe85 (ap : Bool) : Statement (.bxe85 ap) :=
  ⟨opcodeMap[5], List.getElem_mem _, rfl, by cases ap <;> rfl⟩

theorem bxe91 (ap : Bool) : Statement (.bxe91 ap) :=
  ⟨opcodeMap[6], List.getElem_mem _, rfl, by cases ap <;> rfl⟩

theorem bxd16 (ap : Bool) : Statement (.bxd16 ap) :=
  ⟨opcodeMap[7], List.getElem_mem _, rfl, by cases ap <;> rfl⟩

theorem bxd32 (ap : Bool) : Statement (.bxd32 ap) :=
  ⟨opcodeMap[8], List.getElem_mem _, rfl, by cases ap <;> rfl⟩

theorem bxd58 (ap : Bool) : Statement (.bxd58 ap) :=
  ⟨opcodeMap[9], List.getElem_mem _, rfl, by cases ap <;> rfl⟩

theorem bxd62 (ap : Bool) : Statement (.bxd62 ap) :=
  ⟨opcodeMap[10], List.getElem_mem _, rfl, by cases ap <;> rfl⟩

theorem bxd64 (ap : Bool) : Statement (.bxd64 ap) :=
  ⟨opcodeMap[11], List.getElem_mem _, rfl, by cases ap <;> rfl⟩

theorem bxd85 (ap : Bool) : Statement (.bxd85 ap) :=
  ⟨opcodeMap[12], List.getElem_mem _, rfl, by cases ap <;> rfl⟩

theorem bxd91 (ap : Bool) : Statement (.bxd91 ap) :=
  ⟨opcodeMap[13], List.getElem_mem _, rfl, by cases ap <;> rfl⟩

theorem sm4eEcb (o : CipherOpts) : Statement (.sm4eEcb o) :=
  ⟨opcodeMap[14], List.getElem_mem _, rfl, wordS_matches o .ecb false⟩

theorem sm4eCbc (o : CipherOpts) : Statement (.sm4eCbc o) :=
  ⟨opcodeMap[15], List.getElem_mem _, rfl, wordS_matches o .cbc false⟩

theorem sm4eCfb (o : CipherOpts) : Statement (.sm4eCfb o) :=
  ⟨opcodeMap[16], List.getElem_mem _, rfl, wordS_matches o .cfb false⟩

theorem sm4eOfb (o : CipherOpts) : Statement (.sm4eOfb o) :=
  ⟨opcodeMap[17], List.getElem_mem _, rfl, wordS_matches o .ofb false⟩

theorem sm4eCtr (o : CipherOpts) : Statement (.sm4eCtr o) :=
  ⟨opcodeMap[18], List.getElem_mem _, rfl, wordS_matches o .ctr false⟩

theorem sm4dEcb (o : CipherOpts) : Statement (.sm4dEcb o) :=
  ⟨opcodeMap[19], List.getElem_mem _, rfl, wordS_matches o .ecb true⟩

theorem sm4dCbc (o : CipherOpts) : Statement (.sm4dCbc o) :=
  ⟨opcodeMap[20], List.getElem_mem _, rfl, wordS_matches o .cbc true⟩

theorem sm4dCfb (o : CipherOpts) : Statement (.sm4dCfb o) :=
  ⟨opcodeMap[21], List.getElem_mem _, rfl, wordS_matches o .cfb true⟩

theorem sm4dOfb (o : CipherOpts) : Statement (.sm4dOfb o) :=
  ⟨opcodeMap[22], List.getElem_mem _, rfl, wordS_matches o .ofb true⟩

theorem sm4dCtr (o : CipherOpts) : Statement (.sm4dCtr o) :=
  ⟨opcodeMap[23], List.getElem_mem _, rfl, wordS_matches o .ctr true⟩

end Sys2Proof.Laws.EncodesInRow
end

