-- ==== Sys2Proof/Laws/StaticTable.lean ====
section
/-! SUPPORT. What the transform pairs of a configuration have by construction (spec/43_static_table_codec.md
R224), and that every encoder and decoder maps empty to empty (40_basex_front_end.md R120). -/

namespace Sys2Proof

@[simp] theorem stripWs_nil (ws : Bytes) : stripWs ws [] = [] := rfl

@[simp] theorem stripWs_none (T : Bytes) : stripWs [] T = T := by simp [stripWs]

/-- `P_rt85` of a pair that is not the default one. -/
theorem Config.rt85_of_other {c : Config} {n : Nat} (h : c.b85 = .other n) (hw : padChar ∉ c.ws) :
    c.Rt85 := fun D => by
  simp only [Config.b85Dec, Config.b85Enc, h]
  exact (c.other85 n).rt hw D

/-- `P_rt91` of a pair that is not the default one. -/
theorem Config.rt91_of_other {c : Config} {n : Nat} (h : c.b91 = .other n) : c.Rt91 := fun D => by
  simp only [Config.b91Dec, Config.b91Enc, h]
  simpa using (Config.other91 n).rt (by simp) D

@[simp] theorem Config.b85Enc_nil (c : Config) : c.b85Enc [] = [] := by
  unfold Config.b85Enc
  split
  · rfl
  · exact (c.other85 _).encEmpty

@[simp] theorem Config.b85Dec_nil (c : Config) : c.b85Dec [] = .ok [] := by
  unfold Config.b85Dec
  split
  · rfl
  · exact (c.other85 _).decEmpty

@[simp] theorem Config.b91Enc_nil (c : Config) : c.b91Enc [] = [] := by
  unfold Config.b91Enc
  split
  · rfl
  · exact (Config.other91 _).encEmpty

@[simp] theorem Config.b91Dec_nil (c : Config) : c.b91Dec [] = .ok [] := by
  unfold Config.b91Dec
  split
  · rfl
  · exact (Config.other91 _).decEmpty

/-- A fixed-width encoder of positive width maps empty to empty, with and without padding. -/
theorem fwEncode_nil {g : Geometry} (h : 0 < g.w) (A : Bytes) (pad : Bool) :
    fwEncode g A pad [] = [] := by
  have hm : fwSymbols g 0 = 0 := Nat.div_eq_of_lt (by omega)
  cases pad <;> simp [fwEncode, fwDigits, fwPadding, hm]

/-- "each encoder maps empty to empty" (40_basex_front_end.md R120). -/
theorem Config.unitEncode_nil (c : Config) (b : Base) (ap : Bool) (A : Bytes) :
    c.unitEncode b ap A [] = [] := by
  cases b
  case b58 => rfl
  case b62 => rfl
  case b85 => exact c.b85Enc_nil
  case b91 => exact c.b91Enc_nil
  all_goals (simp only [Config.unitEncode]; apply fwEncode_nil; decide)

/-- "each decoder maps empty to empty" (40_basex_front_end.md R120). -/
theorem Config.unitDecode_nil (c : Config) (b : Base) (ap : Bool) (A : Bytes) :
    c.unitDecode b ap A [] = .ok [] := by
  cases b <;> cases ap <;> simp [Config.unitDecode] <;> rfl

end Sys2Proof
end

