-- ==== Sys2Proof/Tests/Slice0.lean ====
section
/-! SUPPORT. Tests: ill-formed terms that the checks refuse, command words written out from the encoding
tables of spec/30_encoding.md, one step of every command on a vector of spec/95_test_vectors.md, a few bus
accesses, and a witness for the hypotheses of every statement. Expected values come from the spec. -/

namespace Sys2Proof.Tests

open Sys2Proof.Machine Sys2Proof.Claims

set_option Elab.async false

/-! ## Helpers -/

/-- The bytes of an ASCII text. -/
def ascii (s : String) : Bytes := s.toList.map (fun c => BitVec.ofNat 8 c.toNat)

/-- What `ld` leaves (30_encoding.md R107). -/
def load (sp : Space) (B : Bytes) (s : State) : State :=
  let t := { s with mem := s.mem.setBytes sp.offset B }
  match sp with
  | .input => { t with inLen := BitVec.ofNat 32 B.length }
  | .alpha => { t with alphaLen := BitVec.ofNat 32 B.length }
  | .key => { t with keyLen := BitVec.ofNat 32 B.length }
  | .iv => { t with ivLen := BitVec.ofNat 32 B.length }
  | .output => t

/-- A state with this input. -/
def withIn (B : Bytes) : State := load .input B State.reset

/-- A state with this input and this alphabet. -/
def withAlpha (A B : Bytes) : State := load .alpha A (withIn B)

/-- `K` of 95_test_vectors.md. -/
def keyText : Bytes := ascii "1234567890123456"

/-- `P` of 95_test_vectors.md. -/
def plain : Bytes := ascii "0123456789abcdeffedcba9876543210"

/-- A state with this input, and `K` as key and as IV. -/
def withKeyIv (B : Bytes) : State := load .iv keyText (load .key keyText (withIn B))

/-- One step runs the command word `w` to DONE with the payload `B`. -/
def ends (w : Nat) (s : State) (B : Bytes) : Bool :=
  match step (s.withFetchWord 32 w) with
  | .next t => t.phase == .done && t.err == 0 && t.outLen == word B.length && t.payload == B
  | .fault _ => false
  | .refused _ => false

/-- One step runs the command word `w` to FAULT with this code and these detail words. -/
def faultsAt (w : Nat) (s : State) (c : Byte) (i0 i1 i2 : Word) : Bool :=
  match step (s.withFetchWord 32 w) with
  | .next t => t.phase == .fault && t.err == c && t.outLen == 0 && t.errInfo0 == i0
      && t.errInfo1 == i1 && t.errInfo2 == i2
  | .fault _ => false
  | .refused _ => false

/-- The answer to an access, and whether it is admitted. -/
def answer (a : Access) (s : State) : Option BusResp :=
  match hostAccess a s with
  | .next t => some t.resp
  | .fault _ => none
  | .refused _ => none

/-! ## Well-formedness refuses ill-formed terms -/

/-- 30_encoding.md R101 (a); rows W1 to W3. -/
theorem test_illFormed_opc :
    CmdWord.opcLegal 0x00000000 = false ∧ CmdWord.opcLegal 0x00000001 = false ∧
      CmdWord.opcLegal 0x0000400F = false ∧ CmdWord.wellFormed 0x0000400F = false ∧
      decode 0x0000400F = .error .illegal := by decide

/-- R101 (b); rows W4 to W7. -/
theorem test_illFormed_reservedX :
    CmdWord.reservedX 0x00004022 = false ∧ CmdWord.reservedX 0x00014002 = false ∧
      CmdWord.reservedX 0x80004003 = false ∧ CmdWord.wellFormed 0x00011102 = false ∧
      decode 0x00011102 = .error .illegal := by decide

/-- R102; rows W8 to W11. -/
theorem test_illFormed_base :
    CmdWord.baseKnown 0x00001102 = false ∧ CmdWord.baseKnown 0x00000002 = false ∧
      CmdWord.baseKnown 0x0000FF13 = false ∧ CmdWord.wellFormed 0x00003902 = false ∧
      decode 0x00003902 = .error (.unknownBase 57) := by decide

/-- R101 (c); rows W12 to W15. -/
theorem test_illFormed_reservedS :
    CmdWord.reservedS 0x00000014 = false ∧ CmdWord.reservedS 0x00000804 = false ∧
      CmdWord.reservedS 0x00004004 = false ∧ CmdWord.reservedS 0x00200004 = false ∧
      CmdWord.wellFormed 0x00200004 = false ∧ decode 0x00200004 = .error .illegal := by decide

/-- R101 (d), (e); rows W16 to W19. -/
theorem test_illFormed_modePad :
    CmdWord.modeLegal 0x00000504 = false ∧ CmdWord.modeLegal 0x00000705 = false ∧
      CmdWord.padLegal 0x00003004 = false ∧ CmdWord.wellFormed 0x00000504 = false ∧
      CmdWord.wellFormed 0x00003004 = false ∧ decode 0x00003104 = .error .illegal := by decide

/-- 00_scope.md R13: the default configuration is admissible, each ill-formed one is not. -/
theorem test_illFormed_config :
    Config.default.wf = true ∧ { Config.default with inMax := 0 }.capacityWf = false ∧
      { Config.default with outMax := 2 ^ 20 + 1 }.capacityWf = false ∧
      { Config.default with ws := [0x3D] }.wsWf = false ∧
      { Config.default with ws := [0x41] }.wsWf = false ∧
      alphabetWf wsDefault 58 (a58Default.take 57) = false ∧
      alphabetWf wsDefault 2 [0x41, 0x41] = false ∧ alphabetWf wsDefault 2 [0x41, 0x80] = false ∧
      alphabetWf wsDefault 2 [0x41, 0x20] = false ∧
      { Config.default with ctrWidth := 0 }.ctrWf = false ∧
      { Config.default with ctrWidth := 129 }.ctrWf = false := by decide +kernel

/-! ## Decoding: words written from the tables, fields from bit 31 down -/

/-- 30_encoding.md R92, R94: reserved, `BASE`, reserved, `AP`, `OPC`. -/
theorem test_decode_bxe :
    decode 0b0000000000000000_00010000_000_0_0010 = .ok (.bxe16 false) ∧
      decode 0b0000000000000000_00100000_000_0_0010 = .ok (.bxe32 false) ∧
      decode 0b0000000000000000_00111010_000_0_0010 = .ok (.bxe58 false) ∧
      decode 0b0000000000000000_00111110_000_0_0010 = .ok (.bxe62 false) ∧
      decode 0b0000000000000000_01000000_000_1_0010 = .ok (.bxe64 true) ∧
      decode 0b0000000000000000_01010101_000_0_0010 = .ok (.bxe85 false) ∧
      decode 0b0000000000000000_01011011_000_0_0010 = .ok (.bxe91 false) := by decide

/-- R92, R94. -/
theorem test_decode_bxd :
    decode 0b0000000000000000_00010000_000_0_0011 = .ok (.bxd16 false) ∧
      decode 0b0000000000000000_00100000_000_0_0011 = .ok (.bxd32 false) ∧
      decode 0b0000000000000000_00111010_000_1_0011 = .ok (.bxd58 true) ∧
      decode 0b0000000000000000_00111110_000_0_0011 = .ok (.bxd62 false) ∧
      decode 0b0000000000000000_01000000_000_0_0011 = .ok (.bxd64 false) ∧
      decode 0b0000000000000000_01010101_000_0_0011 = .ok (.bxd85 false) ∧
      decode 0b0000000000000000_01011011_000_0_0011 = .ok (.bxd91 false) := by decide

/-- R93, R94: reserved, `IVT`, `IVTP`, `IVP`, `KT`, `FMT`, reserved, `PAD`, reserved, `MODE`, reserved,
`OPC`; a different field set in each word. -/
theorem test_decode_sm4e :
    decode 0b00000000000_0_0_0_0_0_00_00_0_000_0000_0100 =
        .ok (.sm4eEcb ⟨.pkcs7, .hex, .text, false, false, .text⟩) ∧
      decode 0b00000000000_0_0_0_0_1_00_01_0_001_0000_0100 =
        .ok (.sm4eCbc ⟨.zero, .base64, .text, false, false, .text⟩) ∧
      decode 0b00000000000_0_0_0_1_0_00_10_0_010_0000_0100 =
        .ok (.sm4eCfb ⟨.none, .hex, .hex, false, false, .text⟩) ∧
      decode 0b00000000000_0_0_1_0_0_00_00_0_011_0000_0100 =
        .ok (.sm4eOfb ⟨.pkcs7, .hex, .text, true, false, .text⟩) ∧
      decode 0b00000000000_0_1_0_0_0_00_00_0_100_0000_0100 =
        .ok (.sm4eCtr ⟨.pkcs7, .hex, .text, false, true, .text⟩) := by decide

/-- R93, R94. -/
theorem test_decode_sm4d :
    decode 0b00000000000_1_0_0_0_0_00_00_0_000_0000_0101 =
        .ok (.sm4dEcb ⟨.pkcs7, .hex, .text, false, false, .hex⟩) ∧
      decode 0b00000000000_1_1_1_1_1_00_10_0_001_0000_0101 =
        .ok (.sm4dCbc ⟨.none, .base64, .hex, true, true, .hex⟩) ∧
      decode 0b00000000000_0_1_1_0_0_00_01_0_010_0000_0101 =
        .ok (.sm4dCfb ⟨.zero, .hex, .text, true, true, .text⟩) ∧
      decode 0b00000000000_1_1_1_0_0_00_00_0_011_0000_0101 =
        .ok (.sm4dOfb ⟨.pkcs7, .hex, .text, true, true, .hex⟩) ∧
      decode 0b00000000000_0_0_0_1_1_00_10_0_100_0000_0101 =
        .ok (.sm4dCtr ⟨.none, .base64, .hex, false, false, .text⟩) := by decide

/-- The examples of R106. -/
theorem test_decode_examples :
    decode 0x00004002 = .ok (.bxe64 false) ∧ decode 0x00003A13 = .ok (.bxd58 true) ∧
      decode 0x000C0104 = .ok (.sm4eCbc ⟨.pkcs7, .hex, .text, true, true, .text⟩) ∧
      decode 0x001F2405 = .ok (.sm4dCtr ⟨.none, .base64, .hex, true, true, .hex⟩) ∧
      decode 0x00001004 = .ok (.sm4eEcb ⟨.zero, .hex, .text, false, false, .text⟩) := by decide

/-- The same words through the table's numbering; a word with nothing known of it is refused. -/
theorem test_decodeTableWord :
    decodeTableWord 32 0x00004002 = some (.bxe64 false) ∧ decodeTableWord 32 0x00001102 = none := by
  decide

/-! ## One step of every command -/

/-- Rows F3, F13. -/
theorem test_bxe16 : ends 0x00001002 (withIn (ascii "foobar")) (ascii "666f6f626172") = true ∧
    ends 0x00001012 (withAlpha (ascii "ABCDEFGHIJKLMNOP") [0x01, 0xAF]) (ascii "ABKP") = true := by
  decide +kernel

/-- Row F18; the custom form is unpadded, row F35. -/
theorem test_bxe32 : ends 0x00002002 (withIn (ascii "f")) (ascii "MY======") = true ∧
    ends 0x00002012 (withAlpha (ascii "0123456789ABCDEFGHIJKLMNOPQRSTUV") (ascii "fo"))
      (ascii "CPNG") = true := by decide +kernel

/-- Rows B3, B8. -/
theorem test_bxe58 : ends 0x00003A02 (withIn [0x00, 0x00, 0x01]) (ascii "112") = true ∧
    ends 0x00003A02 (withIn (ascii "Hello World!")) (ascii "2NEpo7TZRRrLZSi2U") = true := by
  decide +kernel

/-- Rows B17, B46. -/
theorem test_bxe62 :
    ends 0x00003E02 (withIn (ascii "Hello World!")) (ascii "T8dgcjRGkZ3aysdN") = true ∧
      ends 0x00003E12 (withAlpha (ascii "0123456789") [0x00, 0xFF]) (ascii "0255") = true := by
  decide +kernel

/-- Row F43. -/
theorem test_bxe64 : ends 0x00004002 (withIn [0xFB, 0xFF]) (ascii "+/8=") = true := by
  decide +kernel

/-- Row F60. -/
theorem test_bxe64_alphabetLength :
    faultsAt 0x00004012 (withAlpha (a64.take 63) (ascii "x")) 2 64 64 63 = true := by
  decide +kernel

/-- Rows S7, S10. -/
theorem test_bxe85 : ends 0x00005502 (withIn (ascii "abcde")) (ascii "@:E_WAH") = true ∧
    ends 0x00005502 (withIn [0xFF, 0xFF, 0xFF, 0xFF]) (ascii "s8W-!") = true := by decide +kernel

/-- Row W24. -/
theorem test_bxe85_alphabet : faultsAt 0x00005512 (withIn (ascii "a")) 3 85 0 0 = true := by
  decide +kernel

/-- Rows S37, S39. -/
theorem test_bxe91 :
    ends 0x00005B02 (withIn (ascii "Hello World!")) (ascii ">OwJh>Io0Tv!8PE") = true ∧
      ends 0x00005B02 (withIn [0xFF, 0xFF]) (ascii "B\"H") = true := by decide +kernel

/-- Rows F6, F7. -/
theorem test_bxd16 : ends 0x00001003 (withIn (ascii "666F6f626172")) (ascii "foobar") = true ∧
    ends 0x00001003 (withIn (ascii "66 6f\n6f")) (ascii "foo") = true := by decide +kernel

/-- Row F11. -/
theorem test_bxd16_utf8 : faultsAt 0x00001003 (withIn (ascii "ff")) 5 0 0 0 = true := by
  decide +kernel

/-- Row F36, and row F33 for the bits left over. -/
theorem test_bxd32 :
    ends 0x00002013 (withAlpha (ascii "0123456789ABCDEFGHIJKLMNOPQRSTUV") (ascii "CPNG"))
      (ascii "fo") = true ∧
      faultsAt 0x00002003 (withIn (ascii "MZXR====")) 4 4 0 0 = true := by decide +kernel

/-- Rows B21, B42. -/
theorem test_bxd58 : ends 0x00003A03 (withIn (ascii "112")) [0x00, 0x00, 0x01] = true ∧
    ends 0x00003A13 (withAlpha (ascii "01") (ascii "01000001")) [0x00, 0x41] = true := by
  decide +kernel

/-- Rows B35, B48. -/
theorem test_bxd62 :
    ends 0x00003E03 (withIn (ascii "T8dgcjRGkZ3aysdN")) (ascii "Hello World!") = true ∧
      ends 0x00003E13 (withAlpha (ascii "0123456789") (ascii "0065")) [0x00, 0x00, 0x41] = true := by
  decide +kernel

/-- Rows F47, F53. -/
theorem test_bxd64 : ends 0x00004003 (withIn (ascii "Zg==")) (ascii "f") = true ∧
    faultsAt 0x00004003 (withIn (ascii "Z=g=")) 4 2 0 0 = true := by decide +kernel

/-- Rows S16, S21. -/
theorem test_bxd85 : ends 0x00005503 (withIn (ascii "@:E_WAH")) (ascii "abcde") = true ∧
    faultsAt 0x00005503 (withIn (ascii "s8W-\"")) 4 7 0 0 = true := by decide +kernel

/-- Rows S47, S48: not canonical, and not stripped. -/
theorem test_bxd91 :
    ends 0x00005B03 (withIn (ascii "#G(Ic,5ph#77&xrmlrjg")) (ascii "abcdefghijklmnop") = true ∧
      faultsAt 0x00005B03 (withIn (ascii "fPN Kd")) 4 1 0 0 = true := by decide +kernel

/-- `V.ECB` to `V.CTR` of 95_test_vectors.md, measured vectors of the document (E5 to E9). -/
def vector : Mode → Bytes
  | .ecb => ascii ("ba611296fd1f3f27299eff1c29b18d63" ++ "de48b88f34351e6d653b381ce1355ca6"
      ++ "6c88f739af2a29a735381f5677badef7")
  | .cbc => ascii ("50aaf1ea1040e2b564a39f88d79f1401" ++ "19d813b078261d344cb6eff909384015"
      ++ "265d7cc8adfe8d99477442fb5912539d")
  | .cfb => ascii ("80b2eef39dc37deec2db9beef00a5811" ++ "1ca93628ee96ad2c29c91379c729c05f"
      ++ "649c4bd0852ddde13384464c912e6c22")
  | .ofb => ascii ("80b2eef39dc37deec2db9beef00a5811" ++ "052c7433380b380f300571626d4498fe"
      ++ "cad5947e958e9f1823260b144963213a")
  | .ctr => ascii ("80b2eef39dc37deec2db9beef00a5811" ++ "28692ce012c17cfd95986ded8b1c824f"
      ++ "a629037b38944cc69e23312e2f94dbf6")

/-- Row M1. -/
theorem test_sm4eEcb : ends 0x00000004 (withKeyIv plain) (vector .ecb) = true := by decide +kernel

/-- Row M2. -/
theorem test_sm4eCbc : ends 0x000C0104 (withKeyIv plain) (vector .cbc) = true := by decide +kernel

/-- Row M3. -/
theorem test_sm4eCfb : ends 0x000C0204 (withKeyIv plain) (vector .cfb) = true := by decide +kernel

/-- Row M4. -/
theorem test_sm4eOfb : ends 0x000C0304 (withKeyIv plain) (vector .ofb) = true := by decide +kernel

/-- Row M5. -/
theorem test_sm4eCtr : ends 0x000C0404 (withKeyIv plain) (vector .ctr) = true := by decide +kernel

/-- Row M6. -/
theorem test_sm4dEcb : ends 0x00000005 (withKeyIv (vector .ecb)) plain = true := by decide +kernel

/-- Row M7. -/
theorem test_sm4dCbc : ends 0x000C0105 (withKeyIv (vector .cbc)) plain = true := by decide +kernel

/-- Row M8. -/
theorem test_sm4dCfb : ends 0x000C0205 (withKeyIv (vector .cfb)) plain = true := by decide +kernel

/-- Row M9. -/
theorem test_sm4dOfb : ends 0x000C0305 (withKeyIv (vector .ofb)) plain = true := by decide +kernel

/-- Row M10. -/
theorem test_sm4dCtr : ends 0x000C0405 (withKeyIv (vector .ctr)) plain = true := by decide +kernel

/-- Rows M46, M26: Zero padding of whole blocks, and of five bytes in a stream mode. -/
theorem test_sm4e_zeroPadding :
    ends 0x00001004 (withKeyIv (ascii "0123456789abcdef"))
      (ascii "ba611296fd1f3f27299eff1c29b18d63") = true ∧
      ends 0x000C1404 (withKeyIv (ascii "hello")) (ascii "d8e6b0acc6f64bd9fae2fa8c936e3d77") =
        true := by decide +kernel

/-- Rows M13, M74: Base64 out and in. -/
theorem test_sm4_base64 :
    ends 0x000D0204 (withKeyIv plain)
      (ascii "gLLu853Dfe7C25vu8ApYERypNijulq0sKckTeccpwF9knEvQhS3d4TOERkyRLmwi") = true ∧
      ends 0x00012005 (withKeyIv (ascii "umESlv0fPycpnv8cKbGNYw==")) (ascii "0123456789abcdef") =
        true := by decide +kernel

/-- Row M67: five bytes; row M47: the last byte 0x00. -/
theorem test_sm4d_corners :
    ends 0x000C2305 (withKeyIv (ascii "d8e6b0acc6")) (ascii "hello") = true ∧
      faultsAt 0x00000005 (withKeyIv (ascii "5b9bf4ff59f443f3035e47a582308157")) 10 0 0 0 =
        true := by decide +kernel

/-- Row M94: the counter wraps. -/
theorem test_sm4e_counterWrap :
    ends 0x001C2404
      (load .iv (List.replicate 32 0x66) (withKeyIv (List.replicate 32 0x00)))
      (ascii "64841fad74894db3300d742302b6b6ebd2d68ed9fe06cb40c9a150aa5917f15f") = true := by
  decide +kernel

/-- Rows M86, M90, M91: the order of the key, the gate and the IV. -/
theorem test_sm4_faultOrder :
    faultsAt 0x00040104 (withKeyIv (ascii "x")) 7 0 0 0 = true ∧
      faultsAt 0x00000104 (load .key (ascii "123") (withIn (ascii "x"))) 8 0 16 3 = true ∧
      faultsAt 0x00040104 (load .iv (ascii "123") (withKeyIv (ascii "x"))) 7 0 0 0 = true := by
  decide +kernel

/-! ## The bus -/

/-- 10_state.md R23, 20_memory.md R64 to R66: the page takes aligned 32-bit accesses only. -/
theorem test_bus_page : answer (.read .w32 0x000) State.reset = some (.data 0x544B4345) ∧
    answer (.read .w8 0x000) State.reset = none ∧ answer (.read .w32 0x002) State.reset = none ∧
    answer (.read .w32 0x0FC) State.reset = some (.data 0) := by decide +kernel

/-- R61, R65: the last bytes of the buffers, and the holes behind them. -/
theorem test_bus_edges : answer (.write .w32 0x0001FC 1) State.reset = some .written ∧
    answer (.write .w8 0x00027F 1) State.reset = some .written ∧
    answer (.write .w8 0x000280 1) State.reset = none ∧
    answer (.write .w16 0x10FFFE 1) State.reset = some .written ∧
    answer (.write .w8 0x110000 1) State.reset = none ∧
    answer (.read .w16 0x100001) State.reset = none := by decide +kernel

/-- R62: little-endian. -/
theorem test_bus_bytes :
    answer (.read .w32 0x100000) (withIn (ascii "TKCE")) = some (.data 0x45434B54) ∧
      answer (.read .w8 0x100001) (withIn (ascii "TKCE")) = some (.data 0x4B) := by decide +kernel

/-- 10_state.md R27, R56: `STATUS` after a fault, and the interrupt. -/
theorem test_status_irq :
    { State.reset with phase := .fault, err := 2, ie := true }.status = 0x00000203 ∧
      { State.reset with phase := .fault, err := 2, ie := true }.irq = true ∧
      { State.reset with phase := .busy, ie := true }.irq = false := by decide

/-! ## Witnesses: a state and operands that meet the hypotheses of each statement -/

/-- A command in flight. -/
def busy (w : Word) (s : State) : State := { s with phase := .busy, cmd := w }

/-- The state with these pending events. -/
def pending (es : List Event) (s : State) : State := { s with events := es }

/-- The state after an instruction. -/
def after (i : Instr) (s : State) : State :=
  match exec i s with
  | .next t => t
  | .fault _ => s
  | .refused _ => s

/-- The state after a step. -/
def stepped (s : State) : State :=
  match step s with
  | .next t => t
  | .fault _ => s
  | .refused _ => s

/-- The state with buffers of 8 bytes. -/
def small (s : State) : State := { s with cfg := { Config.default with inMax := 8, outMax := 8 } }

/-- The custom alphabet in ALPHA is accepted. -/
theorem customIs {s : State} {b : Base} (hl : AlphaLenOk s.alphaLen.toNat b)
    (ha : (customAlphabet s).all (fun c => decide (c.toNat < 0x80)) = true)
    (hn : (customAlphabet s).Nodup) : AlphabetIs s b true (customAlphabet s) :=
  .inr ⟨rfl, rfl, hl, fun c hc => by simpa using List.all_eq_true.1 ha c hc, hn⟩

/-- The default alphabet is an alphabet. -/
theorem defaultIs (s : State) (b : Base) : AlphabetIs s b false (s.cfg.defaultAlphabet b) :=
  .inl ⟨rfl, rfl⟩

/-- A Text string of 16 bytes. -/
theorem textIs {s : State} {f : KeyField} (h : s.strLen f = 16) :
    StringIs s f .text (blockOf (s.fetch f.space 16)) := .inl ⟨rfl, h, rfl⟩

/-- A Hex string of 32 digits. -/
theorem hexIs {s : State} {f : KeyField} {R : Bytes} (h : s.strLen f = 32)
    (hR : hexDecode (s.fetch f.space 32) = .ok R) : StringIs s f .hex (blockOf R) :=
  .inr ⟨rfl, h, R, hR, rfl⟩

/-- `K` as a block. -/
def keyBlk : Block := 0x31323334353637383930313233343536

/-- Text key and IV, PKCS7, Hex. -/
def opts (p : Pad) : CipherOpts := ⟨p, .hex, .text, true, true, .text⟩

/-- Hex key and IV. -/
def hexOpts : CipherOpts := ⟨.pkcs7, .base64, .hex, true, true, .hex⟩

/-- `K` in hex digits. -/
def hexKey : Bytes := ascii "31323334353637383930313233343536"

theorem load_mem (sp : Space) (B : Bytes) (s : State) :
    (load sp B s).mem = s.mem.setBytes sp.offset B := by cases sp <;> rfl

/-- The key reads back, whatever the input. -/
theorem fetch_key_of (k v B : Bytes) (h : k.length ≤ 64) :
    (load .iv v (load .key k (withIn B))).bytesAt Space.key.offset k.length = k :=
  State.bytesAt_eq_of_get fun i hi => by
    rw [load_mem, load_mem, Memory.get_setBytes_out _ _ _ _ (by simp only [Space.offset]; omega)]
    exact Memory.get_setBytes_in _ _ _ _ hi

/-- The IV reads back, whatever the input. -/
theorem fetch_iv_of (v : Bytes) (s : State) :
    (load .iv v s).bytesAt Space.iv.offset v.length = v :=
  State.bytesAt_eq_of_get fun i hi => by
    rw [load_mem]
    exact Memory.get_setBytes_in _ _ _ _ hi

theorem keyText_length : keyText.length = 16 := by decide

theorem fetch_key (B : Bytes) : (withKeyIv B).fetch .key 16 = keyText := by
  rw [← keyText_length]
  exact fetch_key_of keyText keyText B (by rw [keyText_length]; decide)

theorem fetch_iv (B : Bytes) : (withKeyIv B).fetch .iv 16 = keyText := by
  rw [← keyText_length]
  exact fetch_iv_of keyText _

theorem key_is (B : Bytes) : StringIs (withKeyIv B) .key .text keyBlk := by
  refine .inl ⟨rfl, rfl, ?_⟩
  show keyBlk = blockOf ((withKeyIv B).fetch .key 16)
  rw [fetch_key]; decide +kernel

theorem iv_is (m : Mode) (p : Pad) (B : Bytes) : IvIs (withKeyIv B) m (opts p) keyBlk := by
  refine ⟨⟨fun _ => rfl, fun _ => rfl⟩, fun _ => .inl ⟨rfl, rfl, ?_⟩⟩
  show keyBlk = blockOf ((withKeyIv B).fetch .iv 16)
  rw [fetch_iv]; decide +kernel

/-- An invariant-keeping state of 8-byte buffers: a payload of two bytes in DONE. -/
def doneState : State := after (.bxe16 false) (small (withIn (ascii "f")))

theorem inv_doneState : doneState.Inv where
  cfgWf := by decide +kernel
  memWf := by decide +kernel
  memMapped := by decide +kernel
  errIff := by decide +kernel
  errLegal := by decide +kernel
  infoZero := by decide +kernel
  outLenZero := by decide +kernel
  outLenLe := by decide +kernel
  payload := by decide +kernel
  outUnspecified := by
    intro i h1 h2
    have h : ∀ i < 8, doneState.outLen.toNat ≤ i →
        doneState.mem.get (Space.output.offset + i) = none := by decide +kernel
    exact h i h2 h1

/-- The same, in BUSY. -/
def busyState : State := busy 0x00001002 (small (withIn (ascii "f")))

theorem inv_busyState : busyState.Inv where
  cfgWf := by decide +kernel
  memWf := by decide +kernel
  memMapped := by decide +kernel
  errIff := by decide +kernel
  errLegal := by decide +kernel
  infoZero := by decide +kernel
  outLenZero := by decide +kernel
  outLenLe := by decide +kernel
  payload := by decide +kernel
  outUnspecified := by
    intro i _ h2
    have h : ∀ i < 8, busyState.mem.get (Space.output.offset + i) = none := by decide +kernel
    exact h i h2

/-! ### The encoding and the step -/

theorem witness_WordsThatAreNoCommandFault :
    (busy 0x00003004 State.reset).phase = .busy ∧ CmdWord.legal 0x00003004 = false ∧
      CmdWord.isX 0x0000FF13 = true ∧ CmdWord.reservedX 0x0000FF13 = true ∧
      CmdWord.baseKnown 0x0000FF13 = false := by decide

theorem witness_DontCareBits :
    (⟨.pkcs7, .hex, .text, true, false, .text⟩ : CipherOpts).ivtp = false ∧
      (Mode.ecb = .ecb ∧ (opts .zero).ivtp = true) ∧ (Base.b85 = .b85 ∨ Base.b85 = .b91) ∧
      (Base.b91 = .b85 ∨ Base.b91 = .b91) := by decide

theorem witness_StepRunsDecodedCommand :
    busyState.phase = .busy ∧ decode busyState.cmd = .ok (.bxe16 false) ∧ busyState.events = [] ∧
      (pending [.engineTurn, .hardReset] busyState).events = .engineTurn :: [.hardReset] := by
  decide +kernel

theorem witness_HostStartsCommand :
    (pending (command (.bxe64 true) ++ [.engineTurn]) doneState).phase ≠ .busy ∧
      (pending (command (.bxe64 true) ++ [.engineTurn]) doneState).events =
        command (.bxe64 true) ++ .engineTurn :: [] := by decide +kernel

theorem witness_EngineStep :
    State.reset.phase ≠ .busy ∧ busyState.phase = .busy ∧
      decode (busy 0x00000001 State.reset).cmd = .error .illegal ∧
      decode (busy 0x00001102 State.reset).cmd = .error (.unknownBase 17) ∧
      decode busyState.cmd = .ok (Instr.ofBx .enc .b16 false) ∧
      decode (busy 0x000C0104 State.reset).cmd = .ok (Instr.ofSm4 .enc .cbc (opts .pkcs7)) := by
  decide +kernel

/-! ### What the commands compute -/

/-- Default and custom alphabets of the three bases; six bytes, one byte, an empty input. -/
theorem witness_FixedWidthEncodeResult :
    (let s := withIn (ascii "foobar");
      InputFits s ∧ AlphabetIs s .b16 false a16 ∧
        (fwEncode geo16 a16 false (input s)).length ≤ s.cfg.outMax) ∧
    (let s := withAlpha (ascii "ABCDEFGHIJKLMNOP") (ascii "f");
      InputFits s ∧ AlphabetIs s .b16 true (customAlphabet s) ∧
        (fwEncode geo16 (customAlphabet s) false (input s)).length ≤ s.cfg.outMax) ∧
    (let s := withIn (ascii "f");
      InputFits s ∧ AlphabetIs s .b32 false a32 ∧
        (fwEncode geo32 a32 true (input s)).length ≤ s.cfg.outMax) ∧
    (let s := withAlpha (ascii "0123456789ABCDEFGHIJKLMNOPQRSTUV") [];
      InputFits s ∧ AlphabetIs s .b32 true (customAlphabet s) ∧
        (fwEncode geo32 (customAlphabet s) false (input s)).length ≤ s.cfg.outMax) ∧
    (let s := withIn (ascii "fo");
      InputFits s ∧ AlphabetIs s .b64 false a64 ∧
        (fwEncode geo64 a64 true (input s)).length ≤ s.cfg.outMax) ∧
    (let s := withAlpha a64.reverse (ascii "fo");
      InputFits s ∧ AlphabetIs s .b64 true (customAlphabet s) ∧
        (fwEncode geo64 (customAlphabet s) false (input s)).length ≤ s.cfg.outMax) := by
  unfold InputFits
  exact ⟨⟨by decide +kernel, defaultIs _ _, by decide +kernel⟩,
    ⟨by decide +kernel,
      customIs (show _ = 16 by decide +kernel) (by decide +kernel) (by decide +kernel),
      by decide +kernel⟩,
    ⟨by decide +kernel, defaultIs _ _, by decide +kernel⟩,
    ⟨by decide +kernel,
      customIs (show _ = 32 by decide +kernel) (by decide +kernel) (by decide +kernel),
      by decide +kernel⟩,
    ⟨by decide +kernel, defaultIs _ _, by decide +kernel⟩,
    ⟨by decide +kernel,
      customIs (show _ = 64 by decide +kernel) (by decide +kernel) (by decide +kernel),
      by decide +kernel⟩⟩

/-- Default and custom alphabets of the three bases. -/
theorem witness_FixedWidthDecodeResult :
    (let s := withIn (ascii "66 6F");
      InputFits s ∧ AlphabetIs s .b16 false a16 ∧
        fwDecode geo16 a16 false true (stripWs s.cfg.ws (input s)) = .ok (ascii "fo") ∧
        utf8Valid (ascii "fo") = true ∧ (ascii "fo").length ≤ s.cfg.outMax) ∧
    (let s := withAlpha (ascii "ABCDEFGHIJKLMNOP") (ascii "GGGP");
      InputFits s ∧ AlphabetIs s .b16 true (customAlphabet s) ∧
        fwDecode geo16 (customAlphabet s) false false (stripWs s.cfg.ws (input s)) =
          .ok (ascii "fo")) ∧
    (let s := withIn (ascii "MZXQ====");
      InputFits s ∧ AlphabetIs s .b32 false a32 ∧
        fwDecode geo32 a32 true false (stripWs s.cfg.ws (input s)) = .ok (ascii "fo")) ∧
    (let s := withAlpha (ascii "0123456789ABCDEFGHIJKLMNOPQRSTUV") (ascii "CPNG");
      InputFits s ∧ AlphabetIs s .b32 true (customAlphabet s) ∧
        fwDecode geo32 (customAlphabet s) false false (stripWs s.cfg.ws (input s)) =
          .ok (ascii "fo")) ∧
    (let s := withIn (ascii "Zm8=");
      InputFits s ∧ AlphabetIs s .b64 false a64 ∧
        fwDecode geo64 a64 true false (stripWs s.cfg.ws (input s)) = .ok (ascii "fo")) ∧
    (let s := withAlpha a64 (ascii "Zm8");
      InputFits s ∧ AlphabetIs s .b64 true (customAlphabet s) ∧
        fwDecode geo64 (customAlphabet s) false false (stripWs s.cfg.ws (input s)) =
          .ok (ascii "fo")) := by
  unfold InputFits
  exact ⟨⟨by decide +kernel, defaultIs _ _, by decide +kernel, by decide +kernel, by decide +kernel⟩,
    ⟨by decide +kernel,
      customIs (show _ = 16 by decide +kernel) (by decide +kernel) (by decide +kernel),
      by decide +kernel⟩,
    ⟨by decide +kernel, defaultIs _ _, by decide +kernel⟩,
    ⟨by decide +kernel,
      customIs (show _ = 32 by decide +kernel) (by decide +kernel) (by decide +kernel),
      by decide +kernel⟩,
    ⟨by decide +kernel, defaultIs _ _, by decide +kernel⟩,
    ⟨by decide +kernel,
      customIs (show _ = 64 by decide +kernel) (by decide +kernel) (by decide +kernel),
      by decide +kernel⟩⟩

/-- The default alphabets, and custom alphabets of 2 and of 128 symbols. -/
theorem witness_BigIntEncodeResult :
    (let s := withIn [0x00, 0x01];
      InputFits s ∧ AlphabetIs s .b58 false s.cfg.a58 ∧ AlphabetIs s .b62 false s.cfg.a62 ∧
        (biEncode s.cfg.a58 (input s)).length ≤ s.cfg.outMax ∧
        (biEncode s.cfg.a62 (input s)).length ≤ s.cfg.outMax) ∧
    (let s := withAlpha (ascii "01") [0x05];
      InputFits s ∧ AlphabetIs s .b58 true (customAlphabet s) ∧
        (biEncode (customAlphabet s) (input s)).length ≤ s.cfg.outMax ∧
        AlphaLenOk s.alphaLen.toNat .b58) ∧
    (let s := withAlpha (byteRange 0 128) [0x05];
      InputFits s ∧ AlphabetIs s .b62 true (customAlphabet s) ∧
        (biEncode (customAlphabet s) (input s)).length ≤ s.cfg.outMax) := by
  unfold InputFits
  exact ⟨⟨by decide +kernel, defaultIs _ _, defaultIs _ _, by decide +kernel, by decide +kernel⟩,
    ⟨by decide +kernel,
      customIs (show 2 ≤ _ ∧ _ ≤ 256 by decide +kernel) (by decide +kernel) (by decide +kernel),
      by decide +kernel, show 2 ≤ _ ∧ _ ≤ 256 by decide +kernel⟩,
    ⟨by decide +kernel,
      customIs (show 2 ≤ _ ∧ _ ≤ 256 by decide +kernel) (by decide +kernel) (by decide +kernel),
      by decide +kernel⟩⟩

/-- The default alphabets, and custom alphabets of 2 and of 10 symbols. -/
theorem witness_BigIntDecodeResult :
    (let s := withIn (ascii "12g");
      InputFits s ∧ AlphabetIs s .b58 false s.cfg.a58 ∧
        biDecode s.cfg.a58 (stripWs s.cfg.ws (input s)) = .ok [0x00, 0x61]) ∧
    (let s := withIn (ascii "1Z");
      InputFits s ∧ AlphabetIs s .b62 false s.cfg.a62 ∧
        biDecode s.cfg.a62 (stripWs s.cfg.ws (input s)) = .ok [0x61]) ∧
    (let s := withAlpha (ascii "01") (ascii "01000001");
      InputFits s ∧ AlphabetIs s .b58 true (customAlphabet s) ∧
        biDecode (customAlphabet s) (stripWs s.cfg.ws (input s)) = .ok [0x00, 0x41]) ∧
    (let s := withAlpha (ascii "0123456789") (ascii "65");
      InputFits s ∧ AlphabetIs s .b62 true (customAlphabet s) ∧
        biDecode (customAlphabet s) (stripWs s.cfg.ws (input s)) = .ok [0x41]) ∧
    utf8Valid [0x00, 0x61] = true ∧ utf8Valid [0x61] = true ∧ utf8Valid [0x00, 0x41] = true ∧
      utf8Valid [0x41] = true := by
  unfold InputFits
  exact ⟨⟨by decide +kernel, defaultIs _ _, by decide +kernel⟩,
    ⟨by decide +kernel, defaultIs _ _, by decide +kernel⟩,
    ⟨by decide +kernel,
      customIs (show 2 ≤ _ ∧ _ ≤ 256 by decide +kernel) (by decide +kernel) (by decide +kernel),
      by decide +kernel⟩,
    ⟨by decide +kernel,
      customIs (show 2 ≤ _ ∧ _ ≤ 256 by decide +kernel) (by decide +kernel) (by decide +kernel),
      by decide +kernel⟩, by decide, by decide, by decide, by decide⟩

theorem witness_StaticTableResult :
    (let s := withIn (ascii "abcde");
      InputFits s ∧ (s.cfg.b85Enc (input s)).length ≤ s.cfg.outMax ∧
        (s.cfg.b91Enc (input s)).length ≤ s.cfg.outMax) ∧
    (let s := withIn (ascii "@:E_W AH");
      InputFits s ∧ s.cfg.b85Dec (stripWs s.cfg.ws (input s)) = .ok (ascii "abcde")) ∧
    (let s := withIn (ascii "fPNKd");
      InputFits s ∧ s.cfg.b91Dec (input s) = .ok (ascii "test")) ∧
    utf8Valid (ascii "abcde") = true ∧ utf8Valid (ascii "test") = true := by
  unfold InputFits
  decide +kernel

/-- Every mode, with each padding at a length it takes: 5 bytes, and 16 bytes without padding; and a Hex
key and IV. -/
theorem witness_EncryptResult :
    (∀ m : Mode, let s := withKeyIv (ascii "hello");
      StringIs s .key .text keyBlk ∧ IvIs s m (opts .pkcs7) keyBlk ∧ InputFits s ∧
        padApply .pkcs7 (input s) = .ok (ascii "hello" ++ List.replicate 11 0x0B) ∧
        (formatEnc .hex (modeEnc (s.cfg.blockEnc keyBlk) s.cfg.ctrWidth m keyBlk
          (ascii "hello" ++ List.replicate 11 0x0B))).length ≤ s.cfg.outMax) ∧
    (∀ m : Mode, let s := withKeyIv (ascii "0123456789abcdef");
      StringIs s .key .text keyBlk ∧ IvIs s m (opts .none) keyBlk ∧ InputFits s ∧
        padApply .none (input s) = .ok (ascii "0123456789abcdef")) ∧
    (let s := load .iv hexKey (load .key hexKey (withIn []));
      StringIs s .key .hex keyBlk ∧ IvIs s .cbc hexOpts keyBlk ∧ InputFits s ∧
        padApply .zero (input s) = .ok []) := by
  unfold InputFits
  refine ⟨fun m => ⟨key_is _,
    iv_is _ _ _, by decide +kernel, by decide +kernel, ?_⟩,
    fun m => ⟨key_is _,
      iv_is _ _ _, by decide +kernel, by decide +kernel⟩,
    .inr ⟨rfl, by decide +kernel, keyText, by decide +kernel, by decide +kernel⟩,
    ⟨⟨fun _ => rfl, fun _ => rfl⟩, fun _ =>
      .inr ⟨rfl, by decide +kernel, keyText, by decide +kernel, by decide +kernel⟩⟩,
    by decide +kernel, by decide +kernel⟩
  cases m <;> decide +kernel

/-- Every mode on the first block of its vector; five bytes in a stream mode; a block of padding
(row M53). -/
theorem witness_DecryptResult :
    (∀ m : Mode, let s := withKeyIv ((vector m).take 32);
      StringIs s .key .text keyBlk ∧ IvIs s m (opts .none) keyBlk ∧ InputFits s ∧
        ∃ C, formatDec .hex (stripWs s.cfg.ws (input s)) = .ok C ∧ C.length % 16 = 0 ∧
          padRemove .none (modeDec (s.cfg.blockEnc keyBlk) (s.cfg.blockDec keyBlk) s.cfg.ctrWidth m
            keyBlk C) = .ok (plain.take 16)) ∧
    (let s := withKeyIv (ascii "d8e6b0acc6");
      StringIs s .key .text keyBlk ∧ IvIs s .ofb (opts .none) keyBlk ∧ InputFits s ∧
        formatDec .hex (stripWs s.cfg.ws (input s)) = .ok [0xD8, 0xE6, 0xB0, 0xAC, 0xC6] ∧
        padRemove .none (modeDec (s.cfg.blockEnc keyBlk) (s.cfg.blockDec keyBlk) s.cfg.ctrWidth .ofb
          keyBlk [0xD8, 0xE6, 0xB0, 0xAC, 0xC6]) = .ok (ascii "hello")) ∧
    padRemove .pkcs7 (modeDec (sm4Enc keyBlk) (sm4Dec keyBlk) 128 .ecb keyBlk
      (bytesBe 16 0x6c88f739af2a29a735381f5677badef7)) = .ok [] ∧
    utf8Valid (plain.take 16) = true ∧ utf8Valid (ascii "hello") = true ∧ utf8Valid [] = true := by
  unfold InputFits
  refine ⟨fun m => ⟨key_is _, iv_is _ _ _, ?_, ?_⟩,
    ⟨key_is _,
      iv_is _ _ _, by decide +kernel, by decide +kernel,
      by decide +kernel⟩, by decide +kernel, by decide +kernel, by decide +kernel, rfl⟩
  case refine_2 =>
    cases m
    case ecb => exact ⟨bytesBe 16 0xba611296fd1f3f27299eff1c29b18d63, by decide +kernel⟩
    case cbc => exact ⟨bytesBe 16 0x50aaf1ea1040e2b564a39f88d79f1401, by decide +kernel⟩
    case cfb => exact ⟨bytesBe 16 0x80b2eef39dc37deec2db9beef00a5811, by decide +kernel⟩
    case ofb => exact ⟨bytesBe 16 0x80b2eef39dc37deec2db9beef00a5811, by decide +kernel⟩
    case ctr => exact ⟨bytesBe 16 0x80b2eef39dc37deec2db9beef00a5811, by decide +kernel⟩
  all_goals cases m <;> decide +kernel

/-! ### The command faults -/

theorem witness_AlphabetSupportAndLengthFaults :
    (load .alpha (a16.take 15) State.reset).alphaLen.toNat ≠ Base.radix .b16 ∧
      (load .alpha [] State.reset).alphaLen.toNat ≠ Base.radix .b32 ∧
      (load .alpha (a64 ++ [0x21]) State.reset).alphaLen.toNat ≠ Base.radix .b64 ∧
      (load .alpha [] State.reset).alphaLen.toNat < 2 ∧
      (load .alpha [0x41] State.reset).alphaLen.toNat < 2 := by decide +kernel

/-- Rows F63, B52, and lengths of 129 and 256. -/
theorem witness_AlphabetContentFaults :
    (let s := withAlpha (a64.take 63 ++ [0xE9]) (ascii "x");
      AlphaLenOk s.alphaLen.toNat .b64 ∧ ¬ Ascii (customAlphabet s)) ∧
    (let s := withAlpha (ascii "AA") (ascii "x");
      AlphaLenOk s.alphaLen.toNat .b58 ∧ Ascii (customAlphabet s) ∧ ¬ (customAlphabet s).Nodup) ∧
    (let s := { State.reset with alphaLen := 129 };
      AlphaLenOk s.alphaLen.toNat .b58 ∧ 128 < s.alphaLen.toNat) ∧
    (let s := { State.reset with alphaLen := 256 };
      AlphaLenOk s.alphaLen.toNat .b62 ∧ 128 < s.alphaLen.toNat) := by
  unfold Ascii
  exact ⟨⟨show _ = 64 by decide +kernel, by decide +kernel⟩,
    ⟨show 2 ≤ _ ∧ _ ≤ 256 by decide +kernel, by decide +kernel, by decide +kernel⟩,
    ⟨show 2 ≤ _ ∧ _ ≤ 256 by decide, by decide⟩, ⟨show 2 ≤ _ ∧ _ ≤ 256 by decide, by decide⟩⟩

/-- Each buffer, one byte above its capacity. -/
theorem witness_CapacityFault :
    (let s := { withKeyIv [] with inLen := 65537 };
      AlphabetIs s .b64 false a64 ∧ s.cfg.inMax < s.inLen.toNat ∧
        StringIs s .key .text (blockOf (s.fetch .key 16)) ∧
        IvIs s .ctr (opts .pkcs7) (blockOf (s.fetch .iv 16))) ∧
    256 < ({ State.reset with alphaLen := 257 } : State).alphaLen.toNat ∧
    (hexOpts.kt = .hex ∧ 64 < ({ State.reset with keyLen := 65 } : State).keyLen.toNat) ∧
    (let s := { withKeyIv [] with ivLen := 65 };
      StringIs s .key .text (blockOf (s.fetch .key 16)) ∧ Mode.cbc ≠ .ecb ∧
        GatePasses .cbc { opts .zero with ivt := .hex } ∧ 64 < s.ivLen.toNat) ∧
    (let s := { withIn (ascii "f") with cfg := { Config.default with outMax := 1 } };
      AlphabetIs s .b16 false a16 ∧ InputFits s ∧
        bxTransform s.cfg .enc .b16 false a16 (input s) = .ok (ascii "66") ∧
        s.cfg.outMax < (ascii "66").length) ∧
    (let s := { withKeyIv (ascii "0123456789abcdef") with
        cfg := { Config.default with outMax := 31 } };
      StringIs s .key .text (blockOf (s.fetch .key 16)) ∧
        IvIs s .ecb (opts .none) (blockOf (s.fetch .iv 16)) ∧ InputFits s ∧
        sm4Transform s.cfg .enc .ecb (opts .none) (blockOf (s.fetch .key 16))
          (blockOf (s.fetch .iv 16)) (input s) = .ok (ascii "ba611296fd1f3f27299eff1c29b18d63") ∧
        s.cfg.outMax < 32) := by
  unfold InputFits
  exact ⟨⟨defaultIs _ _, by decide +kernel, textIs (by decide +kernel),
      ⟨fun _ => rfl, fun _ => rfl⟩, fun _ => textIs (by decide +kernel)⟩,
    by decide, ⟨rfl, by decide⟩,
    ⟨textIs (by decide +kernel), by decide, ⟨fun _ => rfl, fun _ => rfl⟩, by decide +kernel⟩,
    ⟨defaultIs _ _, by decide +kernel, by decide +kernel, by decide +kernel⟩,
    ⟨textIs (by decide +kernel), ⟨⟨fun _ => rfl, fun _ => rfl⟩, fun _ => textIs (by decide +kernel)⟩,
      by decide +kernel, by decide +kernel, by decide⟩⟩

/-- Row F9, row M73, a Hex key of 31 and of 64 digits, and the same for the IV. -/
theorem witness_MalformedInputFault :
    (let s := withIn (ascii "6g");
      AlphabetIs s .b16 false a16 ∧ InputFits s ∧
        s.cfg.unitDecode .b16 false a16 (s.cfg.textOf .b16 (input s)) = .error .badSymbol) ∧
    (let s := withKeyIv (ascii "5g");
      StringIs s .key .text keyBlk ∧ IvIs s .ecb (opts .none) keyBlk ∧ InputFits s ∧
        formatDec .hex (stripWs s.cfg.ws (input s)) = .error .badSymbol) ∧
    (let s := load .key (hexKey.take 31) State.reset;
      hexOpts.kt = .hex ∧ s.keyLen.toNat ≤ 64 ∧
        hexDecode (s.fetch .key s.keyLen.toNat) = .error .truncated) ∧
    (let s := load .iv (List.replicate 64 0x7A) (withKeyIv []);
      StringIs s .key .text (blockOf (s.fetch .key 16)) ∧ Mode.cfb ≠ .ecb ∧
        GatePasses .cfb { opts .zero with ivt := .hex } ∧ s.ivLen.toNat ≤ 64 ∧
        hexDecode (s.fetch .iv s.ivLen.toNat) = .error .badSymbol) := by
  unfold InputFits
  exact ⟨⟨defaultIs _ _, by decide +kernel, by decide +kernel⟩,
    ⟨key_is _,
      iv_is _ _ _, by decide +kernel, by decide +kernel⟩,
    by decide +kernel,
    ⟨textIs (by decide +kernel), by decide, ⟨fun _ => rfl, fun _ => rfl⟩, by decide +kernel,
      by decide +kernel⟩⟩

/-- Rows F11 and M57. -/
theorem witness_InvalidUtf8OutputFault :
    (let s := withIn (ascii "ff");
      AlphabetIs s .b16 false a16 ∧ InputFits s ∧
        s.cfg.unitDecode .b16 false a16 (s.cfg.textOf .b16 (input s)) = .ok [0xFF] ∧
        utf8Valid [0xFF] = false) ∧
    (let s := withKeyIv (ascii "64841fad74894db3300d742302b6b6eb");
      let C := bytesBe 16 0x64841fad74894db3300d742302b6b6eb;
      StringIs s .key .text keyBlk ∧ IvIs s .ecb (opts .none) keyBlk ∧ InputFits s ∧
        formatDec .hex (stripWs s.cfg.ws (input s)) = .ok C ∧ C.length % 16 = 0 ∧
        padRemove .none (modeDec (s.cfg.blockEnc keyBlk) (s.cfg.blockDec keyBlk) s.cfg.ctrWidth .ecb
          keyBlk C) = .ok (List.replicate 16 0xFF) ∧ utf8Valid (List.replicate 16 0xFF) = false) ∧
    exec (Instr.ofBx .enc .b64 false) (withIn []) =
      .next (after (Instr.ofBx .enc .b64 false) (withIn [])) ∧
    exec (Instr.ofSm4 .enc .ecb (opts .zero)) (withKeyIv []) =
      .next (after (Instr.ofSm4 .enc .ecb (opts .zero)) (withKeyIv [])) := by
  unfold InputFits
  exact ⟨⟨defaultIs _ _, by decide +kernel, by decide +kernel, by decide⟩,
    ⟨key_is _,
      iv_is _ _ _, by decide +kernel, by decide +kernel,
      by decide +kernel, by decide +kernel, by decide⟩, rfl, rfl⟩

theorem witness_IvGateFaults :
    (StringIs (withKeyIv []) .key (opts .zero).kt keyBlk ∧ Mode.ctr ≠ .ecb ∧
      ({ opts .zero with ivp := false }).ivp = false) ∧
    ((opts .zero).ivp = true ∧ ({ opts .zero with ivtp := false }).ivtp = false) ∧
    exec (Instr.ofSm4 .dec .ecb (opts .zero)) (withKeyIv []) =
      .next (after (Instr.ofSm4 .dec .ecb (opts .zero)) (withKeyIv [])) ∧
    (let s := load .iv [] (withKeyIv []);
      StringIs s .key .text (blockOf (s.fetch .key 16)) ∧ (opts .zero).ivp = true ∧
        (opts .zero).ivtp = true ∧ s.ivLen = 0) :=
  ⟨⟨key_is _, by decide, rfl⟩, ⟨rfl, rfl⟩, rfl,
    ⟨textIs (by decide +kernel), rfl, rfl, by decide +kernel⟩⟩

/-- Text strings of 15 and 17 bytes; Hex strings of 30 and 64 digits. -/
theorem witness_WrongKeyOrIvLengthFault :
    (let s := load .key (keyText.take 15) State.reset;
      (opts .zero).kt = .text ∧ s.keyLen.toNat ≠ 16) ∧
    (let s := load .key (hexKey.take 30) State.reset;
      hexOpts.kt = .hex ∧ s.keyLen.toNat ≤ 64 ∧
        hexDecode (s.fetch .key s.keyLen.toNat) = .ok (keyText.take 15) ∧ s.keyLen.toNat ≠ 32) ∧
    (let s := load .iv (keyText ++ [0x37]) (withKeyIv []);
      StringIs s .key .text (blockOf (s.fetch .key 16)) ∧ GatePasses .ofb (opts .zero) ∧
        (opts .zero).ivt = .text ∧ s.ivLen.toNat ≠ 16) ∧
    (let s := load .iv (List.replicate 64 0x30) (withKeyIv []);
      StringIs s .key .text (blockOf (s.fetch .key 16)) ∧
        GatePasses .ofb { opts .zero with ivt := .hex } ∧ s.ivLen.toNat ≤ 64 ∧
        hexDecode (s.fetch .iv s.ivLen.toNat) = .ok (List.replicate 32 0x00) ∧
        s.ivLen.toNat ≠ 32) :=
  ⟨by decide +kernel, by decide +kernel,
    ⟨textIs (by decide +kernel), ⟨fun _ => rfl, fun _ => rfl⟩, rfl, by decide +kernel⟩,
    ⟨textIs (by decide +kernel), ⟨fun _ => rfl, fun _ => rfl⟩, by decide +kernel,
      by decide +kernel, by decide +kernel⟩⟩

/-- Rows M44, M64, and M47, M50, M51, M58, M70 for the five ways a padding is wrong. -/
theorem witness_AlignmentAndPaddingFaults :
    (let s := withKeyIv (ascii "hello");
      StringIs s .key .text keyBlk ∧ IvIs s .ecb (opts .none) keyBlk ∧ InputFits s ∧
        s.inLen.toNat % 16 ≠ 0) ∧
    (let s := withKeyIv (ascii "ba611296fd1f3f27299eff1c29b18d");
      StringIs s .key .text keyBlk ∧ IvIs s .ecb (opts .none) keyBlk ∧ InputFits s ∧
        formatDec .hex (stripWs s.cfg.ws (input s)) =
          .ok (bytesBe 15 0xba611296fd1f3f27299eff1c29b18d)) ∧
    (let s := withKeyIv (ascii "5b9bf4ff59f443f3035e47a582308157");
      StringIs s .key .text keyBlk ∧ IvIs s .ecb (opts .pkcs7) keyBlk ∧ InputFits s ∧
        formatDec .hex (stripWs s.cfg.ws (input s)) =
          .ok (bytesBe 16 0x5b9bf4ff59f443f3035e47a582308157)) ∧
    (let P := fun n => modeDec (sm4Enc keyBlk) (sm4Dec keyBlk) 128 .ecb keyBlk (bytesBe 16 n);
      (P 0x5b9bf4ff59f443f3035e47a582308157).getLast? = some 0x00 ∧
        (P 0xa8cc8894a7a726ea545660d057d9b1b0).getLast? = some 0x11 ∧
        (P 0x5d32247e83db7e16f1067957a8304383).drop 14 = [0x01, 0x02]) ∧
    modeDec (sm4Enc keyBlk) (sm4Dec keyBlk) 128 .ecb keyBlk [] = [] ∧
    (modeDec (sm4Enc keyBlk) (sm4Dec keyBlk) 128 .ctr keyBlk [0xD8, 0xE6]).length % 16 ≠ 0 := by
  unfold InputFits
  exact ⟨⟨key_is _,
      iv_is _ _ _, by decide +kernel, by decide +kernel⟩,
    ⟨key_is _,
      iv_is _ _ _, by decide +kernel, by decide +kernel⟩,
    ⟨key_is _,
      iv_is _ _ _, by decide +kernel, by decide +kernel⟩,
    by decide +kernel, by decide +kernel, by decide +kernel⟩

theorem witness_FaultCodesPerCommand :
    (exec (Instr.ofBx .dec .b91 true) State.reset =
        .next (after (Instr.ofBx .dec .b91 true) State.reset) ∧
      (after (Instr.ofBx .dec .b91 true) State.reset).phase = .fault) ∧
    (exec (Instr.ofSm4 .enc .cbc (opts .zero)) State.reset =
        .next (after (Instr.ofSm4 .enc .cbc (opts .zero)) State.reset) ∧
      (after (Instr.ofSm4 .enc .cbc (opts .zero)) State.reset).phase = .fault) :=
  ⟨⟨rfl, by decide +kernel⟩, ⟨rfl, by decide +kernel⟩⟩

/-! ### The host's steps -/

/-- `GoStartsCommand`, `AckReturnsToIdle`, `ResetsClear`, `StrobeOrder`: the strobe words, and a state in
each phase. -/
theorem witness_strobes :
    ((1 : Word).getLsbD 0 = true ∧ (1 : Word).getLsbD 1 = false ∧ (1 : Word).getLsbD 31 = false) ∧
    ((2 : Word).getLsbD 0 = false ∧ (2 : Word).getLsbD 1 = true ∧ (2 : Word).getLsbD 31 = false) ∧
    ((3 : Word).getLsbD 0 = true ∧ (3 : Word).getLsbD 1 = true ∧ (3 : Word).getLsbD 31 = false) ∧
    ((4 : Word).getLsbD 0 = false ∧ (4 : Word).getLsbD 1 = false ∧ (4 : Word).getLsbD 31 = false) ∧
    (0x80000003 : Word).getLsbD 31 = true ∧
    State.reset.phase = .idle ∧ busyState.phase = .busy ∧ doneState.phase = .done ∧
    (after (.bxe85 true) State.reset).phase = .fault ∧
    (pending [.hardReset] busyState).events = [.hardReset] := by decide +kernel

theorem witness_BusyDropsWrites :
    busyState.Inv ∧ busyState.phase = .busy ∧
      ¬ ((0x000010 : Offset) = 0x000010 ∧ (3 : Word).getLsbD 31 = true) ∧
      InBuffer busyState.cfg .input (0x100000 : Offset).toNat 1 ∧
      busyState.mem.get (0x100000 : Offset).toNat = some 0x66 ∧
      InBuffer busyState.cfg .output (0x200007 : Offset).toNat 1 :=
  ⟨inv_busyState, rfl, by decide, ⟨by decide, by decide, by decide⟩, by decide +kernel,
    ⟨by decide, by decide, by decide⟩⟩

theorem witness_ReadsHaveNoSideEffect :
    hostAccess (.read .w16 0x200000) doneState =
      .next (doneState.respond (doneState.readBuffer 0x200000 .w16)) ∧
      0x100 ≤ (0x200000 : Offset).toNat ∧
      ∀ i < Width.bytes .w16, (doneState.mem.get ((0x200000 : Offset).toNat + i)).isSome = true :=
  ⟨rfl, by decide, by decide +kernel⟩

theorem witness_RegisterPage : doneState.phase ≠ .busy ∧
    ((0x01C : Offset) = 0x01C ∧ (0x01C : Offset).toNat % 4 = 0) ∧
    (0x040 ≤ (0x040 : Offset).toNat ∧ (0x0FC : Offset).toNat < 0x100 ∧
      (0x0FC : Offset).toNat % 4 = 0) := by decide +kernel

theorem witness_StatusWord : doneState.Inv ∧ busyState.Inv := ⟨inv_doneState, inv_busyState⟩

/-- Both sides, at the ends of the page and of a buffer. -/
theorem witness_BusErrors :
    ((0x0FC : Offset).toNat < 0x100 ∧ Width.w32 = .w32 ∧ (0x0FC : Offset).toNat % 4 = 0) ∧
    InBuffer Config.default .iv (0x00027F : Offset).toNat (Width.bytes .w8) ∧
    ¬ (((0x000280 : Offset).toNat < 0x100 ∧ Width.w8 = .w32 ∧ (0x000280 : Offset).toNat % 4 = 0) ∨
      ∃ sp : Space, InBuffer Config.default sp (0x000280 : Offset).toNat (Width.bytes .w8)) := by
  refine ⟨by decide, ⟨by decide, by decide, by decide⟩, ?_⟩
  rintro (h | ⟨sp, h⟩)
  · exact absurd h (by decide)
  · unfold InBuffer at h
    cases sp <;> revert h <;> decide +kernel

theorem witness_LittleEndianBus :
    (InBuffer doneState.cfg .output (0x200000 : Offset).toNat (Width.bytes .w16) ∧
      ∀ i < Width.bytes .w16, doneState.mem.get ((0x200000 : Offset).toNat + i) = some 0x36) ∧
    doneState.cfg.wf = true ∧
      InBuffer doneState.cfg .input (0x100004 : Offset).toNat (Width.bytes .w32) ∧
      Space.input ≠ .output ∧ doneState.phase ≠ .busy := by
  unfold InBuffer
  decide +kernel

/-- A buffer that takes the write, and OUT. -/
theorem witness_BufferWriteFrame : doneState.cfg.wf = true ∧
    InBuffer doneState.cfg .alpha (0x0001FC : Offset).toNat (Width.bytes .w32) ∧
    InBuffer doneState.cfg .output (0x200007 : Offset).toNat (Width.bytes .w8) := by
  unfold InBuffer
  decide +kernel

/-- The state with the interrupt enabled. -/
def enabled (s : State) : State := { s with ie := true }

/-- The three ways the level falls. -/
theorem witness_IrqLevel :
    (∀ e ∈ [Event.hardReset, .access (ctrlWrite 1), .access (ctrlWrite 2),
        .access (ctrlWrite 0x80000000), .access (.write .w32 0x000018 2)],
      (pending [e] (enabled doneState)).irq = true ∧
        (stepped (pending [e] (enabled doneState))).irq = false) ∧
    step (pending [.access (ctrlWrite 1)] (enabled doneState)) =
      .next (stepped (pending [.access (ctrlWrite 1)] (enabled doneState))) :=
  ⟨by decide +kernel, rfl⟩

/-! ### The whole machine -/

/-- Every transition of `PhaseTransitions`, and the invariant of `StepKeepsInvariant`. -/
theorem witness_PhaseTransitions :
    (stepped (pending [.access (ctrlWrite 1)] State.reset)).phase = .busy ∧
    (stepped (pending [.access (ctrlWrite 3)] doneState)).phase = .busy ∧
    (stepped busyState).phase = .done ∧ (stepped (pending [.engineTurn] busyState)).phase = .done ∧
    (stepped (busy 0 State.reset)).phase = .fault ∧
    (stepped (pending [.access (ctrlWrite 2)] doneState)).phase = .idle ∧
    (stepped (pending [.access (ctrlWrite 0x80000001)] busyState)).phase = .idle ∧
    (stepped (pending [.hardReset] busyState)).phase = .idle := by decide +kernel

theorem witness_StepKeepsInvariant :
    busyState.Inv ∧ step busyState = .next (stepped busyState) ∧ doneState.Inv ∧
      step doneState = .next (stepped doneState) :=
  ⟨inv_busyState, rfl, inv_doneState, rfl⟩

theorem witness_CapacitiesConstant :
    State.reset.cfg.wf = true ∧ doneState.cfg.wf = true ∧
      step busyState = .next (stepped busyState) := ⟨by decide +kernel, by decide +kernel, rfl⟩

/-- Two states that differ in what ran before: other bytes of IN behind the input, another interrupt
enable, another count of draws. -/
theorem witness_CommandIsStateless :
    (let s := busyState;
      let t := { s with mem := s.mem.setBytes 0x100001 [0x7A], ie := true, draws := 5 };
      t.phase = .busy ∧ t.cfg = s.cfg ∧ t.cmd = s.cmd ∧ t.inLen = s.inLen ∧ t ≠ s ∧
        Agree s t .input s.inLen.toNat) ∧
    (let s := busy 0x00003A12 (withAlpha (ascii "01") [0x05]);
      decode s.cmd = .ok (Instr.ofBx .enc .b58 true) ∧ Agree s s .alpha s.alphaLen.toNat) ∧
    (let s := busy 0x000C0104 (withKeyIv plain);
      decode s.cmd = .ok (Instr.ofSm4 .enc .cbc (opts .pkcs7)) ∧ Agree s s .key s.keyLen.toNat ∧
        Agree s s .iv s.ivLen.toNat) := by
  unfold Agree
  have some : ∀ {s t : State} {sp : Space} {n : Nat},
      (∀ j < n, j < sp.size s.cfg → (s.mem.get (sp.offset + j)).isSome = true ∧
        t.mem.get (sp.offset + j) = s.mem.get (sp.offset + j)) →
      ∀ j, j < n → j < sp.size s.cfg →
        ∃ b, s.mem.get (sp.offset + j) = some b ∧ t.mem.get (sp.offset + j) = some b := by
    intro s t sp n h j h1 h2
    obtain ⟨h3, h4⟩ := h j h1 h2
    obtain ⟨b, hb⟩ := Option.isSome_iff_exists.1 h3
    exact ⟨b, hb, h4.trans hb⟩
  exact ⟨⟨by decide +kernel, by decide +kernel, by decide +kernel, by decide +kernel,
      by decide +kernel, some (by decide +kernel)⟩,
    ⟨by decide +kernel, some (by decide +kernel)⟩,
    ⟨by decide +kernel, some (by decide +kernel), some (by decide +kernel)⟩⟩

theorem witness_InstancesAreIndependent :
    (Platform.reset 2)[1]? = some State.reset ∧ (0 : Nat) ≠ 1 ∧
      Platform.step [busyState, doneState] 0 = .next [stepped busyState, doneState] ∧
      Platform.step [busyState, doneState] 1 = .next [busyState, stepped doneState] :=
  ⟨rfl, by decide, rfl, rfl⟩

/-- A buffer filled to its last byte. -/
theorem witness_LoadStoresOperand :
    (let s := pending (ld .input (ascii "12345678") ++ [.engineTurn]) doneState;
      s.cfg.wf = true ∧ s.phase ≠ .busy ∧ Space.input ≠ .output ∧
        (ascii "12345678").length ≤ Space.size s.cfg .input ∧
        s.events = ld .input (ascii "12345678") ++ [.engineTurn]) := by decide +kernel

theorem witness_BasexEncodeRuns :
    (let s := pending (basex .enc (ascii "foo") .b64 none ++ []) doneState;
      s.phase ≠ .busy ∧ s.events = basex .enc (ascii "foo") .b64 none ++ [] ∧
        (ascii "foo").length ≤ s.cfg.inMax ∧
        (s.cfg.unitEncode .b64 false (s.cfg.defaultAlphabet .b64) (ascii "foo")).length ≤
          s.cfg.outMax) ∧
    (pending (basex .enc (ascii "foo") .b64 none ++ []) doneState).Inv :=
  ⟨by decide +kernel, ⟨inv_doneState.cfgWf, inv_doneState.memWf, inv_doneState.memMapped,
    inv_doneState.errIff, inv_doneState.errLegal, inv_doneState.infoZero, inv_doneState.outLenZero,
    inv_doneState.outLenLe, inv_doneState.payload, inv_doneState.outUnspecified⟩⟩

/-- What a call answers, the state left aside. -/
def answered (o : Host.Outcome (State × Except OpError Bytes) Fault Refusal) :
    Option (Except OpError Bytes) :=
  match o with
  | .next p => some p.2
  | .fault _ => none
  | .refused _ => none

/-- Operands that fill their buffers: an input of `IN_MAX` bytes, an alphabet of 256, a key and an IV of
64, beside shorter ones. -/
theorem witness_OperationsDeliver :
    doneState.cfg.wf = true ∧ doneState.phase ≠ .busy ∧
      (ascii "12345678").length ≤ doneState.cfg.inMax ∧
      (∀ A ∈ some (List.replicate 256 (0x30 : Byte)), A.length ≤ 256) ∧
      (∀ A ∈ (none : Option Bytes), A.length ≤ 256) ∧ keyText.length ≤ 64 ∧
      (List.replicate 64 (0x30 : Byte)).length ≤ 64 ∧
      ∀ V ∈ some (List.replicate 64 (0x30 : Byte), some StrType.hex), V.1.length ≤ 64 := by
  simp only [Option.mem_def]
  decide +kernel

/-- RFC 4648's `foo`, both ways, and a custom alphabet (30_encoding.md R109). -/
theorem test_basex_operations :
    answered (basexEncode (ascii "foo") .b64 none State.reset) = some (.ok (ascii "Zm9v")) ∧
      answered (basexDecode (ascii "Zm9v") .b64 none doneState) = some (.ok (ascii "foo")) ∧
      answered (basexEncode [0x01] .b16 (some (ascii "ABCDEFGHIJKLMNOP")) State.reset) =
        some (.ok (ascii "AB")) := by decide +kernel

/-- A length mismatch and a missing IV are reported with their fields (60_exceptions.md R346, R352). -/
theorem test_operation_errors :
    answered (basexEncode (ascii "f") .b64 (some (ascii "AB")) State.reset) =
        some (.error ⟨2, 64, 64, 2⟩) ∧
      answered (sm4Encrypt .ctr .none .hex [] keyText .text none State.reset) =
        some (.error ⟨6, 4, 0, 0⟩) := by decide +kernel

/-! ### The codecs -/

/-- `FixedWidthLengths`, `FixedWidthRoundTrip`, `BigIntConversion`. -/
theorem witness_codecs :
    (Config.default.wsWf = true ∧ ValidFor geo16 a16 ∧ ValidFor geo32 a32 ∧ ValidFor geo64 a64 ∧
      ∀ x ∈ a64, x ∉ Config.default.ws) ∧
    (padChar ∉ a32 ∧ padChar ∉ a64 ∧ fwDecode geo64 a64 true false (ascii "Zg==") = .ok [0x66]) ∧
    (2 ≤ (ascii "01").length ∧ (ascii "01").Nodup ∧ ∀ c ∈ ascii "0110", c ∈ ascii "01") := by
  unfold ValidFor
  decide +kernel

/-- `ModeEquations`, `StreamingModesTakeAnyLength`, `ModeLaws`: a last block, a last byte, a block
function with its inverse, the widths 1 and 128. -/
theorem witness_modes :
    (plain.length % 16 = 0 ∧ 1 < plain.length / 16 ∧ 1 ≤ 1 ∧ 128 ≤ 128) ∧
    (4 < (ascii "hello").length ∧ (Mode.ctr = .cfb ∨ Mode.ctr = .ofb ∨ Mode.ctr = .ctr)) ∧
    ∀ X : Block, ~~~(~~~X) = X :=
  ⟨by decide, by decide, fun X => by simp⟩

/-- `DefaultStaticTableProperties`. -/
theorem witness_defaults : Config.default.wsWf = true ∧
    ({ Config.default with b85 := .other 0, b91 := .other 0 } : Config).wsWf = true := by
  decide +kernel

/-- Every base on the text `hi`, by its own encode. -/
theorem witness_RadixRoundTrip :
    ∀ b ∈ Base.all,
      (let s := withIn (ascii "hi");
        let t := after (Instr.ofBx .enc b false) s;
        let s' := withIn t.payload;
        s.cfg.wf = true ∧
          utf8Valid (input s) = true ∧ t.phase = .done ∧ s'.cfg = s.cfg ∧ s'.inLen = t.outLen ∧
          input s' = t.payload ∧ s'.inLen.toNat ≤ s'.cfg.inMax ∧
          (input s).length ≤ s.cfg.outMax) := by decide +kernel

/-- CTR without padding, and CBC with Zero padding on a text that ends in a zero byte. -/
theorem witness_CipherRoundTrip :
    ∀ p ∈ [(Mode.ctr, opts .none, ascii "0123456789abcdef"), (.cbc, opts .zero, [0x61, 0x00]),
        (.ecb, opts .pkcs7, [])],
      (let s := withKeyIv p.2.2;
        let t := after (Instr.ofSm4 .enc p.1 p.2.1) s;
        let s' := withKeyIv t.payload;
        s.cfg.wf = true ∧ utf8Valid (input s) = true ∧ t.phase = .done ∧
          s'.cfg = s.cfg ∧ s'.keyLen = s.keyLen ∧ s'.ivLen = s.ivLen ∧
          s'.fetch .key s.keyLen.toNat = s.fetch .key s.keyLen.toNat ∧
          s'.fetch .iv s.ivLen.toNat = s.fetch .iv s.ivLen.toNat ∧ s'.inLen = t.outLen ∧
          input s' = t.payload ∧ s'.inLen.toNat ≤ s'.cfg.inMax ∧
          (input s).length ≤ s.cfg.outMax) := by decide +kernel

/-- The next states of the two round trips. -/
theorem witness_roundTrip_exec (b : Base) (m : Mode) (o : CipherOpts) (s : State) :
    exec (Instr.ofBx .enc b false) s = .next (after (Instr.ofBx .enc b false) s) ∧
      exec (Instr.ofSm4 .enc m o) s = .next (after (Instr.ofSm4 .enc m o) s) := by
  cases b <;> cases m <;> exact ⟨rfl, rfl⟩

end Sys2Proof.Tests
end

/-! A command is stateless (spec/00_scope.md R6): everything its pipeline reads is the configuration, the
length registers and operand bytes within their buffers, so two states that agree there have the same
result, and the end of a command shows nothing but that result. -/

namespace Sys2Proof.Laws

open Sys2Proof.Machine Sys2Proof.Claims

/-- The two states hold the same command: its word, the four lengths and the configuration. -/
structure SameCommand (s t : State) : Prop where
  cfg : t.cfg = s.cfg
  cmd : t.cmd = s.cmd
  inLen : t.inLen = s.inLen
  alphaLen : t.alphaLen = s.alphaLen
  keyLen : t.keyLen = s.keyLen
  ivLen : t.ivLen = s.ivLen

/-! ## The operands -/

/-- Written operand bytes that agree are fetched alike, as far as the buffer reaches. -/
theorem fetch_eq_of_agree {s t : State} {sp : Space} {n : Nat} (h : Agree s t sp n)
    (hn : n ≤ sp.size s.cfg) : t.fetch sp n = s.fetch sp n :=
  State.bytesAt_congr fun i hi => by
    obtain ⟨b, hs, ht⟩ := h i hi (by omega)
    rw [State.byteAt_of_some hs, State.byteAt_of_some ht]

theorem inputOperand_congr {s t : State} (h : SameCommand s t)
    (hin : Agree s t .input s.inLen.toNat) : t.inputOperand = s.inputOperand := by
  simp only [State.inputOperand, h.cfg, h.inLen]
  split
  · rfl
  · next hle => rw [fetch_eq_of_agree hin (Nat.le_of_not_gt hle)]

theorem alphaOperand_congr {s t : State} (h : SameCommand s t)
    (hal : Agree s t .alpha s.alphaLen.toNat) : t.alphaOperand = s.alphaOperand := by
  simp only [State.alphaOperand, h.alphaLen]
  split
  · rfl
  · next hle => rw [fetch_eq_of_agree hal (Nat.le_of_not_gt hle)]

theorem strLen_congr {s t : State} (h : SameCommand s t) (f : KeyField) :
    t.strLen f = s.strLen f := by
  cases f
  case key => exact congrArg BitVec.toNat h.keyLen
  case iv => exact congrArg BitVec.toNat h.ivLen

theorem size_keyField (c : Config) (f : KeyField) : f.space.size c = 64 := by cases f <;> rfl

theorem strOperand_congr {s t : State} (h : SameCommand s t) {f : KeyField}
    (hf : Agree s t f.space (s.strLen f)) (ty : StrType) : t.strOperand f ty = s.strOperand f ty := by
  have fetched (hle : s.strLen f ≤ 64) :
      t.fetch f.space (s.strLen f) = s.fetch f.space (s.strLen f) :=
    fetch_eq_of_agree hf (hle.trans_eq (size_keyField s.cfg f).symm)
  cases ty <;> simp only [State.strOperand, strLen_congr h]
  case text =>
    split
    · rfl
    · next hlen =>
      rw [not_not] at hlen
      rw [← hlen, fetched (by omega)]
  case hex =>
    split
    · rfl
    · next hle => rw [fetched (Nat.le_of_not_gt hle)]

/-! ## The pipelines -/

theorem alphabet_congr {s t : State} (h : SameCommand s t) (b : Base) {ap : Bool}
    (hal : ap = true → Agree s t .alpha s.alphaLen.toNat) : t.alphabet b ap = s.alphabet b ap := by
  cases ap
  case false => simp [State.alphabet, h.cfg]
  case true => simp only [State.alphabet, h.cfg, h.alphaLen, alphaOperand_congr h (hal rfl)]

theorem bxExec_congr {s t : State} (h : SameCommand s t) (d : Dir) (b : Base) {ap : Bool}
    (hin : Agree s t .input s.inLen.toNat)
    (hal : ap = true → Agree s t .alpha s.alphaLen.toNat) : bxExec d b ap t = bxExec d b ap s := by
  simp only [bxExec, alphabet_congr h b hal, inputOperand_congr h hin, h.cfg, State.outputCheck]

theorem resolve16_congr {s t : State} (h : SameCommand s t) {f : KeyField}
    (hf : Agree s t f.space (s.strLen f)) (ty : StrType) : t.resolve16 f ty = s.resolve16 f ty := by
  simp only [State.resolve16, strOperand_congr h hf]

theorem resolveIv_congr {s t : State} (h : SameCommand s t) {m : Mode} (o : CipherOpts)
    (hiv : m ≠ .ecb → Agree s t .iv s.ivLen.toNat) : t.resolveIv m o = s.resolveIv m o := by
  cases m
  case ecb => rfl
  all_goals exact resolve16_congr (f := .iv) h (hiv (by decide)) o.ivt

/-- Where the IV gate passes, the IV string is present in every mode but ECB (R255). -/
theorem ivp_of_ivGate {m : Mode} {o : CipherOpts} (h : ivGate m o = none) (hm : m ≠ .ecb) :
    o.ivp = true := by
  by_contra hp
  simp [ivGate, hm, hp] at h

theorem keyAndIv_congr {s t : State} (h : SameCommand s t) {m : Mode} {o : CipherOpts}
    (hkey : Agree s t .key s.keyLen.toNat)
    (hiv : m ≠ .ecb → o.ivp = true → Agree s t .iv s.ivLen.toNat) :
    t.keyAndIv m o = s.keyAndIv m o := by
  simp only [State.keyAndIv, resolve16_congr (f := .key) h hkey]
  cases hg : ivGate m o with
  | some f => rfl
  | none => simp only [resolveIv_congr h o fun hm => hiv hm (ivp_of_ivGate hg hm)]

theorem sm4Exec_congr {s t : State} (h : SameCommand s t) (d : Dir) {m : Mode} {o : CipherOpts}
    (hin : Agree s t .input s.inLen.toNat) (hkey : Agree s t .key s.keyLen.toNat)
    (hiv : m ≠ .ecb → o.ivp = true → Agree s t .iv s.ivLen.toNat) :
    sm4Exec d m o t = sm4Exec d m o s := by
  simp only [sm4Exec, keyAndIv_congr h hkey hiv, inputOperand_congr h hin, h.cfg,
    State.outputCheck]

/-- The result of the engine's step depends only on the command, its lengths, the configuration and the
operand bytes it reads. -/
theorem engineResult_congr {s t : State} (h : SameCommand s t)
    (hin : Agree s t .input s.inLen.toNat)
    (hal : ∀ d b, decode s.cmd = .ok (Instr.ofBx d b true) → Agree s t .alpha s.alphaLen.toNat)
    (hkv : ∀ d m o, decode s.cmd = .ok (Instr.ofSm4 d m o) →
      Agree s t .key s.keyLen.toNat ∧
        (m ≠ .ecb → o.ivp = true → Agree s t .iv s.ivLen.toNat)) :
    engineResult t = engineResult s := by
  simp only [engineResult, h.cmd]
  cases hd : decode s.cmd with
  | error e => rfl
  | ok i =>
    rcases Instr.cases_unit i with ⟨d, b, ap, rfl⟩ | ⟨d, m, o, rfl⟩
    · simp only [resultOf_ofBx]
      exact bxExec_congr h d b hin fun hap => hal d b (by rw [hd, hap])
    · obtain ⟨hkey, hiv⟩ := hkv d m o hd
      simp only [resultOf_ofSm4]
      exact sm4Exec_congr h d hin hkey hiv

/-! ## The end of a command -/

/-- The payload a command ends with: as much of the result as the 32-bit `OUT_LEN` counts, and nothing
after a fault. No bound on the result is asked, so its length may wrap. -/
theorem finish_payload (s : State) (r : Except CmdFault Bytes) :
    (s.finish r).payload = match r with
      | .ok B => B.take (BitVec.ofNat 32 B.length).toNat
      | .error _ => [] := by
  cases r with
  | error f => rfl
  | ok B =>
    have hle : B.length % 2 ^ 32 ≤ B.length := Nat.mod_le _ _
    refine List.ext_getElem (by simpa [State.payload, State.finish_ok] using hle) fun i h1 h2 => ?_
    have hi : i < B.length := (List.length_take_le' _ B).trans_lt' h2
    simp only [State.payload, State.getElem_fetch, List.getElem_take]
    exact State.byteAt_of_some (Memory.get_setBytes_in _ _ i B hi)

/-- What the end of a command shows depends on its result alone. -/
theorem finish_congr (s t : State) (r : Except CmdFault Bytes) :
    (t.finish r).phase = (s.finish r).phase ∧ (t.finish r).err = (s.finish r).err ∧
      (t.finish r).outLen = (s.finish r).outLen ∧ (t.finish r).payload = (s.finish r).payload ∧
      ((s.finish r).phase = .fault → (t.finish r).errInfo0 = (s.finish r).errInfo0 ∧
        (t.finish r).errInfo1 = (s.finish r).errInfo1 ∧
        (t.finish r).errInfo2 = (s.finish r).errInfo2) := by
  have hpay : (t.finish r).payload = (s.finish r).payload := by
    rw [finish_payload, finish_payload]
  cases r with
  | ok B => exact ⟨rfl, rfl, rfl, hpay, fun hf => nomatch hf⟩
  | error f => exact ⟨rfl, rfl, rfl, hpay, fun _ => ⟨rfl, rfl, rfl⟩⟩

/-- Settles O43: both turns end their command with its result (R52), the result is a function of the
command and its operands, and the end shows nothing else. -/
theorem commandIsStateless : Obligations.CommandIsStateless := by
  unfold Obligations.CommandIsStateless
  intro s s' hb hb' hcfg hcmd hin hal hkey hiv agreeIn agreeAlpha agreeKeyIv
  have same : SameCommand s s' := ⟨hcfg, hcmd, hin, hal, hkey, hiv⟩
  have hr : engineResult s' = engineResult s :=
    engineResult_congr same agreeIn agreeAlpha agreeKeyIv
  refine ⟨_, _, engineTurn_of_busy hb, engineTurn_of_busy hb', ?_⟩
  rw [hr]
  exact finish_congr s s' (engineResult s)

end Sys2Proof.Laws

/-! What the state and the bus do (spec/10_state.md, sections 2 to 6): rules about the state's operations
first, then the words of the statements, then the statements of that chapter. -/

namespace Sys2Proof.Machine

/-! ## Rules about the operations -/

theorem Memory.forget_forget (m : Memory) (a n : Nat) :
    (m.forget a n).forget a n = m.forget a n := by
  simp only [Memory.forget, List.filter_filter, Bool.and_self]

theorem State.byteAt_of_none {s : State} {a : Nat} (h : s.mem.get a = none) :
    s.byteAt a = Config.freeByte s.draws a := by simp [State.byteAt, h]

theorem State.readBuffer_w8 (s : State) (a : Nat) :
    s.readBuffer a .w8 = (s.byteAt a).setWidth 32 := by
  simp [State.readBuffer, Width.bytes, State.bytesAt, leNat]

/-- GO clears what an ACK before it would have cleared. -/
theorem State.start_toIdle (s : State) : s.toIdle.start = s.start := by
  simp [State.start, State.toIdle, State.clearResult, State.forgetOut, Memory.forget_forget]

theorem State.go_ack (s : State) : s.ack.go = s.go := by
  rcases s.ack_cases with ⟨-, h⟩ | ⟨hp, h⟩
  · rw [h]
  · have hb : s.phase ≠ .busy := by rcases hp with hp | hp <;> simp [hp]
    rw [h, State.go_of_not_busy (by simp), State.go_of_not_busy hb, State.start_toIdle]

theorem State.go_phase (s : State) : s.go.phase = .busy := by
  rcases s.go_cases with ⟨hb, h⟩ | ⟨-, h⟩ <;> rw [h]
  · exact hb
  · rfl

/-- GO does not look at the last bus answer. -/
theorem State.go_resp (s : State) (r : BusResp) :
    ({ s with resp := r } : State).go = { s.go with resp := r } := by
  cases h : s.phase <;> simp [State.go, h] <;> rfl

/-! ### A write to `CTRL`, by its strobes (10_state.md R26) -/

theorem State.writeCtrl_of_srst (s : State) {v : Word} (h31 : v.getLsbD 31 = true) :
    s.writeCtrl v = s.softReset := by simp [State.writeCtrl, h31]

/-- With GO set, ACK makes no difference. -/
theorem State.writeCtrl_of_go (s : State) {v : Word} (h31 : v.getLsbD 31 = false)
    (h0 : v.getLsbD 0 = true) : s.writeCtrl v = s.go := by
  cases h1 : v.getLsbD 1 <;>
    simp only [State.writeCtrl, h31, h1, h0, Bool.false_eq_true, if_false, if_true, State.go_ack]

theorem State.writeCtrl_of_ack (s : State) {v : Word} (h31 : v.getLsbD 31 = false)
    (h1 : v.getLsbD 1 = true) (h0 : v.getLsbD 0 = false) : s.writeCtrl v = s.ack := by
  simp only [State.writeCtrl, h31, h1, h0, Bool.false_eq_true, if_false, if_true]

theorem State.writeCtrl_of_none (s : State) {v : Word} (h31 : v.getLsbD 31 = false)
    (h1 : v.getLsbD 1 = false) (h0 : v.getLsbD 0 = false) : s.writeCtrl v = s := by
  simp only [State.writeCtrl, h31, h1, h0, Bool.false_eq_true, if_false]

theorem State.writeCtrl_of_busy {s : State} (hb : s.phase = .busy) {v : Word}
    (h31 : v.getLsbD 31 = false) : s.writeCtrl v = s := by
  simp only [State.writeCtrl, h31, State.ack, hb, Bool.false_eq_true, if_false, ite_self,
    State.go_of_busy hb]

/-- What a write to `CTRL` can do to the phase. -/
theorem State.writeCtrl_phase_cases (s : State) (v : Word) :
    (s.writeCtrl v).phase = s.phase ∨
      (v.getLsbD 31 = true ∧ (s.writeCtrl v).phase = .idle) ∨
      (v.getLsbD 31 = false ∧ v.getLsbD 0 = true ∧ (s.writeCtrl v).phase = .busy) ∨
      (v.getLsbD 31 = false ∧ v.getLsbD 1 = true ∧ (s.phase = .done ∨ s.phase = .fault) ∧
        (s.writeCtrl v).phase = .idle) := by
  cases h31 : v.getLsbD 31 with
  | true => exact .inr (.inl ⟨rfl, by rw [State.writeCtrl_of_srst s h31]; rfl⟩)
  | false =>
    cases h0 : v.getLsbD 0 with
    | true =>
      exact .inr (.inr (.inl ⟨rfl, rfl, by rw [State.writeCtrl_of_go s h31 h0, State.go_phase]⟩))
    | false =>
      cases h1 : v.getLsbD 1 with
      | false => exact .inl (by rw [State.writeCtrl_of_none s h31 h1 h0])
      | true =>
        rw [State.writeCtrl_of_ack s h31 h1 h0]
        rcases s.ack_cases with ⟨-, h⟩ | ⟨hp, h⟩ <;> rw [h]
        · exact .inl rfl
        · exact .inr (.inr (.inr ⟨rfl, rfl, hp, rfl⟩))

/-! ### The register page -/

theorem State.resultReg_of_busy {s : State} (hb : s.phase = .busy) (r : Reg) (v : Word) :
    s.resultReg r v = Config.freeWord s.draws r.offset := by simp [State.resultReg, hb]

theorem State.resultReg_of_not_busy {s : State} (hb : s.phase ≠ .busy) (r : Reg) (v : Word) :
    s.resultReg r v = v := by
  cases hp : s.phase <;> simp_all [State.resultReg]

theorem State.readPage_offset (s : State) (r : Reg) : s.readPage r.offset = s.readReg r := by
  simp [State.readPage]

theorem State.writePage_offset (s : State) (r : Reg) (v : Word) :
    s.writePage r.offset v = s.writeReg r v := by simp [State.writePage]

theorem State.readPage_of_reserved (s : State) {a : Nat} (h : Reg.at a = none) :
    s.readPage a = 0 := by simp [State.readPage, h]

theorem State.writePage_of_reserved (s : State) {a : Nat} (h : Reg.at a = none) (v : Word) :
    s.writePage a v = s := by simp [State.writePage, h]

theorem State.writeReg_of_not_busy {s : State} (hb : s.phase ≠ .busy) (r : Reg) (v : Word) :
    s.writeReg r v = s.storeReg r v := by simp [State.writeReg, hb]

/-- While BUSY a page write that is no soft reset changes nothing (10_state.md R55). -/
theorem State.writePage_of_busy {s : State} (hb : s.phase = .busy) {a : Nat} {v : Word}
    (h : ¬ (a = Reg.offset .ctrl ∧ v.getLsbD 31 = true)) : s.writePage a v = s := by
  rcases s.writePage_cases a v with e | ⟨hn, -⟩ | ⟨ha, e⟩
  · exact e
  · exact absurd hb hn
  · rw [e, State.writeCtrl_of_busy hb (by simpa [ha] using h)]

theorem State.writeBuffer_of_busy {s : State} (hb : s.phase = .busy) (sp : Space) (a : Nat)
    (w : Width) (v : Word) : s.writeBuffer sp a w v = s := by simp [State.writeBuffer, hb]

/-! ### Flags -/

/-- 60_exceptions.md R341. -/
theorem CmdFault.code_mem_legalCodes (f : CmdFault) : f.code ∈ legalCodes := by
  cases f <;> simp [CmdFault.code, legalCodes]

theorem State.irq_iff (s : State) :
    s.irq = true ↔ s.ie = true ∧ (s.phase = .done ∨ s.phase = .fault) := by
  simp [State.irq]

/-- The four fields of `STATUS` (10_state.md R27). -/
theorem State.status_fields (s : State) :
    s.status.extractLsb' 0 2 = s.phase.code ∧ s.status.extractLsb' 2 6 = 0 ∧
      s.status.extractLsb' 8 8 = s.err ∧ s.status.extractLsb' 16 16 = 0 := by
  have hc := s.phase.code.isLt
  have he := s.err.isLt
  have hs : s.status.toNat = 256 * s.err.toNat + s.phase.code.toNat := by
    rw [State.status, BitVec.toNat_append, ← Nat.shiftLeft_add_eq_or_of_lt hc, BitVec.toNat_append,
      BitVec.toNat_append]
    simp [Nat.shiftLeft_eq]
    omega
  refine ⟨?_, ?_, ?_, ?_⟩ <;> apply BitVec.eq_of_toNat_eq <;>
    simp only [BitVec.extractLsb'_toNat, hs, Nat.shiftRight_eq_div_pow] <;> simp <;> omega

end Sys2Proof.Machine

namespace Sys2Proof.Laws

open Sys2Proof.Machine Sys2Proof.Claims

/-! ## The words of the statements -/

/-- OUT after GO, ACK, a soft reset or a fault: no byte of it has a value, every other byte stands. -/
theorem outUnspecified_forgetOut (s : State) : OutUnspecified s.cfg s.forgetOut := fun _ ha =>
  Memory.get_forget_in _ ha

theorem get_forgetOut_of_not_inOut (s : State) {a : Nat} (h : ¬ InOut s.cfg a) :
    s.forgetOut.mem.get a = s.mem.get a := by
  refine s.get_forgetOut_out ?_
  simp only [InOut] at h
  simp only [Space.size]
  omega

theorem started_start (s : State) : Started s { s.start with resp := .written } where
  kept := ⟨rfl, rfl, rfl, rfl, rfl, rfl, rfl, rfl, fun _ h => get_forgetOut_of_not_inOut s h⟩
  resp := rfl
  phase := rfl
  cleared := ⟨rfl, rfl, rfl, rfl, rfl⟩
  out := outUnspecified_forgetOut s

theorem kept_toIdle (s : State) : Kept s { s.toIdle with resp := .written } :=
  ⟨rfl, rfl, rfl, rfl, rfl, rfl, rfl, rfl, fun _ h => get_forgetOut_of_not_inOut s h⟩

/-- Every register stands at an aligned offset of the page. -/
theorem reg_offset_page (r : Reg) : (BitVec.ofNat 22 r.offset).toNat = r.offset ∧
    (BitVec.ofNat 22 r.offset).toNat < 0x100 ∧ (BitVec.ofNat 22 r.offset).toNat % 4 = 0 := by
  cases r <;> decide

/-- A register reads, at its offset, what `State.readReg` says. -/
theorem readsAs_reg (s : State) (r : Reg) {v : Word} (hv : s.readReg r = v) :
    ReadsAs s (BitVec.ofNat 22 r.offset) v := by
  obtain ⟨ho, hlt, hal⟩ := reg_offset_page r
  exact readsAs_of_readPage s _ v hlt hal (by rw [ho, s.readPage_offset, hv])

/-- A write to a register does, at its offset, what `State.writeReg` says. -/
theorem writesTo_reg (s : State) (r : Reg) {v : Word} {t : State} (ht : s.writeReg r v = t) :
    WritesTo s (BitVec.ofNat 22 r.offset) v t := by
  obtain ⟨ho, hlt, hal⟩ := reg_offset_page r
  exact writesTo_of_writePage s t _ v hlt hal (by rw [ho, s.writePage_offset, ht])

/-- A byte read of a buffer gives the byte and changes nothing. -/
theorem hostAccess_byteRead {s : State} {sp : Space} {off : Offset}
    (h : InBuffer s.cfg sp off.toNat 1) {b : Byte} (hb : s.byteAt off.toNat = b) :
    ∃ t, hostAccess (.read .w8 off) s = .next t ∧ t.resp = .data (b.setWidth 32) ∧ SameBut s t := by
  obtain ⟨q, hq, -⟩ := target_of_inBuffer (w := .w8) h
  refine ⟨s.respond (s.readBuffer off.toNat .w8), ?_, ?_, rfl⟩
  · simp only [hostAccess, busRead, hq]
  · rw [State.respond_resp, State.readBuffer_w8, hb]

/-- What an access other than a write to `CTRL` keeps, and the two things it can change that the
statements look at: `INTEN.IE`, and bytes of a buffer other than OUT. -/
structure PlainAccess (a : Access) (s t : State) : Prop where
  cfg : t.cfg = s.cfg
  phase : t.phase = s.phase
  err : t.err = s.err
  outLen : t.outLen = s.outLen
  infos : t.errInfo0 = s.errInfo0 ∧ t.errInfo1 = s.errInfo1 ∧ t.errInfo2 = s.errInfo2
  ie : t.ie = s.ie ∨ ∃ v, a = .write .w32 0x000018 v ∧ t.ie = v.getLsbD 0
  mem : t.mem = s.mem ∨ ∃ (sp : Space) (b : Nat) (B : Bytes), sp ≠ .output ∧
    sp.offset ≤ b ∧ b + B.length ≤ sp.offset + sp.size s.cfg ∧ t.mem = s.mem.setBytes b B

/-- What an admitted access can do: a write to `CTRL` sets off its strobes, every other access is
plain. -/
theorem hostAccess_ctrl_or_plain {s t : State} {a : Access} (h : hostAccess a s = .next t) :
    (∃ v, a = ctrlWrite v ∧ t = { s.writeCtrl v with resp := .written }) ∨ PlainAccess a s t := by
  rcases hostAccess_cases h with ⟨v, rfl⟩ | rfl | hctrl | ⟨-, off, v, rfl, -, -, hie, hie', ht⟩ |
    ⟨-, w, off, v, sp, rfl, hsp, ⟨-, hlo, hhi⟩, rfl⟩
  · exact .inr ⟨rfl, rfl, rfl, rfl, ⟨rfl, rfl, rfl⟩, .inl rfl, .inl rfl⟩
  · exact .inr ⟨rfl, rfl, rfl, rfl, ⟨rfl, rfl, rfl⟩, .inl rfl, .inl rfl⟩
  · exact .inl hctrl
  · refine .inr ⟨by rw [ht], by rw [ht], by rw [ht], by rw [ht],
      ⟨by rw [ht], by rw [ht], by rw [ht]⟩, ?_, .inl (by rw [ht])⟩
    by_cases ho : off = 0x000018
    · exact .inr ⟨v, by rw [ho], hie ho⟩
    · exact .inl (hie' ho)
  · exact .inr ⟨rfl, rfl, rfl, rfl, ⟨rfl, rfl, rfl⟩, .inl rfl,
      .inr ⟨sp, off.toNat, _, hsp, hlo, by rwa [length_bytesLe], rfl⟩⟩

/-- What the end of a turn in BUSY is, in the words of the statements. -/
theorem engineTurn_endsWith {s : State} {r : Except CmdFault Bytes} (hb : s.phase = .busy)
    (hr : engineResult s = r) : ∃ t, engineTurn s = .next t ∧ EndsWith s t r := by
  refine ⟨_, engineTurn_of_busy hb, ?_⟩
  rw [hr]
  exact endsWith_finish fun B hB => engineResult_length (hr.trans hB)

/-- The engine's turn outside BUSY passes. -/
theorem engineTurn_of_not_busy {s : State} (hb : s.phase ≠ .busy) : engineTurn s = .next s := by
  rcases engineTurn_cases s with ⟨h, -⟩ | ⟨-, h⟩
  · exact absurd h hb
  · exact h

/-- In BUSY the engine's turn ends the command in DONE or FAULT. -/
theorem engineTurn_phase {s : State} (hb : s.phase = .busy) :
    ∃ t, engineTurn s = .next t ∧ (t.phase = .done ∨ t.phase = .fault) := by
  refine ⟨_, engineTurn_of_busy hb, ?_⟩
  rw [State.finish_phase]
  cases engineResult s
  · exact .inr rfl
  · exact .inl rfl

/-- The step that a pending write to `CTRL` takes. -/
theorem step_ctrlWrite {s : State} {v : Word} {es : List Event}
    (h : s.events = .access (ctrlWrite v) :: es) :
    step s = .next { s.pop.writeCtrl v with resp := .written } := by
  rw [step_of_cons h]
  exact hostAccess_ctrlWrite s.pop v

theorem step_hardReset {s : State} {es : List Event} (h : s.events = .hardReset :: es) :
    step s = .next s.pop.hardReset := step_of_cons h

/-! ## The invariant -/

/-- A memory in canonical form that lists offsets of the five buffers only. -/
structure MemOk (c : Config) (m : Memory) : Prop where
  wf : m.wf
  mapped : ∀ p ∈ m, mapped c p.1 = true

theorem memOk_of_inv {s : State} (h : s.Inv) : MemOk s.cfg s.mem := ⟨h.memWf, h.memMapped⟩

theorem memOk_nil (c : Config) : MemOk c [] := ⟨Memory.wf_nil, by simp⟩

theorem memOk_forget {c : Config} {m : Memory} (h : MemOk c m) (a n : Nat) :
    MemOk c (m.forget a n) :=
  ⟨Memory.wf_forget h.wf a n, fun p hp => h.mapped p (Memory.mem_forget hp).1⟩

/-- A store inside one buffer keeps the form. -/
theorem memOk_setBytes {c : Config} {m : Memory} (h : MemOk c m) {sp : Space} {a : Nat} {B : Bytes}
    (hlo : sp.offset ≤ a) (hhi : a + B.length ≤ sp.offset + sp.size c) :
    MemOk c (m.setBytes a B) := by
  refine ⟨Memory.wf_setBytes B h.wf a, fun p hp => ?_⟩
  rcases Memory.mem_setBytes hp with ⟨h1, h2⟩ | hp
  · exact mapped_of_inBuffer (sp := sp) (by omega) (by omega)
  · exact h.mapped p hp

theorem memOk_finish {s : State} (h : MemOk s.cfg s.mem) {r : Except CmdFault Bytes}
    (hr : ∀ B, r = .ok B → B.length ≤ s.cfg.outMax) : MemOk s.cfg (s.finish r).mem := by
  have hout := memOk_forget h Space.output.offset (Space.output.size s.cfg)
  cases r with
  | error f => exact hout
  | ok B => exact memOk_setBytes (sp := .output) hout le_rfl (Nat.add_le_add_left (hr B rfl) _)

/-- The buffers other than OUT end below it. -/
theorem le_output_offset {c : Config} (hc : c.wf = true) {sp : Space} (hsp : sp ≠ .output) :
    sp.offset + sp.size c ≤ Space.output.offset := by
  obtain ⟨-, hin, -, -⟩ := capacities_of_wf hc
  cases sp
  case output => exact absurd rfl hsp
  all_goals
    simp only [Space.offset, Space.size]
    omega

/-- The invariant speaks of the configuration, the phase, the result and the memory only, and of the
memory beside its form no more than of OUT. -/
theorem inv_of_result_kept {s t : State} (hs : s.Inv) (hcfg : t.cfg = s.cfg)
    (hphase : t.phase = s.phase) (herr : t.err = s.err) (hlen : t.outLen = s.outLen)
    (hinfo : t.errInfo0 = s.errInfo0 ∧ t.errInfo1 = s.errInfo1 ∧ t.errInfo2 = s.errInfo2)
    (hmem : MemOk s.cfg t.mem)
    (hout : ∀ a, Space.output.offset ≤ a → t.mem.get a = s.mem.get a) : t.Inv := by
  obtain ⟨h0, h1, h2⟩ := hinfo
  have hget : ∀ i, t.mem.get (Space.output.offset + i) = s.mem.get (Space.output.offset + i) :=
    fun i => hout _ (Nat.le_add_right _ i)
  constructor
  case cfgWf => rw [hcfg]; exact hs.cfgWf
  case memWf => exact hmem.wf
  case memMapped => rw [hcfg]; exact hmem.mapped
  case errIff => rw [herr, hphase]; exact hs.errIff
  case errLegal => rw [herr, hphase]; exact hs.errLegal
  case infoZero => rw [hphase, h0, h1, h2]; exact hs.infoZero
  case outLenZero => rw [hphase, hlen]; exact hs.outLenZero
  case outLenLe => rw [hlen, hcfg]; exact hs.outLenLe
  case payload => simp only [hphase, hlen, hget]; exact hs.payload
  case outUnspecified => simp only [hlen, hcfg, hget]; exact hs.outUnspecified

/-- A state without a result, in IDLE or BUSY. -/
theorem inv_of_cleared {t : State} (hcfg : t.cfg.wf = true) (hmem : MemOk t.cfg t.mem)
    (hphase : t.phase = .idle ∨ t.phase = .busy) (hclear : Cleared t)
    (hout : OutUnspecified t.cfg t) : t.Inv := by
  obtain ⟨hlen, herr, h0, h1, h2⟩ := hclear
  have hdone : t.phase ≠ .done := by rcases hphase with h | h <;> simp [h]
  have hfault : t.phase ≠ .fault := by rcases hphase with h | h <;> simp [h]
  constructor
  case cfgWf => exact hcfg
  case memWf => exact hmem.wf
  case memMapped => exact hmem.mapped
  case errIff => simp [herr, hfault]
  case errLegal => exact fun h => absurd h hfault
  case infoZero => exact fun _ => ⟨h0, h1, h2⟩
  case outLenZero => exact fun _ => hlen
  case outLenLe => simp [hlen]
  case payload => exact fun h => absurd h hdone
  case outUnspecified => exact fun i _ hi => hout _ ⟨by omega, by omega⟩

/-- The end of a command in DONE. -/
theorem inv_of_done {s t : State} {B : Bytes} (hs : s.Inv) (hphase : s.phase ≠ .fault)
    (h : Done s t B) (hmem : MemOk s.cfg t.mem) : t.Inv := by
  have hcfg := h.kept.cfg
  obtain ⟨-, -, -, hmax⟩ := capacities_of_wf hs.cfgWf
  have hfits := h.fits
  have hlen : t.outLen.toNat = B.length := by
    rw [h.outLen, BitVec.toNat_ofNat, Nat.mod_eq_of_lt (by omega)]
  obtain ⟨h0, h1, h2⟩ := h.infos
  constructor
  case cfgWf => rw [hcfg]; exact hs.cfgWf
  case memWf => exact hmem.wf
  case memMapped => rw [hcfg]; exact hmem.mapped
  case errIff => simp [h.err, h.phase]
  case errLegal => simp [h.phase]
  case infoZero => rw [h0, h1, h2]; exact fun _ => hs.infoZero hphase
  case outLenZero => exact fun hd => absurd h.phase hd
  case outLenLe => rw [hlen, hcfg]; exact hfits
  case payload =>
    intro _ i hi
    rw [h.payload i (by omega), Option.isSome_some]
  case outUnspecified =>
    rw [hlen, hcfg]
    exact h.rest

/-- The end of a command in FAULT. -/
theorem inv_of_faulted {s t : State} {f : CmdFault} (hs : s.Inv)
    (h : Faulted s t f.code f.info0 f.info1 f.info2) (hmem : MemOk s.cfg t.mem) : t.Inv := by
  have hcfg := h.kept.cfg
  constructor
  case cfgWf => rw [hcfg]; exact hs.cfgWf
  case memWf => exact hmem.wf
  case memMapped => rw [hcfg]; exact hmem.mapped
  case errIff => exact iff_of_true (by rw [h.err]; exact f.code_ne_zero) h.phase
  case errLegal => rw [h.err]; exact fun _ => f.code_mem_legalCodes
  case infoZero => exact fun hf => absurd h.phase hf
  case outLenZero => exact fun _ => h.outLen
  case outLenLe => simp [h.outLen]
  case payload => simp [h.phase]
  case outUnspecified =>
    rw [hcfg]
    exact fun i _ hi => h.out _ ⟨by omega, by omega⟩

/-! ### What keeps it -/

theorem inv_pop {s : State} (hs : s.Inv) : s.pop.Inv :=
  inv_of_result_kept hs rfl rfl rfl rfl ⟨rfl, rfl, rfl⟩ (memOk_of_inv hs) fun _ _ => rfl

theorem inv_resp {s : State} (hs : s.Inv) (r : BusResp) : State.Inv { s with resp := r } :=
  inv_of_result_kept hs rfl rfl rfl rfl ⟨rfl, rfl, rfl⟩ (memOk_of_inv hs) fun _ _ => rfl

/-- The result is cleared and OUT forgotten: what GO, ACK and the soft reset have in common. -/
theorem inv_of_cleared_forgetOut {s t : State} (hs : s.Inv) (hcfg : t.cfg = s.cfg)
    (hmem : t.mem = s.forgetOut.mem) (hphase : t.phase = .idle ∨ t.phase = .busy)
    (hclear : Cleared t) : t.Inv := by
  refine inv_of_cleared ?_ ?_ hphase hclear ?_ <;> rw [hcfg]
  · exact hs.cfgWf
  · rw [hmem]
    exact memOk_forget (memOk_of_inv hs) _ _
  · intro a ha
    rw [hmem]
    exact outUnspecified_forgetOut s a ha

theorem inv_go {s : State} (hs : s.Inv) : s.go.Inv := by
  rcases s.go_cases with ⟨-, h⟩ | ⟨-, h⟩ <;> rw [h]
  · exact hs
  · exact inv_of_cleared_forgetOut hs rfl rfl (.inr rfl) ⟨rfl, rfl, rfl, rfl, rfl⟩

theorem inv_ack {s : State} (hs : s.Inv) : s.ack.Inv := by
  rcases s.ack_cases with ⟨-, h⟩ | ⟨-, h⟩ <;> rw [h]
  · exact hs
  · exact inv_of_cleared_forgetOut hs rfl rfl (.inl rfl) ⟨rfl, rfl, rfl, rfl, rfl⟩

theorem inv_softReset {s : State} (hs : s.Inv) : s.softReset.Inv :=
  inv_of_cleared_forgetOut hs rfl rfl (.inl rfl) ⟨rfl, rfl, rfl, rfl, rfl⟩

theorem inv_hardReset {s : State} (hs : s.Inv) : s.hardReset.Inv :=
  inv_of_cleared hs.cfgWf (memOk_nil _) (.inl rfl) ⟨rfl, rfl, rfl, rfl, rfl⟩ fun _ _ => rfl

theorem inv_writeCtrl {s : State} (hs : s.Inv) (v : Word) : (s.writeCtrl v).Inv := by
  rcases s.writeCtrl_cases v with ⟨-, h⟩ | ⟨-, -, -, h⟩ | ⟨-, -, -, h⟩ | ⟨-, -, -, h⟩ |
    ⟨-, -, -, h⟩ <;> rw [h]
  · exact inv_softReset hs
  · exact hs
  · exact inv_go hs
  · exact inv_ack hs
  · exact inv_go (inv_ack hs)

/-- A plain access stores below OUT, if anywhere. -/
theorem inv_plainAccess {s t : State} {a : Access} (hs : s.Inv) (h : PlainAccess a s t) : t.Inv := by
  refine inv_of_result_kept hs h.cfg h.phase h.err h.outLen h.infos ?_ ?_
  · rcases h.mem with hm | ⟨sp, b, B, -, hlo, hhi, hm⟩ <;> rw [hm]
    · exact memOk_of_inv hs
    · exact memOk_setBytes (memOk_of_inv hs) hlo hhi
  · intro x hx
    rcases h.mem with hm | ⟨sp, b, B, hsp, hlo, hhi, hm⟩ <;> rw [hm]
    exact Memory.get_setBytes_out _ _ _ _
      (.inr (hhi.trans ((le_output_offset hs.cfgWf hsp).trans hx)))

theorem inv_hostAccess {s t : State} {a : Access} (hs : s.Inv) (h : hostAccess a s = .next t) :
    t.Inv := by
  rcases hostAccess_ctrl_or_plain h with ⟨v, -, rfl⟩ | hplain
  · exact inv_resp (inv_writeCtrl hs v) _
  · exact inv_plainAccess hs hplain

theorem inv_finish {s : State} (hs : s.Inv) (hphase : s.phase = .busy) {r : Except CmdFault Bytes}
    (hr : ∀ B, r = .ok B → B.length ≤ s.cfg.outMax) : (s.finish r).Inv := by
  have hmem := memOk_finish (memOk_of_inv hs) hr
  have hend := endsWith_finish hr
  cases r with
  | ok B => exact inv_of_done hs (by simp [hphase]) hend hmem
  | error f => exact inv_of_faulted hs hend hmem

theorem inv_engineTurn {s t : State} (hs : s.Inv) (h : engineTurn s = .next t) : t.Inv := by
  rcases engineTurn_cases s with ⟨hb, he⟩ | ⟨-, he⟩ <;> cases he.symm.trans h
  · exact inv_finish hs hb fun B => engineResult_length
  · exact hs

/-- Settles O40: of the kinds of step, an access stores below OUT or sets off a strobe, a strobe and a
reset clear the result, and the engine's turn puts a result of at most `OUT_MAX` bytes in its place. -/
theorem stepKeepsInvariant : Obligations.StepKeepsInvariant := by
  unfold Obligations.StepKeepsInvariant
  intro s t hs h
  rcases step_cases s with ⟨-, e⟩ | ⟨es, -, e⟩ | ⟨a, es, -, e⟩ | ⟨es, -, e⟩ <;> rw [e] at h
  · exact inv_engineTurn hs h
  · exact inv_engineTurn (inv_pop hs) h
  · exact inv_hostAccess (inv_pop hs) h
  · cases h
    exact inv_hardReset (inv_pop hs)

/-- Settles O41. -/
theorem resetHasInvariant : Obligations.ResetHasInvariant :=
  inv_of_cleared (by decide +kernel) (memOk_nil _) (.inl rfl) ⟨rfl, rfl, rfl, rfl, rfl⟩
    fun _ _ => rfl

end Sys2Proof.Laws

namespace Sys2Proof.Laws

open Sys2Proof.Machine Sys2Proof.Claims

/-! ## The engine's step and the end of a command -/

/-- Settles O8: the turn ends the command with `engineResult`, which is the result of the pipeline that
the decoded word names. (In a namespace of its own: `engineStep` is the model's function.) -/
theorem Engine.engineStep : Obligations.EngineStep := by
  unfold Obligations.EngineStep
  refine ⟨fun s hb => engineTurn_of_not_busy hb, fun s hb => ⟨?_, ?_, ?_, ?_⟩⟩
  · exact fun hd => engineTurn_endsWith hb (by simp only [engineResult, hd, decodeFault])
  · exact fun b hd => engineTurn_endsWith hb (by simp only [engineResult, hd, decodeFault])
  · exact fun d b ap hd => engineTurn_endsWith hb (by simp only [engineResult, hd, resultOf_ofBx])
  · exact fun d m o hd => engineTurn_endsWith hb (by simp only [engineResult, hd, resultOf_ofSm4])

/-- After a command in DONE the bytes of OUT with a value are the payload. -/
theorem isSome_output_of_done {s t : State} {B : Bytes} (h : Done s t B) {j : Nat}
    (hj : j < s.cfg.outMax) :
    (t.mem.get (Space.output.offset + j)).isSome = true ↔ j < B.length := by
  by_cases hB : j < B.length
  · simp [h.payload j hB, hB]
  · simp [h.rest j (by omega) hj, hB]

/-- Settles O9: a command ends in DONE with a payload or in FAULT with a fault, and the frame is that of
its end. -/
theorem commandFrame : Obligations.CommandFrame := by
  unfold Obligations.CommandFrame
  intro i s
  have hfits : ∀ B, resultOf i s = .ok B → B.length ≤ s.cfg.outMax := fun _ => resultOf_length
  refine ⟨_, exec_eq_finish i s, kept_finish s _ hfits, ?_⟩
  cases hr : resultOf i s with
  | ok B =>
    have h := done_finish (hfits B hr)
    exact ⟨h.resp, .inl h.phase, fun _ => ⟨h.err, h.infos⟩, fun hf => absurd (h.phase.symm.trans hf)
      (by decide), B.length, h.outLen, h.fits, fun j hj => isSome_output_of_done h hj⟩
  | error f =>
    have h := faulted_finish s f
    refine ⟨h.resp, .inr h.phase, fun hd => absurd (h.phase.symm.trans hd) (by decide),
      fun _ => ⟨h.err ▸ f.code_mem_legalCodes, h.outLen⟩, 0, h.outLen, Nat.zero_le _, fun j hj => ?_⟩
    have hnone := h.out (Space.output.offset + j) ⟨by omega, by omega⟩
    simp [hnone]

/-- In BUSY the engine's turn is `exec` of the decoded command. -/
theorem engineTurn_of_decode {s : State} {i : Instr} (hb : s.phase = .busy)
    (hd : decode s.cmd = .ok i) : engineTurn s = exec i s := by
  simp only [engineTurn, hb, engineStep, hd]

/-- Settles O6. -/
theorem stepRunsDecodedCommand : Obligations.StepRunsDecodedCommand := by
  unfold Obligations.StepRunsDecodedCommand
  intro s i hb hd
  refine ⟨fun h => (step_of_nil h).trans (engineTurn_of_decode hb hd), fun es h => ?_⟩
  have hpop : s.pop = { s with events := es } := by simp [State.pop, h]
  rw [← hpop]
  exact (step_of_cons h).trans (engineTurn_of_decode (s := s.pop) hb hd)

/-! ## The strobes and the resets -/

/-- Settles O26: with GO set, ACK or not, the write acts as GO. -/
theorem goStartsCommand : Obligations.GoStartsCommand := by
  unfold Obligations.GoStartsCommand
  intro s v h0 h31
  rw [hostAccess_ctrlWrite, s.writeCtrl_of_go h31 h0]
  refine ⟨fun hb => ⟨_, rfl, ?_⟩, fun hb => by rw [State.go_of_busy hb]⟩
  rw [State.go_of_not_busy hb]
  exact started_start s

/-- Settles O27. -/
theorem ackReturnsToIdle : Obligations.AckReturnsToIdle := by
  unfold Obligations.AckReturnsToIdle
  intro s v h1 h0 h31
  rw [hostAccess_ctrlWrite, s.writeCtrl_of_ack h31 h1 h0]
  rcases s.ack_cases with ⟨hp, h⟩ | ⟨hp, h⟩ <;> rw [h]
  · refine ⟨fun hd => ?_, fun _ => rfl⟩
    rcases hp with hp | hp <;> simp [hp] at hd
  · refine ⟨fun _ => ⟨_, rfl, kept_toIdle s, rfl, ⟨rfl, rfl, rfl, rfl, rfl⟩,
      outUnspecified_forgetOut s⟩, fun hi => ?_⟩
    rcases hp with hp | hp <;> simp [hp] at hi

/-- Settles O28. -/
theorem resetsClear : Obligations.ResetsClear := by
  unfold Obligations.ResetsClear
  constructor
  · intro s v h31
    refine ⟨_, hostAccess_ctrlWrite s v, ?_⟩
    rw [s.writeCtrl_of_srst h31]
    exact ⟨rfl, rfl, rfl, rfl, rfl, rfl, rfl, rfl, ⟨rfl, rfl, rfl, rfl, rfl⟩,
      outUnspecified_forgetOut s, fun _ ha => get_forgetOut_of_not_inOut s ha⟩
  · intro s es h
    exact ⟨_, step_hardReset h, rfl, rfl, rfl, rfl, rfl, rfl, rfl, rfl, ⟨rfl, rfl, rfl, rfl, rfl⟩,
      fun _ => rfl⟩

/-- Settles O30: what a write does is a function of its three strobe bits. -/
theorem strobeOrder : Obligations.StrobeOrder := by
  unfold Obligations.StrobeOrder
  intro s v
  simp only [hostAccess_ctrlWrite]
  refine ⟨fun h31 => ?srst, fun h31 h1 h0 => ⟨_, rfl, ?ackGo⟩, fun h31 h1 h0 => ?ack,
    fun h31 h1 h0 => ?go, fun h31 h1 h0 => ?none, readsAs_reg s .ctrl rfl⟩
  case srst => rw [s.writeCtrl_of_srst h31, s.writeCtrl_of_srst (by decide)]
  case ackGo =>
    rw [s.writeCtrl_of_go h31 h0, s.writeCtrl_of_ack (by decide) (by decide) (by decide),
      State.writeCtrl_of_go _ (by decide) (by decide), State.go_resp s.ack .written, s.go_ack]
  case ack =>
    rw [s.writeCtrl_of_ack h31 h1 h0, s.writeCtrl_of_ack (by decide) (by decide) (by decide)]
  case go => rw [s.writeCtrl_of_go h31 h0, s.writeCtrl_of_go (by decide) (by decide)]
  case none => rw [s.writeCtrl_of_none h31 h1 h0]

/-! ## The register page and the buffers on the bus -/

/-- In BUSY a write is a bus error or dropped, unless it is a soft reset. -/
theorem hostAccess_write_of_busy {s : State} (hb : s.phase = .busy) {w : Width} {off : Offset}
    {v : Word} (h : ¬ (off = 0x000010 ∧ v.getLsbD 31 = true)) :
    hostAccess (.write w off v) s = .fault .busError ∨
      hostAccess (.write w off v) s = .next { s with resp := .written } := by
  simp only [hostAccess]
  rcases busWrite_cases s w off.toNat v with ⟨-, e⟩ | ⟨-, e⟩ | ⟨sp, -, e⟩
  · exact .inl e
  · have hctrl : ¬ (off.toNat = Reg.offset .ctrl ∧ v.getLsbD 31 = true) :=
      fun ⟨ho, h31⟩ => h ⟨BitVec.eq_of_toNat_eq ho, h31⟩
    rw [State.writePage_of_busy hb hctrl] at e
    exact .inr e
  · rw [State.writeBuffer_of_busy hb] at e
    exact .inr e

/-- In BUSY a result register reads as a free value. -/
theorem readReg_result_of_busy {s : State} (hb : s.phase = .busy) {r : Reg}
    (hr : r = .outLen ∨ r = .errInfo0 ∨ r = .errInfo1 ∨ r = .errInfo2) :
    s.readReg r = Config.freeWord s.draws r.offset := by
  rcases hr with rfl | rfl | rfl | rfl <;> exact State.resultReg_of_busy hb _ _

/-- In BUSY no byte of OUT has a value. -/
theorem get_output_of_busy {s : State} (hs : s.Inv) (hb : s.phase = .busy) {a : Nat}
    (h : InBuffer s.cfg .output a 1) : s.mem.get a = none := by
  obtain ⟨-, hlo, hhi⟩ := h
  have hlen : s.outLen = 0 := hs.outLenZero (by simp [hb])
  have hout := hs.outUnspecified (a - Space.output.offset) (by simp [hlen])
    (by simp only [Space.size] at hhi; omega)
  rwa [Nat.add_sub_cancel' hlo] at hout

/-- Settles O31. -/
theorem busyDropsWrites : Obligations.BusyDropsWrites := by
  unfold Obligations.BusyDropsWrites
  intro s hs hb
  refine ⟨fun w off v h => hostAccess_write_of_busy hb h, readsAs_reg s .id rfl,
    readsAs_reg s .capIn rfl, readsAs_reg s .capOut rfl, readsAs_reg s .cmd rfl,
    readsAs_reg s .status rfl, readsAs_reg s .inten rfl, readsAs_reg s .inLen rfl,
    readsAs_reg s .alphaLen rfl, readsAs_reg s .keyLen rfl, readsAs_reg s .ivLen rfl,
    fun r hr => readsAs_reg s r (readReg_result_of_busy hb hr), ?_, ?_⟩
  · exact fun sp off b _ hin hget => hostAccess_byteRead hin (State.byteAt_of_some hget)
  · exact fun off hin =>
      hostAccess_byteRead hin (State.byteAt_of_none (get_output_of_busy hs hb hin))

/-- A reserved location reads 0 and ignores writes (10_state.md R29). -/
theorem reserved_location (s : State) (v : Word) {off : Offset}
    (h : off = 0x01C ∨ (0x040 ≤ off.toNat ∧ off.toNat < 0x100)) (hal : off.toNat % 4 = 0) :
    ReadsAs s off 0 ∧ WritesTo s off v s := by
  have ha : off.toNat = 0x1C ∨ (0x40 ≤ off.toNat ∧ off.toNat < 0x100) :=
    h.imp_left (congrArg BitVec.toNat)
  have hlt : off.toNat < 0x100 := by omega
  have hr := regAt_reserved _ ha
  exact ⟨readsAs_of_readPage s off 0 hlt hal (s.readPage_of_reserved hr),
    writesTo_of_writePage s s off v hlt hal (s.writePage_of_reserved hr v)⟩

/-- Outside BUSY no write to a register is dropped. -/
theorem register_location {s : State} (hb : s.phase ≠ .busy) (v : Word) (r : Reg) {x : Word}
    {t : State} (hx : s.readReg r = x) (ht : s.storeReg r v = t) :
    ReadsAs s (BitVec.ofNat 22 r.offset) x ∧ WritesTo s (BitVec.ofNat 22 r.offset) v t :=
  ⟨readsAs_reg s r hx, writesTo_reg s r ((State.writeReg_of_not_busy hb r v).trans ht)⟩

theorem writeReg_id (s : State) (v : Word) : s.writeReg .id v = s := by
  simp [State.writeReg, State.storeReg]

theorem readReg_inten (s : State) : s.readReg .inten = if s.ie then 1 else 0 := by
  cases h : s.ie <;> simp [State.readReg, h]

/-- Settles O33. -/
theorem registerPage : Obligations.RegisterPage := by
  unfold Obligations.RegisterPage
  intro s v
  refine ⟨⟨readsAs_reg s .id rfl, writesTo_reg s .id (writeReg_id s v)⟩,
    fun off h hal => reserved_location s v h hal, fun hb => ?_⟩
  have result (r : Reg) (x : Word) : s.resultReg r x = x := State.resultReg_of_not_busy hb r x
  exact ⟨register_location hb v .capIn rfl rfl, register_location hb v .capOut rfl rfl,
    register_location hb v .cmd rfl rfl, readsAs_reg s .ctrl rfl,
    register_location hb v .status rfl rfl,
    register_location hb v .inten (readReg_inten s) rfl,
    register_location hb v .inLen rfl rfl, register_location hb v .alphaLen rfl rfl,
    register_location hb v .keyLen rfl rfl, register_location hb v .ivLen rfl rfl,
    register_location hb v .outLen (result _ _) rfl,
    register_location hb v .errInfo0 (result _ _) rfl,
    register_location hb v .errInfo1 (result _ _) rfl,
    register_location hb v .errInfo2 (result _ _) rfl⟩

/-- Settles O34. -/
theorem statusWord : Obligations.StatusWord := by
  unfold Obligations.StatusWord
  intro s
  obtain ⟨hstate, hlow, herr, hhigh⟩ := s.status_fields
  refine ⟨s.status, readsAs_reg s .status rfl, ?_, hlow, herr, hhigh, fun hs => ?_⟩
  · rw [hstate]
    cases s.phase <;> rfl
  · rw [herr, hstate]
    refine hs.errIff.trans ?_
    cases s.phase <;> decide

/-- Every register but the identification and the two capacities reads 0 in the reset state. -/
theorem readReg_reset {r : Reg} (h : 0x00C ≤ r.offset) : State.reset.readReg r = 0 := by
  cases r
  case id => exact absurd h (by decide)
  case capIn => exact absurd h (by decide)
  case capOut => exact absurd h (by decide)
  all_goals rfl

/-- Settles O29. -/
theorem resetState : Obligations.ResetState := by
  unfold Obligations.ResetState
  refine ⟨fun _ => rfl, rfl, rfl, readsAs_reg _ .id rfl, readsAs_reg _ .capIn rfl,
    readsAs_reg _ .capOut rfl, fun off hlo hhi hal => readsAs_of_readPage _ off 0 hhi hal ?_⟩
  cases hr : Reg.at off.toNat with
  | none => exact State.readPage_of_reserved _ hr
  | some r =>
    have ho : r.offset = off.toNat := beq_iff_eq.1 (Reg.at_some hr)
    rw [← ho] at hlo ⊢
    rw [State.readPage_offset, readReg_reset hlo]

/-! ## What steps do to the level, the phase and the configuration -/

/-- Outside BUSY the engine's turn leaves the level as it is, and in BUSY the level is low. -/
theorem irq_of_engineTurn {s t : State} (h : engineTurn s = .next t) (hs : s.irq = true) :
    t.irq = true := by
  have hb : s.phase ≠ .busy := by
    rcases (s.irq_iff.1 hs).2 with hp | hp <;> simp [hp]
  cases (engineTurn_of_not_busy hb).symm.trans h
  exact hs

/-- The accesses after which a high level can be low. -/
theorem access_of_irq_falls {s t : State} {a : Access} (h : hostAccess a s = .next t)
    (hs : s.irq = true) (ht : t.irq = false) :
    (∃ v, a = ctrlWrite v ∧ (v.getLsbD 0 = true ∨ v.getLsbD 1 = true ∨ v.getLsbD 31 = true)) ∨
      ∃ v, a = .write .w32 0x000018 v ∧ v.getLsbD 0 = false := by
  obtain ⟨hie, hp⟩ := s.irq_iff.1 hs
  have hlow : ¬ (t.ie = true ∧ (t.phase = .done ∨ t.phase = .fault)) := by
    rw [← t.irq_iff, ht]
    decide
  rcases hostAccess_ctrl_or_plain h with ⟨v, ha, rfl⟩ | hplain
  · refine .inl ⟨v, ha, ?_⟩
    by_contra hv
    simp only [not_or, Bool.not_eq_true] at hv
    obtain ⟨h0, h1, h31⟩ := hv
    rw [s.writeCtrl_of_none h31 h1 h0] at hlow
    exact hlow ⟨hie, hp⟩
  · rw [hplain.phase] at hlow
    rcases hplain.ie with he | ⟨v, ha, he⟩
    · exact absurd ⟨he.trans hie, hp⟩ hlow
    · refine .inr ⟨v, ha, ?_⟩
      rw [← he]
      exact Bool.eq_false_iff.2 fun ht => hlow ⟨ht, hp⟩

/-- Settles O38. -/
theorem irqLevel : Obligations.IrqLevel := by
  unfold Obligations.IrqLevel
  refine ⟨State.irq_iff, fun s t h hs ht => ?_⟩
  rcases step_cases s with ⟨-, e⟩ | ⟨es, -, e⟩ | ⟨a, es, hev, e⟩ | ⟨es, hev, -⟩
  · exact absurd (irq_of_engineTurn (e.symm.trans h) hs) (by simp [ht])
  · exact absurd (irq_of_engineTurn (e.symm.trans h) (show s.pop.irq = true from hs)) (by simp [ht])
  · rw [hev]
    refine ⟨es, .inr ?_⟩
    rcases access_of_irq_falls (e.symm.trans h) (show s.pop.irq = true from hs) ht with
      ⟨v, rfl, hv⟩ | ⟨v, rfl, hv⟩
    · exact .inl ⟨v, rfl, hv⟩
    · exact .inr ⟨v, rfl, hv⟩
  · exact ⟨es, .inl hev⟩

/-- What an access can do to the phase: nothing, or what its strobes do. -/
theorem hostAccess_phase {s t : State} {a : Access} (h : hostAccess a s = .next t) :
    t.phase = s.phase ∨ ∃ v, a = ctrlWrite v ∧ t.phase = (s.writeCtrl v).phase := by
  rcases hostAccess_ctrl_or_plain h with ⟨v, ha, rfl⟩ | hplain
  · exact .inr ⟨v, ha, rfl⟩
  · exact .inl hplain.phase

/-- A turn of the engine that changes the phase ends a command. -/
theorem engineTurn_changes_phase {s t : State} (h : engineTurn s = .next t)
    (hne : t.phase ≠ s.phase) : s.phase = .busy ∧ (t.phase = .done ∨ t.phase = .fault) := by
  by_cases hb : s.phase = .busy
  · obtain ⟨u, hu, hp⟩ := engineTurn_phase hb
    cases hu.symm.trans h
    exact ⟨hb, hp⟩
  · cases (engineTurn_of_not_busy hb).symm.trans h
    exact absurd rfl hne

/-- Settles O39: an access changes the phase by a strobe only. -/
theorem phaseTransitions : Obligations.PhaseTransitions := by
  unfold Obligations.PhaseTransitions
  refine ⟨fun s t h hne => ?_, fun s => ⟨?_, ?_, ?_, ?_, ?_⟩⟩
  · rcases step_cases s with ⟨hev, e⟩ | ⟨es, hev, e⟩ | ⟨a, es, hev, e⟩ | ⟨es, hev, e⟩
    · obtain ⟨hb, hp⟩ := engineTurn_changes_phase (e.symm.trans h) hne
      exact .inr (.inl ⟨hb, hp, .inl hev⟩)
    · obtain ⟨hb, hp⟩ := engineTurn_changes_phase (e.symm.trans h) hne
      exact .inr (.inl ⟨hb, hp, .inr ⟨es, hev⟩⟩)
    · rcases hostAccess_phase (e.symm.trans h) with hp | ⟨v, rfl, hp⟩
      · exact absurd hp hne
      rcases s.pop.writeCtrl_phase_cases v with hv | ⟨h31, hv⟩ | ⟨h31, h0, hv⟩ | ⟨h31, h1, hd, hv⟩
      · exact absurd (hp.trans hv) hne
      · exact .inr (.inr (.inr ⟨hp.trans hv, .inl ⟨v, es, hev, h31⟩⟩))
      · have hb : t.phase = .busy := hp.trans hv
        exact .inl ⟨fun hs => hne (hb.trans hs.symm), hb, v, es, hev, h0, h31⟩
      · exact .inr (.inr (.inl ⟨hd, hp.trans hv, v, es, hev, h1, h31⟩))
    · cases e.symm.trans h
      exact .inr (.inr (.inr ⟨rfl, .inr ⟨es, hev⟩⟩))
  · intro _ v es hev h0 h31
    refine ⟨_, step_ctrlWrite hev, ?_⟩
    rw [s.pop.writeCtrl_of_go h31 h0]
    exact s.pop.go_phase
  · rintro hb (hev | ⟨es, hev⟩)
    · rw [step_of_nil hev]
      exact engineTurn_phase hb
    · rw [step_of_cons hev]
      exact engineTurn_phase (s := s.pop) hb
  · intro hb v es hev h1 h0 h31
    refine ⟨_, step_ctrlWrite hev, ?_⟩
    rw [s.pop.writeCtrl_of_ack h31 h1 h0]
    rcases s.pop.ack_cases with ⟨hp, h⟩ | ⟨-, h⟩ <;> rw [h]
    · exact hp.resolve_left hb
    · rfl
  · intro v es hev h31
    refine ⟨_, step_ctrlWrite hev, ?_⟩
    rw [s.pop.writeCtrl_of_srst h31]
    rfl
  · exact fun es hev => ⟨_, step_hardReset hev, rfl⟩

theorem writeCtrl_cfg (s : State) (v : Word) : (s.writeCtrl v).cfg = s.cfg := by
  have hgo (u : State) : u.go.cfg = u.cfg := by
    rcases u.go_cases with ⟨-, h⟩ | ⟨-, h⟩ <;> rw [h]
    rfl
  have hack : s.ack.cfg = s.cfg := by
    rcases s.ack_cases with ⟨-, h⟩ | ⟨-, h⟩ <;> rw [h]
    rfl
  rcases s.writeCtrl_cases v with ⟨-, h⟩ | ⟨-, -, -, h⟩ | ⟨-, -, -, h⟩ | ⟨-, -, -, h⟩ |
    ⟨-, -, -, h⟩ <;> rw [h]
  · rfl
  · exact hgo s
  · exact hack
  · exact (hgo s.ack).trans hack

theorem hostAccess_cfg {s t : State} {a : Access} (h : hostAccess a s = .next t) :
    t.cfg = s.cfg := by
  rcases hostAccess_ctrl_or_plain h with ⟨v, -, rfl⟩ | hplain
  · exact writeCtrl_cfg s v
  · exact hplain.cfg

theorem engineTurn_cfg {s t : State} (h : engineTurn s = .next t) : t.cfg = s.cfg := by
  rcases engineTurn_cases s with ⟨-, he⟩ | ⟨-, he⟩ <;> cases he.symm.trans h
  · exact (s.finish_keeps _).1
  · rfl

/-- No step changes the configuration. -/
theorem step_cfg {s t : State} (h : step s = .next t) : t.cfg = s.cfg := by
  rcases step_cases s with ⟨-, e⟩ | ⟨es, -, e⟩ | ⟨a, es, -, e⟩ | ⟨es, -, e⟩ <;> rw [e] at h
  · exact engineTurn_cfg h
  · exact engineTurn_cfg (s := s.pop) h
  · exact hostAccess_cfg (s := s.pop) h
  · cases h
    rfl

/-- Settles O42: a legal capacity fits 32 bits. -/
theorem capacitiesConstant : Obligations.CapacitiesConstant := by
  unfold Obligations.CapacitiesConstant
  refine ⟨fun s hc => ?_, fun s t => step_cfg⟩
  obtain ⟨-, hin, -, hout⟩ := capacities_of_wf hc
  refine ⟨_, _, readsAs_reg s .capIn rfl, ?_, readsAs_reg s .capOut rfl, ?_⟩
  · exact Nat.mod_eq_of_lt (hin.trans_lt (by decide))
  · exact Nat.mod_eq_of_lt (hout.trans_lt (by decide))

end Sys2Proof.Laws

/-! The window on the bus (spec/20_memory.md): the command words that the script writes decode back, then
one rule for each kind of access to a buffer, then the statements of that chapter. -/

namespace Sys2Proof

/-! ## The command word of a command decodes to it (spec/30_encoding.md R91 to R97) -/

theorem encode_ofBx (d : Bool) (b : Base) (ap : Bool) :
    encode (Instr.ofBx (Dir.ofBit d) b ap) = wordX b.field ap (1#3 ++ BitVec.ofBool d) := by
  cases d <;> cases b <;> rfl

theorem encode_ofSm4 (d : Bool) (m : Mode) (o : CipherOpts) :
    encode (Instr.ofSm4 (Dir.ofBit d) m o) = wordS o m.field (2#3 ++ BitVec.ofBool d) := by
  cases d <;> cases m <;> rfl

theorem decode_wordX (d : Bool) (b : Base) (ap : Bool) :
    decode (wordX b.field ap (1#3 ++ BitVec.ofBool d)) = .ok (Instr.ofBx (Dir.ofBit d) b ap) := by
  cases b <;> revert d ap <;> decide +kernel

theorem decode_wordS (d : Bool) (m : Mode) (o : CipherOpts) :
    decode (wordS o m.field (2#3 ++ BitVec.ofBool d)) = .ok (Instr.ofSm4 (Dir.ofBit d) m o) := by
  obtain ⟨p, f, k, ivp, ivtp, t⟩ := o
  cases m <;> cases p <;> cases f <;> cases k <;> cases t <;> revert d ivp ivtp <;> decide +kernel

theorem Dir.exists_ofBit (d : Dir) : ∃ b, Dir.ofBit b = d := by
  cases d
  · exact ⟨false, rfl⟩
  · exact ⟨true, rfl⟩

theorem decode_encode (i : Instr) : decode (encode i) = .ok i := by
  rcases Machine.Instr.cases_unit i with ⟨d, b, ap, rfl⟩ | ⟨d, m, o, rfl⟩ <;>
    obtain ⟨d, rfl⟩ := d.exists_ofBit
  · rw [encode_ofBx, decode_wordX]
  · rw [encode_ofSm4, decode_wordS]

end Sys2Proof

namespace Sys2Proof.Laws

open Sys2Proof.Machine Sys2Proof.Claims

/-! ## One access -/

/-- The step that a pending write to `CMD` takes. -/
theorem step_wr_cmd {s : State} {v : Word} {es : List Event} (hb : s.phase ≠ .busy)
    (h : s.events = wr .cmd v ++ es) :
    step s = .next { s with cmd := v, events := es, resp := .written } := by
  have hpop : s.pop = { s with events := es } := by simp [State.pop, h, wr]
  have hstep : step s = .next { s.pop.writeReg .cmd v with resp := .written } :=
    (step_of_cons h).trans (writesTo_reg s.pop .cmd rfl)
  rw [hstep, State.writeReg_of_not_busy (s := s.pop) hb, hpop]
  rfl

/-- The step that a pending GO takes outside BUSY. -/
theorem step_go {s : State} {es : List Event} (hb : s.phase ≠ .busy) (h : s.events = go ++ es) :
    step s = .next { ({ s with events := es } : State).start with resp := .written } := by
  have hpop : s.pop = { s with events := es } := by simp [State.pop, h, go, wr]
  rw [step_ctrlWrite h, State.writeCtrl_of_go _ (by decide) (by decide),
    State.go_of_not_busy (s := s.pop) hb, hpop]

/-- The block answers exactly the accesses that reach something, and every other one is a bus error. -/
theorem hostAccess_answers_or_busError {s : State} {a : Access} {w : Width} {off : Offset}
    (h : a = .read w off ∨ ∃ v, a = .write w off v) :
    ((target s.cfg w off.toNat).isSome = true ∧ ∃ t, hostAccess a s = .next t) ∨
      (¬ (target s.cfg w off.toNat).isSome = true ∧ hostAccess a s = .fault .busError) := by
  rcases h with rfl | ⟨v, rfl⟩
  · rcases busRead_cases s w off.toNat with ⟨hn, e⟩ | ⟨v, hs, e⟩
    · exact .inr ⟨by simp [hn], e⟩
    · exact .inl ⟨hs, _, e⟩
  · rcases busWrite_cases s w off.toNat v with ⟨hn, e⟩ | ⟨hs, e⟩ | ⟨sp, hs, e⟩
    · exact .inr ⟨by simp [hn], e⟩
    · exact .inl ⟨by simp [hs], _, e⟩
    · exact .inl ⟨by simp [hs], _, e⟩

/-- A read in a buffer answers the bytes there. -/
theorem hostAccess_bufferRead {s : State} {sp : Space} {w : Width} {off : Offset}
    (h : InBuffer s.cfg sp off.toNat w.bytes) :
    hostAccess (.read w off) s = .next (s.respond (s.readBuffer off.toNat w)) := by
  obtain ⟨q, hq, -⟩ := target_of_inBuffer h
  simp only [hostAccess, busRead, hq]

/-- A write in a buffer stores into that buffer, since the buffers do not overlap. -/
theorem hostAccess_bufferWrite {s : State} {sp : Space} {w : Width} {off : Offset} (v : Word)
    (hc : s.cfg.wf = true) (h : InBuffer s.cfg sp off.toNat w.bytes) :
    hostAccess (.write w off v) s =
      .next { s.writeBuffer sp off.toNat w v with resp := .written } := by
  obtain ⟨q, hq, hin⟩ := target_of_inBuffer h
  cases inBuffer_unique hc (Width_bytes_pos w) h hin
  simp only [hostAccess, busWrite, hq]

/-- An access above the register page that is answered lies in a buffer. -/
theorem inBuffer_of_answered {s t : State} {w : Width} {off : Offset}
    (h : hostAccess (.read w off) s = .next t) (hoff : 0x100 ≤ off.toNat) :
    ∃ sp : Space, InBuffer s.cfg sp off.toNat w.bytes := by
  rcases hostAccess_answers_or_busError (s := s) (.inl (rfl : Access.read w off = _)) with
    ⟨hs, -⟩ | ⟨-, e⟩
  · rcases (target_isSome_iff ..).1 hs with ⟨hlt, -⟩ | hin
    · omega
    · exact hin
  · cases e.symm.trans h

/-! ## The bytes of an access -/

/-- The word of an access holds `8 * w.bytes` bits. -/
theorem two_pow_bytes_le (w : Width) : 2 ^ (8 * w.bytes) ≤ 2 ^ 32 := by cases w <;> decide

/-- Where the bytes read have values, the word read does not depend on the free values. -/
theorem readBuffer_congr {s t : State} {a : Nat} {w : Width} (hmem : t.mem = s.mem)
    (h : ∀ i < w.bytes, (s.mem.get (a + i)).isSome = true) :
    t.readBuffer a w = s.readBuffer a w := by
  have hbytes : t.bytesAt a w.bytes = s.bytesAt a w.bytes := State.bytesAt_congr fun i hi => by
    obtain ⟨b, hb⟩ := Option.isSome_iff_exists.1 (h i hi)
    rw [State.byteAt_of_some hb, State.byteAt_of_some (hmem ▸ hb)]
  rw [State.readBuffer, hbytes, State.readBuffer]

/-- No bit of the number that the bytes form is lost in the word. -/
theorem readBuffer_toNat (s : State) (a : Nat) (w : Width) :
    (s.readBuffer a w).toNat = leNat (s.bytesAt a w.bytes) := by
  have hlt := leNat_lt (s.bytesAt a w.bytes)
  rw [State.length_bytesAt] at hlt
  exact Nat.mod_eq_of_lt (hlt.trans_le (two_pow_bytes_le w))

/-- A narrow read is zero above its width (log 14). -/
theorem readBuffer_lt (s : State) (a : Nat) (w : Width) :
    (s.readBuffer a w).toNat < 2 ^ (8 * w.bytes) := by
  have hlt := leNat_lt (s.bytesAt a w.bytes)
  rwa [← readBuffer_toNat, State.length_bytesAt] at hlt

/-- Byte `a + i` is in bits `8i+7` to `8i` of the word read. -/
theorem readBuffer_lane (s : State) (a : Nat) {w : Width} {i : Nat} (hi : i < w.bytes) :
    (s.readBuffer a w).extractLsb' (8 * i) 8 = s.byteAt (a + i) := by
  have hlen : i < (s.bytesAt a w.bytes).length := by rwa [State.length_bytesAt]
  apply BitVec.eq_of_toNat_eq
  rw [BitVec.extractLsb'_toNat, readBuffer_toNat, Nat.shiftRight_eq_div_pow,
    ← State.getElem_bytesAt _ _ _ _ hlen]
  exact leNat_byte _ i hlen

/-- Byte `i` of a word in bus order is its bits `8i+7` to `8i`. -/
theorem bytesLe_lane (v : Word) {k i : Nat} (h : i < (bytesLe k v.toNat).length) :
    (bytesLe k v.toNat)[i] = v.extractLsb' (8 * i) 8 := by
  rw [bytesLe_get]
  apply BitVec.eq_of_toNat_eq
  rw [BitVec.extractLsb'_toNat, Nat.shiftRight_eq_div_pow, BitVec.toNat_ofNat]

/-! ## The statements -/

/-- Settles O7: the write to `CMD` is stored, the write to `CTRL` is GO, and the engine's turn decodes the
word that was written. -/
theorem hostStartsCommand : Obligations.HostStartsCommand := by
  unfold Obligations.HostStartsCommand
  intro s i es hb hev
  exact ⟨_, _, step_wr_cmd hb hev, rfl, rfl, step_go hb rfl,
    started_start { s with cmd := encode i, events := .engineTurn :: es },
    (stepRunsDecodedCommand _ i rfl (decode_encode i)).2 es rfl⟩

/-- Settles O32. -/
theorem readsHaveNoSideEffect : Obligations.ReadsHaveNoSideEffect := by
  unfold Obligations.ReadsHaveNoSideEffect
  intro s t w off h
  constructor
  · rcases busRead_cases s w off.toNat with ⟨-, e⟩ | ⟨v, -, e⟩ <;> cases Eq.trans e.symm h
    rfl
  · intro hoff hknown
    obtain ⟨sp, hin⟩ := inBuffer_of_answered h hoff
    cases (hostAccess_bufferRead hin).symm.trans h
    exact ⟨_, hostAccess_bufferRead (s := s.respond _) hin,
      congrArg BusResp.data (readBuffer_congr rfl hknown)⟩

/-- Settles O35. -/
theorem busErrors : Obligations.BusErrors := by
  unfold Obligations.BusErrors
  intro s a w off ha
  rw [← target_isSome_iff]
  rcases hostAccess_answers_or_busError (s := s) ha with ⟨hs, ht⟩ | ⟨hn, he⟩
  · exact ⟨fun _ => ht, fun hn => absurd hs hn⟩
  · exact ⟨fun hs => absurd hs hn, fun _ => he⟩

/-- Settles O36. -/
theorem littleEndianBus : Obligations.LittleEndianBus := by
  unfold Obligations.LittleEndianBus
  constructor
  · intro s sp w off b hin hb
    refine ⟨_, _, hostAccess_bufferRead hin, rfl, fun i hi => ?_, readBuffer_lt s _ w⟩
    rw [readBuffer_lane s _ hi, State.byteAt_of_some (hb i hi)]
  · intro s sp w off v hc hin hsp hbusy
    refine ⟨_, hostAccess_bufferWrite v hc hin, fun i hi => ?_⟩
    rcases s.writeBuffer_cases sp off.toNat w v with ⟨h | h, -⟩ | ⟨-, -, e⟩
    · exact absurd h hbusy
    · exact absurd h hsp
    · rw [← length_bytesLe w.bytes v.toNat] at hi
      rw [e, ← bytesLe_lane v hi]
      exact Memory.get_setBytes_in _ _ _ _ hi

/-- Settles O37: the write is dropped, as it is in BUSY and in OUT, or stores its own bytes. -/
theorem bufferWriteFrame : Obligations.BufferWriteFrame := by
  unfold Obligations.BufferWriteFrame
  intro s sp w off v hc hin
  refine ⟨_, hostAccess_bufferWrite v hc hin, ?_⟩
  rcases s.writeBuffer_cases sp off.toNat w v with ⟨-, e⟩ | ⟨-, hsp, e⟩ <;> rw [e]
  · exact ⟨rfl, fun _ _ => rfl, fun _ => rfl⟩
  · refine ⟨rfl, fun a ha => ?_, fun ho => absurd ho hsp⟩
    exact Memory.get_setBytes_out _ _ _ _ (by rwa [length_bytesLe])

end Sys2Proof.Laws

/-! The encoding of the commands (spec/30_encoding.md R90 to R105): a word is the concatenation of its
fields, so it decodes to a command exactly when it is that command's word; and the rows of the opcode map
are the words of the commands with their free bits masked out. -/

namespace Sys2Proof

/-! ## The fields of a word -/

/-- A word is its format-X fields from bit 31 down (R92). -/
theorem word_eq_fieldsX (w : Word) :
    w = bits w 16 16 ++ bits w 8 8 ++ bits w 5 3 ++ BitVec.ofBool (bit w 4) ++ bits w 0 4 := by
  apply BitVec.eq_of_getLsbD_eq
  intro i hi
  simp only [bits, bit, BitVec.getLsbD_append, BitVec.getLsbD_extractLsb', BitVec.getLsbD_ofBool]
  interval_cases i <;> simp

/-- A word is its format-S fields from bit 31 down (R93). -/
theorem word_eq_fieldsS (w : Word) :
    w = bits w 21 11 ++ BitVec.ofBool (bit w 20) ++ BitVec.ofBool (bit w 19)
      ++ BitVec.ofBool (bit w 18) ++ BitVec.ofBool (bit w 17) ++ BitVec.ofBool (bit w 16)
      ++ bits w 14 2 ++ bits w 12 2 ++ BitVec.ofBool (bit w 11) ++ bits w 8 3 ++ bits w 4 4
      ++ bits w 0 4 := by
  apply BitVec.eq_of_getLsbD_eq
  intro i hi
  simp only [bits, bit, BitVec.getLsbD_append, BitVec.getLsbD_extractLsb', BitVec.getLsbD_ofBool]
  interval_cases i <;> simp

/-- A bit is the field of width 1. -/
theorem bit_eq_false_iff {w : Word} {i : Nat} : bit w i = false ↔ bits w i 1 = 0 := by
  have h : bits w i 1 = BitVec.ofBool (bit w i) := by
    apply BitVec.eq_of_getLsbD_eq
    intro j hj
    obtain rfl : j = 0 := by omega
    simp [bits, bit]
  rw [h]
  cases bit w i <;> decide

@[simp] theorem StrType.bit_ofBit (b : Bool) : (StrType.ofBit b).bit = b := by cases b <;> rfl

@[simp] theorem Fmt.bit_ofBit (b : Bool) : (Fmt.ofBit b).bit = b := by cases b <;> rfl

theorem Base.ofField_some {f : BitVec 8} {b : Base} (h : Base.ofField f = some b) : b.field = f := by
  simpa using List.find?_some h

theorem Mode.ofField_some {f : BitVec 3} {m : Mode} (h : Mode.ofField f = some m) : m.field = f := by
  simpa using List.find?_some h

theorem Pad.ofField_some {f : BitVec 2} {p : Pad} (h : Pad.ofField f = some p) : p.field = f := by
  simpa using List.find?_some h

/-- The fields of a format-S word beside `OPC` and `MODE`, with the padding that `PAD` stands for. -/
def fieldsS (w : Word) (p : Pad) : CipherOpts where
  pad := p
  fmt := Fmt.ofBit (bit w 16)
  kt := StrType.ofBit (bit w 17)
  ivp := bit w 18
  ivtp := bit w 19
  ivt := StrType.ofBit (bit w 20)

/-- A word with clear format-X reserved bits is the word of its fields (R92). -/
theorem eq_wordX {w : Word} (h5 : bits w 5 3 = 0) (h16 : bits w 16 16 = 0) :
    w = wordX (bits w 8 8) (bit w 4) (bits w 0 4) := by
  conv_lhs => rw [word_eq_fieldsX w, h5, h16]
  rfl

/-- A word with clear format-S reserved bits and a legal `PAD` is the word of its fields (R93). -/
theorem eq_wordS {w : Word} {p : Pad} (h4 : bits w 4 4 = 0) (h11 : bit w 11 = false)
    (h12 : p.field = bits w 12 2) (h14 : bits w 14 2 = 0) (h21 : bits w 21 11 = 0) :
    w = wordS (fieldsS w p) (bits w 8 3) (bits w 0 4) := by
  conv_lhs => rw [word_eq_fieldsS w, h4, h11, h14, h21]
  simp only [wordS, fieldsS, StrType.bit_ofBit, Fmt.bit_ofBit, h12]
  rfl

/-- `OPC` of a format-X word: 2, and the direction in bit 0 (R91). -/
theorem opcX_iff (w : Word) :
    (bits w 0 4 = 2 ∨ bits w 0 4 = 3) ↔ bits w 0 4 = 1#3 ++ BitVec.ofBool (bit w 0) := by
  have h0 : bit w 0 = (bits w 0 4).getLsbD 0 := by simp [bits, bit]
  rw [h0]
  generalize bits w 0 4 = x
  revert x
  decide

/-- `OPC` of a format-S word: 4, and the direction in bit 0 (R91). -/
theorem opcS_iff (w : Word) :
    (bits w 0 4 = 4 ∨ bits w 0 4 = 5) ↔ bits w 0 4 = 2#3 ++ BitVec.ofBool (bit w 0) := by
  have h0 : bit w 0 = (bits w 0 4).getLsbD 0 := by simp [bits, bit]
  rw [h0]
  generalize bits w 0 4 = x
  revert x
  decide

/-! ## A word that decodes is the encoding of what it decodes to -/

theorem encode_of_decodeX {w : Word} {i : Instr} (hopc : bits w 0 4 = 2 ∨ bits w 0 4 = 3)
    (h : decodeX w = .ok i) : encode i = w := by
  unfold decodeX at h
  split at h
  · cases h
  next hres =>
    rw [not_or, not_not, not_not] at hres
    obtain ⟨h5, h16⟩ := hres
    split at h
    · cases h
    next b hb =>
      cases h
      rw [encode_ofBx, Base.ofField_some hb, ← (opcX_iff w).1 hopc]
      exact (eq_wordX h5 h16).symm

theorem encode_of_decodeS {w : Word} {i : Instr} (hopc : bits w 0 4 = 4 ∨ bits w 0 4 = 5)
    (h : decodeS w = .ok i) : encode i = w := by
  unfold decodeS at h
  split at h
  · cases h
  next hres =>
    simp only [not_or, not_not, Bool.not_eq_true] at hres
    obtain ⟨h4, h11, h14, h21⟩ := hres
    split at h
    next m p hm hp =>
      cases h
      rw [encode_ofSm4, Mode.ofField_some hm, ← (opcS_iff w).1 hopc]
      exact (eq_wordS h4 h11 (Pad.ofField_some hp) h14 h21).symm
    · cases h

theorem encode_of_decode {w : Word} {i : Instr} (h : decode w = .ok i) : encode i = w := by
  unfold decode at h
  split at h
  next hx => exact encode_of_decodeX hx h
  · split at h
    next hs => exact encode_of_decodeS hs h
    · cases h

end Sys2Proof

namespace Sys2Proof.Laws

/-- Settles O1: encoding is undone by decoding, and decoding loses no bit of the word. -/
theorem decodeEncodeAgree : Obligations.DecodeEncodeAgree := by
  unfold Obligations.DecodeEncodeAgree
  intro i w
  constructor
  · exact encode_of_decode
  · rintro rfl
    exact decode_encode i

end Sys2Proof.Laws

namespace Sys2Proof

/-! ## The rows of the opcode map -/

/-- The row of `BXE.b` or `BXD.b`: `AP` is the only bit outside the mask (R96). -/
def rowX (d : Bool) (b : Base) : Row where
  mnemonic := (Instr.ofBx (Dir.ofBit d) b false).mnemonic
  format := .x
  matchBits := wordX b.field false (1#3 ++ BitVec.ofBool d)
  mask := 0xFFFFFFEF

/-- The fields of a format-S word that are all 0. -/
def clearOpts : CipherOpts := ⟨.pkcs7, .hex, .text, false, false, .text⟩

/-- The row of `SM4E.m` or `SM4D.m`: the mask holds `OPC`, `MODE` and the reserved bits (R96). -/
def rowS (d : Bool) (m : Mode) : Row where
  mnemonic := (Instr.ofSm4 (Dir.ofBit d) m clearOpts).mnemonic
  format := .s
  matchBits := wordS clearOpts m.field (2#3 ++ BitVec.ofBool d)
  mask := 0xFFE0CFFF

theorem opcodeMap_eq_rows : opcodeMap =
    [false, true].flatMap (fun d => Base.all.map (rowX d)) ++
      [false, true].flatMap (fun d => Mode.all.map (rowS d)) := by decide

theorem mem_opcodeMap_cases {r : Row} (h : r ∈ opcodeMap) :
    (∃ d b, r = rowX d b) ∨ ∃ d m, r = rowS d m := by
  simp only [opcodeMap_eq_rows, List.mem_append, List.mem_flatMap, List.mem_map] at h
  rcases h with ⟨d, -, b, -, rfl⟩ | ⟨d, -, m, -, rfl⟩
  · exact .inl ⟨d, b, rfl⟩
  · exact .inr ⟨d, m, rfl⟩

theorem rowX_mem (d : Bool) (b : Base) : rowX d b ∈ opcodeMap := by
  cases d <;> cases b <;> decide

theorem rowS_mem (d : Bool) (m : Mode) : rowS d m ∈ opcodeMap := by
  cases d <;> cases m <;> decide

/-- No two rows share a mnemonic. -/
theorem row_eq_of_mnemonic {r q : Row} (hr : r ∈ opcodeMap) (hq : q ∈ opcodeMap)
    (h : q.mnemonic = r.mnemonic) : q = r :=
  List.inj_on_of_nodup_map (f := Row.mnemonic) (by decide) hq hr h

theorem mnemonic_ofBx (d : Bool) (b : Base) (ap : Bool) :
    (Instr.ofBx (Dir.ofBit d) b ap).mnemonic = (rowX d b).mnemonic := by
  cases d <;> cases b <;> rfl

theorem mnemonic_ofSm4 (d : Bool) (m : Mode) (o : CipherOpts) :
    (Instr.ofSm4 (Dir.ofBit d) m o).mnemonic = (rowS d m).mnemonic := by
  cases d <;> cases m <;> rfl

/-- A field wholly inside the mask has the bits of the match. -/
theorem bits_of_masked {w mask m : Word} {lo n : Nat} (h : w &&& mask = m)
    (hf : bits mask lo n = BitVec.allOnes n) : bits w lo n = bits m lo n := by
  unfold bits at hf ⊢
  rw [← h, BitVec.extractLsb'_and, hf, BitVec.and_allOnes]

theorem Row.matches_iff (r : Row) (w : Word) : r.matches w = true ↔
    w &&& r.mask = r.matchBits ∧ (r.format = .x ∨ bits w 12 2 ≠ 3) := by
  rw [Row.matches, Bool.and_eq_true, Bool.or_eq_true, beq_iff_eq, beq_iff_eq, bne_iff_ne]

theorem rowX_matches_iff (d : Bool) (b : Base) (w : Word) :
    (rowX d b).matches w = true ↔ ∃ ap, w = wordX b.field ap (1#3 ++ BitVec.ofBool d) := by
  constructor
  · intro h
    obtain ⟨hm, -⟩ : w &&& 0xFFFFFFEF = _ ∧ _ := ((rowX d b).matches_iff w).1 h
    obtain ⟨h0, h5, h8, h16⟩ : bits w 0 4 = 1#3 ++ BitVec.ofBool d ∧ bits w 5 3 = 0 ∧
        bits w 8 8 = b.field ∧ bits w 16 16 = 0 := by
      refine ⟨?_, ?_, ?_, ?_⟩ <;>
        rw [bits_of_masked hm (by decide)] <;> cases d <;> cases b <;> rfl
    exact ⟨bit w 4, h0 ▸ h8 ▸ eq_wordX h5 h16⟩
  · rintro ⟨ap, rfl⟩
    cases b <;> revert d ap <;> decide +kernel

theorem Pad.exists_field {f : BitVec 2} (h : f ≠ 3) : ∃ p : Pad, p.field = f := by
  have hf : ∀ f : BitVec 2, f ≠ 3 → (Pad.ofField f).isSome = true := by decide
  obtain ⟨p, hp⟩ := Option.isSome_iff_exists.1 (hf f h)
  exact ⟨p, Pad.ofField_some hp⟩

theorem rowS_matches_iff (d : Bool) (m : Mode) (w : Word) :
    (rowS d m).matches w = true ↔ ∃ o, w = wordS o m.field (2#3 ++ BitVec.ofBool d) := by
  constructor
  · intro h
    obtain ⟨hm, hpad⟩ : w &&& 0xFFE0CFFF = _ ∧ _ := ((rowS d m).matches_iff w).1 h
    obtain ⟨p, h12⟩ := Pad.exists_field (hpad.resolve_left (by simp [rowS]))
    obtain ⟨h0, h4, h8, h11, h14, h21⟩ : bits w 0 4 = 2#3 ++ BitVec.ofBool d ∧ bits w 4 4 = 0 ∧
        bits w 8 3 = m.field ∧ bits w 11 1 = 0 ∧ bits w 14 2 = 0 ∧ bits w 21 11 = 0 := by
      refine ⟨?_, ?_, ?_, ?_, ?_, ?_⟩ <;>
        rw [bits_of_masked hm (by decide)] <;> cases d <;> cases m <;> rfl
    exact ⟨fieldsS w p, h0 ▸ h8 ▸ eq_wordS h4 (bit_eq_false_iff.2 h11) h12 h14 h21⟩
  · rintro ⟨o, rfl⟩
    have h := Laws.EncodesInRow.wordS_matches o m d
    cases d <;> cases m <;> exact h

end Sys2Proof

namespace Sys2Proof.Laws

/-- A command's word meets the row that carries its mnemonic. -/
theorem exists_row_of_instr (i : Instr) :
    ∃ r ∈ opcodeMap, r.mnemonic = i.mnemonic ∧ r.matches (encode i) = true := by
  rcases Machine.Instr.cases_unit i with ⟨d, b, ap, rfl⟩ | ⟨d, m, o, rfl⟩ <;>
    obtain ⟨d, rfl⟩ := d.exists_ofBit
  · exact ⟨rowX d b, rowX_mem d b, (mnemonic_ofBx d b ap).symm,
      (rowX_matches_iff d b _).2 ⟨ap, encode_ofBx d b ap⟩⟩
  · exact ⟨rowS d m, rowS_mem d m, (mnemonic_ofSm4 d m o).symm,
      (rowS_matches_iff d m _).2 ⟨o, encode_ofSm4 d m o⟩⟩

/-- Settles O2: a word that meets a row is the row's command with the free bits of the word as its
operand fields, and a command's word meets one row only. -/
theorem decodeFollowsOpcodeMap : Obligations.DecodeFollowsOpcodeMap := by
  unfold Obligations.DecodeFollowsOpcodeMap
  intro r hr w
  constructor
  · intro h
    rcases mem_opcodeMap_cases hr with ⟨d, b, rfl⟩ | ⟨d, m, rfl⟩
    · obtain ⟨ap, rfl⟩ := (rowX_matches_iff d b w).1 h
      exact ⟨_, decode_wordX d b ap, mnemonic_ofBx d b ap⟩
    · obtain ⟨o, rfl⟩ := (rowS_matches_iff d m w).1 h
      exact ⟨_, decode_wordS d m o, mnemonic_ofSm4 d m o⟩
  · rintro ⟨i, hd, hmn⟩
    obtain ⟨q, hq, hqi, hmatch⟩ := exists_row_of_instr i
    rw [← row_eq_of_mnemonic hr hq (hqi.trans hmn), ← encode_of_decode hd]
    exact hmatch

/-- Settles O3: the decoder computes on the written-out words. -/
theorem writtenOutWordsDecode : Obligations.WrittenOutWordsDecode := by
  unfold Obligations.WrittenOutWordsDecode
  decide +kernel

end Sys2Proof.Laws

/-! Words that are no command, and the don't-care bits (spec/30_encoding.md R101 to R103): the decoder's
two ways to refuse a word are the named checks of R101 and R102, and no pipeline raises their codes. -/

namespace Sys2Proof

/-! ## When the decoder refuses a word -/

theorem Base.ofField_eq_none_iff (f : BitVec 8) :
    Base.ofField f = none ↔ [16, 32, 58, 62, 64, 85, 91].contains f = false := by
  revert f
  decide +kernel

theorem Mode.ofField_eq_none_iff (f : BitVec 3) :
    Mode.ofField f = none ↔ decide (f ≤ 4) = false := by
  revert f
  decide

theorem Pad.ofField_eq_none_iff (f : BitVec 2) :
    Pad.ofField f = Option.none ↔ (f != 3) = false := by
  revert f
  decide

/-- A format-X word is refused as illegal for a reserved bit, and as an unknown base for `BASE` alone. -/
theorem decodeX_cases (w : Word) :
    (CmdWord.reservedX w = false ∧ decodeX w = .error .illegal) ∨
      (CmdWord.reservedX w = true ∧ CmdWord.baseKnown w = false ∧
        decodeX w = .error (.unknownBase (bits w 8 8))) ∨
      (CmdWord.reservedX w = true ∧ CmdWord.baseKnown w = true ∧ ∃ i, decodeX w = .ok i) := by
  have hres : CmdWord.reservedX w = false ↔ bits w 5 3 ≠ 0 ∨ bits w 16 16 ≠ 0 := by
    rw [CmdWord.reservedX, Bool.and_eq_false_iff, beq_eq_false_iff_ne, beq_eq_false_iff_ne, bits, bits]
  have hbase : Base.ofField (bits w 8 8) = none ↔ CmdWord.baseKnown w = false :=
    Base.ofField_eq_none_iff _
  unfold decodeX
  split
  next h => exact .inl ⟨hres.2 h, rfl⟩
  next h =>
    rw [← hres, Bool.not_eq_false] at h
    split
    next hb => exact .inr (.inl ⟨h, hbase.1 hb, rfl⟩)
    next b hb =>
      refine .inr (.inr ⟨h, ?_, _, rfl⟩)
      rw [← Bool.not_eq_false, ← hbase, hb]
      simp

/-- A format-S word is refused as illegal only. -/
theorem decodeS_cases (w : Word) :
    ((CmdWord.reservedS w && CmdWord.modeLegal w && CmdWord.padLegal w) = false ∧
        decodeS w = .error .illegal) ∨
      ((CmdWord.reservedS w && CmdWord.modeLegal w && CmdWord.padLegal w) = true ∧
        ∃ i, decodeS w = .ok i) := by
  have hres : CmdWord.reservedS w = false ↔
      bits w 4 4 ≠ 0 ∨ bit w 11 = true ∨ bits w 14 2 ≠ 0 ∨ bits w 21 11 ≠ 0 := by
    rw [← Bool.not_eq_false (bit w 11), bit_eq_false_iff]
    simp only [CmdWord.reservedS, Bool.and_eq_false_iff, beq_eq_false_iff_ne, bits, ne_eq, or_assoc]
  have hmode : Mode.ofField (bits w 8 3) = none ↔ CmdWord.modeLegal w = false :=
    Mode.ofField_eq_none_iff _
  have hpad : Pad.ofField (bits w 12 2) = none ↔ CmdWord.padLegal w = false :=
    Pad.ofField_eq_none_iff _
  unfold decodeS
  split
  next h => exact .inl ⟨by rw [hres.2 h]; rfl, rfl⟩
  next h =>
    rw [← hres, Bool.not_eq_false] at h
    cases hm : Mode.ofField (bits w 8 3) with
    | none => exact .inl ⟨by rw [hmode.1 hm, Bool.and_false, Bool.false_and], rfl⟩
    | some m =>
      cases hp : Pad.ofField (bits w 12 2) with
      | none => exact .inl ⟨by rw [hpad.1 hp, Bool.and_false], rfl⟩
      | some p =>
        have hm' : CmdWord.modeLegal w = true := by simp [← Bool.not_eq_false, ← hmode, hm]
        have hp' : CmdWord.padLegal w = true := by simp [← Bool.not_eq_false, ← hpad, hp]
        exact .inr ⟨by rw [h, hm', hp']; rfl, _, rfl⟩

theorem CmdWord.isX_iff (w : Word) : CmdWord.isX w = true ↔ bits w 0 4 = 2 ∨ bits w 0 4 = 3 := by
  simp [CmdWord.isX, bits]

theorem CmdWord.opcLegal_iff (w : Word) : CmdWord.opcLegal w = true ↔
    CmdWord.isX w = true ∨ bits w 0 4 = 4 ∨ bits w 0 4 = 5 := by
  simp [CmdWord.opcLegal, CmdWord.isX, bits, or_assoc]

/-- What the decoder answers, in the named checks of R101 and R102. -/
theorem decode_cases (w : Word) :
    (CmdWord.legal w = false ∧ decode w = .error .illegal) ∨
      ((CmdWord.isX w = true ∧ CmdWord.reservedX w = true ∧ CmdWord.baseKnown w = false) ∧
        CmdWord.legal w = true ∧ decode w = .error (.unknownBase (bits w 8 8))) ∨
      (CmdWord.wellFormed w = true ∧ ∃ i, decode w = .ok i) := by
  unfold decode CmdWord.wellFormed CmdWord.legal
  split
  next hx =>
    have hX := (CmdWord.isX_iff w).2 hx
    have hO := (CmdWord.opcLegal_iff w).2 (.inl hX)
    simp only [hX, hO]
    rcases decodeX_cases w with ⟨h, e⟩ | ⟨h, h', e⟩ | ⟨h, h', e⟩
    · exact .inl ⟨by simp [h], e⟩
    · exact .inr (.inl ⟨by simp [h, h'], by simp [h], e⟩)
    · exact .inr (.inr ⟨by simp [h, h'], e⟩)
  next hx =>
    have hX := Bool.eq_false_iff.2 (mt (CmdWord.isX_iff w).1 hx)
    split
    next hs =>
      have hO := (CmdWord.opcLegal_iff w).2 (.inr hs)
      simp only [hX, hO, Bool.true_and, cond_false]
      rcases decodeS_cases w with ⟨h, e⟩ | ⟨h, e⟩
      · exact .inl ⟨h, e⟩
      · exact .inr (.inr ⟨by simp [h], e⟩)
    next hs =>
      have hO : CmdWord.opcLegal w = false := by
        rw [← Bool.not_eq_true, CmdWord.opcLegal_iff, hX]
        simpa using hs
      exact .inl ⟨by simp [hO], rfl⟩

end Sys2Proof

namespace Sys2Proof.Laws

open Sys2Proof.Machine Sys2Proof.Claims

theorem decode_illegal_iff (w : Word) :
    decode w = .error .illegal ↔ CmdWord.legal w = false := by
  rcases decode_cases w with ⟨hl, e⟩ | ⟨-, hl, e⟩ | ⟨hw, i, e⟩
  · simp [hl, e]
  · simp [hl, e]
  · simp [e, (Bool.and_eq_true_iff.1 hw).1]

theorem decode_unknownBase_iff (w : Word) :
    decode w = .error (.unknownBase (bits w 8 8)) ↔
      CmdWord.isX w = true ∧ CmdWord.reservedX w = true ∧ CmdWord.baseKnown w = false := by
  rcases decode_cases w with ⟨hl, e⟩ | ⟨h, -, e⟩ | ⟨hw, i, e⟩
  · refine iff_of_false (by simp [e]) ?_
    rintro ⟨hX, hR, -⟩
    simp [CmdWord.legal, hX, hR, (CmdWord.opcLegal_iff w).2 (.inl hX)] at hl
  · simp [h, e]
  · refine iff_of_false (by simp [e]) ?_
    rintro ⟨hX, -, hB⟩
    simp [CmdWord.wellFormed, hX, hB] at hw

/-! ## The codes of the pipelines -/

/-- The codes that only the decoder raises: `UnknownBase` and `IllegalCommand` (R342, R345). -/
def decodeCodes : List Byte := [1, 0x80]

theorem bxTransform_error_code {c : Config} {d : Dir} {b : Base} {ap : Bool} {A D : Bytes}
    {f : CmdFault} (h : bxTransform c d b ap A D = .error f) : f.code = 4 ∨ f.code = 5 := by
  cases d with
  | enc => cases h
  | dec =>
    simp only [bxTransform, bxDecode] at h
    split at h
    · cases h
      exact .inl rfl
    · exact .inr (utf8Check_error_code h)

theorem bxExec_error_code {d : Dir} {b : Base} {ap : Bool} {s : State} {f : CmdFault}
    (h : bxExec d b ap s = .error f) : f.code ∉ decodeCodes := by
  unfold bxExec at h
  split at h
  next hA =>
    cases h
    obtain ⟨-, ⟨-, hc⟩ | ⟨-, hc | hc | hc⟩⟩ := alphabet_error_code hA <;> rw [hc] <;> decide
  · split at h
    next hD =>
      cases h
      rw [inputOperand_error_code hD]
      decide
    · split at h
      next hT =>
        cases h
        rcases bxTransform_error_code hT with hc | hc <;> rw [hc] <;> decide
      · rw [outputCheck_error_code h]
        decide

theorem resolveIv_error_code {s : State} {m : Mode} {o : CipherOpts} {f : CmdFault}
    (h : s.resolveIv m o = .error f) : f.code = 8 ∨ f.code = 0x81 ∨ f.code = 4 := by
  have of_resolve (h : s.resolve16 .iv o.ivt = .error f) :
      f.code = 8 ∨ f.code = 0x81 ∨ f.code = 4 := by
    rcases resolve16_error_code h with hc | hc | ⟨-, hc⟩ <;> simp [hc]
  cases m
  case ecb => cases h
  all_goals exact of_resolve h

theorem keyAndIv_error_code {s : State} {m : Mode} {o : CipherOpts} {f : CmdFault}
    (h : s.keyAndIv m o = .error f) : f.code ∉ decodeCodes := by
  unfold State.keyAndIv at h
  split at h
  next hk =>
    cases h
    rcases resolve16_error_code hk with hc | hc | ⟨-, hc⟩ <;> rw [hc] <;> decide
  · split at h
    next hg =>
      cases h
      rcases ivGate_error_code hg with ⟨-, hc⟩ | hc <;> rw [hc] <;> decide
    · split at h
      next hv =>
        cases h
        rcases resolveIv_error_code hv with hc | hc | hc <;> rw [hc] <;> decide
      · cases h

theorem encryptBytes_error_code {c : Config} {m : Mode} {o : CipherOpts} {K V : Block} {D : Bytes}
    {f : CmdFault} (h : encryptBytes c m o K V D = .error f) : f.code = 9 := by
  unfold encryptBytes at h
  split at h
  next hp =>
    cases h
    unfold padApply at hp
    split at hp
    · cases hp
    · cases hp
    · split at hp <;> cases hp
      rfl
  · cases h

theorem padRemove_error_code {p : Pad} {P : Bytes} {f : CmdFault}
    (h : padRemove p P = .error f) : f.code = 10 := by
  cases p with
  | pkcs7 =>
    simp only [padRemove] at h
    split at h <;> cases h
    rfl
  | zero => cases h
  | none => cases h

theorem decryptBytes_error_code {c : Config} {m : Mode} {o : CipherOpts} {K V : Block} {D : Bytes}
    {f : CmdFault} (h : decryptBytes c m o K V D = .error f) :
    f.code = 4 ∨ f.code = 9 ∨ f.code = 10 ∨ f.code = 5 := by
  unfold decryptBytes at h
  split at h
  · cases h
    exact .inl rfl
  · split at h
    next hm =>
      cases h
      unfold modeDecrypt at hm
      split at hm <;> cases hm
      exact .inr (.inl rfl)
    · split at h
      next hp =>
        cases h
        exact .inr (.inr (.inl (padRemove_error_code hp)))
      · exact .inr (.inr (.inr (utf8Check_error_code h)))

theorem sm4Exec_error_code {d : Dir} {m : Mode} {o : CipherOpts} {s : State} {f : CmdFault}
    (h : sm4Exec d m o s = .error f) : f.code ∉ decodeCodes := by
  unfold sm4Exec at h
  split at h
  next hk =>
    cases h
    exact keyAndIv_error_code hk
  · split at h
    next hD =>
      cases h
      rw [inputOperand_error_code hD]
      decide
    · split at h
      next hT =>
        cases h
        cases d with
        | enc =>
          rw [encryptBytes_error_code hT]
          decide
        | dec => rcases decryptBytes_error_code hT with hc | hc | hc | hc <;> rw [hc] <;> decide
      · rw [outputCheck_error_code h]
        decide

/-- No pipeline raises a code of the decoder. -/
theorem resultOf_error_code {i : Instr} {s : State} {f : CmdFault}
    (h : resultOf i s = .error f) : f.code ∉ decodeCodes := by
  rcases Instr.cases_unit i with ⟨d, b, ap, rfl⟩ | ⟨d, m, o, rfl⟩
  · exact bxExec_error_code (by rwa [resultOf_ofBx] at h)
  · exact sm4Exec_error_code (by rwa [resultOf_ofSm4] at h)

/-! ## The statements -/

/-- A turn in BUSY that ends in a fault ends in the fault of the engine's result. -/
theorem engineResult_of_faulted {s t : State} {c : Byte} {i0 i1 i2 : Word} (hb : s.phase = .busy)
    (ht : engineTurn s = .next t) (hf : Faulted s t c i0 i1 i2) :
    ∃ f, engineResult s = .error f ∧ f.code = c := by
  cases (engineTurn_of_busy hb).symm.trans ht
  have hphase := hf.phase
  have herr := hf.err
  cases hr : engineResult s with
  | error f => exact ⟨f, rfl, by rw [← herr, hr]; rfl⟩
  | ok B =>
    rw [hr] at hphase
    cases hphase

/-- A turn that ends in one of the decoder's codes has decoded no command. -/
theorem decode_of_faulted {s t : State} {c : Byte} {i0 i1 i2 : Word} (hb : s.phase = .busy)
    (ht : engineTurn s = .next t) (hf : Faulted s t c i0 i1 i2) (hc : c ∈ decodeCodes) :
    ∃ e, decode s.cmd = .error e ∧ (decodeFault s.cmd e).code = c := by
  obtain ⟨f, hr, hfc⟩ := engineResult_of_faulted hb ht hf
  cases hd : decode s.cmd with
  | error e =>
    simp only [engineResult, hd, Except.error.injEq] at hr
    exact ⟨e, rfl, hr ▸ hfc⟩
  | ok i =>
    simp only [engineResult, hd] at hr
    exact absurd (hfc ▸ hc) (resultOf_error_code hr)

/-- Settles O4: the engine raises the decoder's faults as they are (R342, R345), and no command ends in
their codes. -/
theorem wordsThatAreNoCommandFault : Obligations.WordsThatAreNoCommandFault := by
  unfold Obligations.WordsThatAreNoCommandFault
  intro s hb
  obtain ⟨hill, hbase, -, -⟩ := Engine.engineStep.2 s hb
  constructor
  · rw [← decode_illegal_iff]
    refine ⟨hill, ?_⟩
    rintro ⟨t, ht, hf⟩
    obtain ⟨e, hd, hc⟩ := decode_of_faulted hb ht hf (by decide)
    cases e with
    | illegal => exact hd
    | unknownBase b => cases hc
  · rw [← decode_unknownBase_iff]
    refine ⟨hbase _, ?_⟩
    rintro ⟨t, ht, hf⟩
    obtain ⟨e, hd, hc⟩ := decode_of_faulted hb ht hf (by decide)
    rcases decode_cases s.cmd with ⟨-, h⟩ | ⟨-, -, h⟩ | ⟨-, i, h⟩
    · cases hd.symm.trans h
      cases hc
    · exact h
    · cases hd.symm.trans h

/-- `IVT` is read by the resolution of the IV only, and the gate lets no IV without a type come that
far (R103, R255). -/
theorem keyAndIv_ivt (s : State) {m : Mode} {o : CipherOpts} (v : StrType)
    (h : o.ivtp = false ∨ m = .ecb) :
    s.keyAndIv m { o with ivt := v } = s.keyAndIv m o := by
  have hgate : ivGate m { o with ivt := v } = ivGate m o := rfl
  simp only [State.keyAndIv, hgate]
  cases hg : ivGate m o with
  | some f => rfl
  | none =>
    obtain rfl : m = .ecb := by
      by_contra hm
      have hp := ivp_of_ivGate hg hm
      have htp := h.resolve_right hm
      simp [ivGate, hm, hp, htp] at hg
    rfl

theorem sm4Exec_ivt (d : Dir) (s : State) {m : Mode} {o : CipherOpts} (v : StrType)
    (h : o.ivtp = false ∨ m = .ecb) : sm4Exec d m { o with ivt := v } s = sm4Exec d m o s := by
  have htr (K V : Block) (D : Bytes) :
      sm4Transform s.cfg d m { o with ivt := v } K V D = sm4Transform s.cfg d m o K V D := by
    cases d <;> rfl
  simp only [sm4Exec, keyAndIv_ivt s v h, htr]

/-- Settles O5. -/
theorem dontCareBits : Obligations.DontCareBits := by
  unfold Obligations.DontCareBits
  constructor
  · intro d m o v s h
    rw [exec_eq_finish, exec_eq_finish, resultOf_ofSm4, resultOf_ofSm4, sm4Exec_ivt d s v h]
  · intro d b s hb
    have hstatic : b.isStatic = true := by rcases hb with rfl | rfl <;> rfl
    have hA : s.alphabet b true = .error (.customAlphabetUnsupported b) := by
      simp [State.alphabet, hstatic]
    exact faults_of_result_eq _ (resultOf_of_alphabet_error hA) rfl rfl rfl rfl

end Sys2Proof.Laws

/-! Running the host's script (spec/30_encoding.md R107, R109): one rule for `ld`, one for a command with
its `wait`, and a run of loads followed by a command, which is what each callable operation is. -/

namespace Sys2Proof.Machine

/-- What `ld` leaves: the bytes in the buffer, their number in its length register, and the events behind
the load still pending. -/
def State.loaded (s : State) (sp : Space) (B : Bytes) (es : List Event) : State :=
  { s with
    mem := s.mem.setBytes sp.offset B
    events := es
    resp := .written
    inLen := if sp = .input then BitVec.ofNat 32 B.length else s.inLen
    alphaLen := if sp = .alpha then BitVec.ofNat 32 B.length else s.alphaLen
    keyLen := if sp = .key then BitVec.ofNat 32 B.length else s.keyLen
    ivLen := if sp = .iv then BitVec.ofNat 32 B.length else s.ivLen }

end Sys2Proof.Machine

namespace Sys2Proof.Laws

open Sys2Proof.Machine Sys2Proof.Claims

/-! ## `ld` as bus writes -/

/-- Every buffer ends below the top of the window. -/
theorem offset_add_size_lt {c : Config} (hc : c.wf = true) (sp : Space) :
    sp.offset + sp.size c < 2 ^ 22 := by
  obtain ⟨-, hin, -, hout⟩ := capacities_of_wf hc
  cases sp <;> simp only [Space.offset, Space.size] <;> omega

/-- The step that a pending byte write takes. -/
theorem step_byteWrite {s : State} {sp : Space} {a : Nat} {b : Byte} {es : List Event}
    (hc : s.cfg.wf = true) (hb : s.phase ≠ .busy) (hsp : sp ≠ .output) (hlo : sp.offset ≤ a)
    (hhi : a < sp.offset + sp.size s.cfg)
    (h : s.events = .access (.write .w8 (BitVec.ofNat 22 a) (b.setWidth 32)) :: es) :
    step s = .next { s with mem := s.mem.set a b, events := es, resp := .written } := by
  have ha : (BitVec.ofNat 22 a).toNat = a :=
    Nat.mod_eq_of_lt (hhi.trans (offset_add_size_lt hc sp))
  have hin : InBuffer s.pop.cfg sp (BitVec.ofNat 22 a).toNat (Width.bytes .w8) := by
    rw [ha]
    exact ⟨Nat.mod_one a, hlo, hhi⟩
  have hbyte : bytesLe (Width.bytes .w8) (b.setWidth 32).toNat = [b] := by
    have hlt := b.isLt
    simp only [bytesLe, Width.bytes, BitVec.toNat_setWidth]
    rw [Nat.mod_eq_of_lt (by omega), BitVec.ofNat_toNat, BitVec.setWidth_eq]
  rw [step_of_cons h, State.onEvent, hostAccess_bufferWrite (s := s.pop) _ hc hin, ha]
  rcases s.pop.writeBuffer_cases sp a .w8 (b.setWidth 32) with
    ⟨hbusy | hout, -⟩ | ⟨-, -, e⟩
  · exact absurd hbusy hb
  · exact absurd hout hsp
  · rw [e, hbyte]
    simp [State.pop, h, Memory.setBytes]

/-- The byte writes of `ld`, one step each. -/
theorem run_byteWrites {sp : Space} {es : List Event} (hsp : sp ≠ .output) (B : Bytes) :
    ∀ {s : State} {a : Nat}, s.cfg.wf = true → s.phase ≠ .busy → sp.offset ≤ a →
      a + B.length ≤ sp.offset + sp.size s.cfg → s.events = byteWrites a B ++ es →
      ∃ r, Sys2Proof.core.run B.length s =
        .next { s with mem := s.mem.setBytes a B, events := es, resp := r } := by
  induction B with
  | nil =>
    intro s a _ _ _ _ hev
    exact ⟨s.resp, by rw [← (show s.events = es from hev)]; rfl⟩
  | cons b B ih =>
    intro s a hc hb hlo hhi hev
    rw [List.length_cons] at hhi
    have hstep := step_byteWrite hc hb hsp hlo (by omega) hev
    obtain ⟨r, hr⟩ := ih (s := { s with
      mem := s.mem.set a b, events := byteWrites (a + 1) B ++ es, resp := .written })
      (a := a + 1) hc hb (by omega) (by simp only; omega) rfl
    exact ⟨r, (core_run_of_step _ hstep).trans hr⟩

/-- The step that a pending write to a register takes outside BUSY. -/
theorem step_wr_reg {s : State} {r : Reg} {v : Word} {es : List Event} (hb : s.phase ≠ .busy)
    (h : s.events = wr r v ++ es) :
    step s = .next { ({ s with events := es } : State).storeReg r v with resp := .written } := by
  have hpop : s.pop = { s with events := es } := by simp [State.pop, h, wr]
  have hstep : step s = .next { s.pop.writeReg r v with resp := .written } :=
    (step_of_cons h).trans (writesTo_reg s.pop r rfl)
  rw [hstep, State.writeReg_of_not_busy (s := s.pop) hb, hpop]

/-- A write to a length register stores the word there and nothing else. -/
theorem storeReg_lenReg (s : State) {sp : Space} (hsp : sp ≠ .output) (v : Word) :
    s.storeReg sp.lenReg v = { s with
      inLen := if sp = .input then v else s.inLen
      alphaLen := if sp = .alpha then v else s.alphaLen
      keyLen := if sp = .key then v else s.keyLen
      ivLen := if sp = .iv then v else s.ivLen } := by
  cases sp
  case output => exact absurd rfl hsp
  all_goals rfl

/-- The rule for `ld` (R107). -/
theorem run_ld {s : State} {sp : Space} {B : Bytes} {es : List Event} (hc : s.cfg.wf = true)
    (hb : s.phase ≠ .busy) (hsp : sp ≠ .output) (hfit : B.length ≤ sp.size s.cfg)
    (hev : s.events = ld sp B ++ es) :
    Sys2Proof.core.run (B.length + 1) s = .next (s.loaded sp B es) := by
  obtain ⟨r, hr⟩ := run_byteWrites hsp B hc hb le_rfl (Nat.add_le_add_left hfit _)
    (hev.trans (List.append_assoc ..))
  have hwr := step_wr_reg (s := { s with
    mem := s.mem.setBytes sp.offset B
    events := wr sp.lenReg (BitVec.ofNat 32 B.length) ++ es, resp := r }) hb rfl
  rw [storeReg_lenReg _ hsp] at hwr
  exact (core_run_add _ _ hr).trans (core_run_of_step 0 hwr)

theorem lenOf_loaded (s : State) {sp : Space} (hsp : sp ≠ .output) (B : Bytes) (es : List Event) :
    lenOf (s.loaded sp B es) sp = word B.length := by
  cases sp
  case output => exact absurd rfl hsp
  all_goals rfl

theorem lenOf_loaded_other (s : State) {sp q : Space} (hq : q ≠ sp) (B : Bytes) (es : List Event) :
    lenOf (s.loaded sp B es) q = lenOf s q := by
  have hne := hq.symm
  cases q
  case output => rfl
  all_goals exact if_neg hne

/-- Settles O45. -/
theorem loadStoresOperand : Obligations.LoadStoresOperand := by
  unfold Obligations.LoadStoresOperand
  intro s sp B es hc hb hsp hfit hev
  exact ⟨s.loaded sp B es, run_ld hc hb hsp hfit hev, rfl, lenOf_loaded s hsp B es,
    fun q hq => lenOf_loaded_other s hq B es, fun i hi => Memory.get_setBytes_in _ _ _ _ hi,
    fun a ha => Memory.get_setBytes_out _ _ _ _ ha⟩

/-! ## A buffer that holds an operand -/

/-- The buffer holds the operand `B`, and its length register the number of its bytes. -/
structure Holds (s : State) (sp : Space) (B : Bytes) : Prop where
  len : lenOf s sp = word B.length
  bytes : ∀ i (h : i < B.length), s.mem.get (sp.offset + i) = some B[i]

theorem fetch_of_holds {s : State} {sp : Space} {B : Bytes} (h : Holds s sp B) :
    s.fetch sp B.length = B := State.bytesAt_eq_of_get h.bytes

theorem toNat_word_of_fits {c : Config} (hc : c.wf = true) {sp : Space} {B : Bytes}
    (hfit : B.length ≤ sp.size c) : (word B.length).toNat = B.length := by
  have hlt := offset_add_size_lt hc sp
  rw [word, BitVec.toNat_ofNat]
  omega

/-- The operand that a held buffer gives to a command. -/
theorem fetch_lenOf_of_holds {s : State} (hc : s.cfg.wf = true) {sp : Space} {B : Bytes}
    (hfit : B.length ≤ sp.size s.cfg) (h : Holds s sp B) :
    s.fetch sp (lenOf s sp).toNat = B := by
  rw [h.len, toNat_word_of_fits hc hfit, fetch_of_holds h]

theorem holds_loaded (s : State) {sp : Space} (hsp : sp ≠ .output) (B : Bytes) (es : List Event) :
    Holds (s.loaded sp B es) sp B :=
  ⟨lenOf_loaded s hsp B es, fun _ hi => Memory.get_setBytes_in _ _ _ _ hi⟩

/-- A load leaves the other buffers alone, since no two overlap. -/
theorem holds_loaded_other {s : State} (hc : s.cfg.wf = true) {sp q : Space} (hq : q ≠ sp)
    {B C : Bytes} (hB : B.length ≤ sp.size s.cfg) (hC : C.length ≤ q.size s.cfg)
    (es : List Event) (h : Holds s q C) : Holds (s.loaded sp B es) q C := by
  refine ⟨(lenOf_loaded_other s hq B es).trans h.len, fun i hi => ?_⟩
  refine (Memory.get_setBytes_out _ _ _ _ ?_).trans (h.bytes i hi)
  by_contra hin
  exact hq (inBuffer_unique (a := q.offset + i) hc Nat.one_pos
    ⟨Nat.mod_one _, by omega, by omega⟩ ⟨Nat.mod_one _, by omega, by omega⟩)

/-! ## A run of loads -/

/-- The accesses of several loads, one after another. -/
def loads (ops : List (Space × Bytes)) : List Event := ops.flatMap fun p => ld p.1 p.2

/-- The operands fit their buffers, one operand for each buffer. -/
structure Loadable (c : Config) (ops : List (Space × Bytes)) : Prop where
  fits : ∀ p ∈ ops, p.1 ≠ .output ∧ p.2.length ≤ p.1.size c
  nodup : (ops.map (·.1)).Nodup

/-- What loads leave as it was, and what they leave pending. -/
structure AfterLoads (s t : State) (ops : List (Space × Bytes)) (es : List Event) : Prop where
  cfg : t.cfg = s.cfg
  phase : t.phase = s.phase
  events : t.events = es
  holds : ∀ p ∈ ops, Holds t p.1 p.2
  keeps : ∀ q C, q ∉ ops.map (·.1) → C.length ≤ q.size s.cfg → Holds s q C → Holds t q C

theorem run_loads {es : List Event} (ops : List (Space × Bytes)) :
    ∀ {s : State}, s.cfg.wf = true → s.phase ≠ .busy → Loadable s.cfg ops →
      s.events = loads ops ++ es →
      ∃ t, Sys2Proof.core.run (loads ops).length s = .next t ∧ AfterLoads s t ops es := by
  induction ops with
  | nil =>
    intro s _ _ _ hev
    exact ⟨s, rfl, rfl, rfl, hev, by simp, fun _ _ _ _ h => h⟩
  | cons p ops ih =>
    obtain ⟨sp, B⟩ := p
    intro s hc hb hl hev
    obtain ⟨hsp, hfit⟩ := hl.fits (sp, B) List.mem_cons_self
    obtain ⟨hnot, hnodup⟩ := List.nodup_cons.1 hl.nodup
    have hlen : (loads ((sp, B) :: ops)).length = (B.length + 1) + (loads ops).length := by
      simp [loads]
    have hld := run_ld (es := loads ops ++ es) hc hb hsp hfit (by simpa [loads] using hev)
    obtain ⟨t, hrun, ht⟩ := ih (s := s.loaded sp B (loads ops ++ es)) hc hb
      ⟨fun p hp => hl.fits p (List.mem_cons_of_mem _ hp), hnodup⟩ rfl
    refine ⟨t, ?_, ht.cfg, ht.phase, ht.events, ?_, ?_⟩
    · rw [hlen, core_run_add _ _ hld, hrun]
    · intro p hp
      rcases List.mem_cons.1 hp with rfl | hp
      · exact ht.keeps _ _ hnot hfit (holds_loaded s hsp B _)
      · exact ht.holds p hp
    · intro q C hq hC hs
      obtain ⟨hne, hq⟩ := not_or.1 (mt List.mem_cons.2 hq)
      exact ht.keeps q C hq hC (holds_loaded_other hc hne hfit hC _ hs)

end Sys2Proof.Laws

namespace Sys2Proof.Machine

/-- The state in which the engine runs the command that the host has just started. -/
def State.running (s : State) (i : Instr) (es : List Event) : State :=
  { ({ s with cmd := encode i, events := es } : State).start with resp := .written }

end Sys2Proof.Machine

namespace Sys2Proof.Laws

open Sys2Proof.Machine Sys2Proof.Claims

/-! ## A command and its `wait` -/

/-- Starting a command leaves its operands alone. -/
theorem holds_running {s : State} (hc : s.cfg.wf = true) {sp : Space} (hsp : sp ≠ .output)
    {B : Bytes} (hfit : B.length ≤ sp.size s.cfg) (i : Instr) (es : List Event)
    (h : Holds s sp B) : Holds (s.running i es) sp B := by
  constructor
  · rw [← h.len]
    cases sp
    case output => exact absurd rfl hsp
    all_goals rfl
  · intro j hj
    have hout := le_output_offset hc hsp
    exact (Memory.get_forget_out _ (.inl (by omega))).trans (h.bytes j hj)

/-- The two writes of a command mnemonic and the engine's turn (R107, 10_state.md R51, R52). -/
theorem run_command {s : State} {i : Instr} {es : List Event} (hb : s.phase ≠ .busy)
    (hev : s.events = command i ++ .engineTurn :: es) :
    Sys2Proof.core.run 3 s =
      .next ((s.running i es).finish (resultOf i (s.running i es))) := by
  have hcmd := step_wr_cmd (es := go ++ .engineTurn :: es) hb hev
  have hgo := step_go (s := { s with
    cmd := encode i, events := go ++ .engineTurn :: es, resp := .written }) hb rfl
  have hturn : step (s.running i (.engineTurn :: es)) =
      .next ((s.running i es).finish (resultOf i (s.running i es))) :=
    ((stepRunsDecodedCommand _ i rfl (decode_encode i)).2 es rfl).trans (exec_eq_finish i _)
  exact (core_run_of_step 2 hcmd).trans ((core_run_of_step 1 hgo).trans (core_run_of_step 0 hturn))

/-- The step that a pending read of `STATUS` takes. -/
theorem step_rd_status {s : State} {es : List Event} (hev : s.events = rd .status ++ es) :
    ∃ t, step s = .next t ∧ SameBut { s with events := es } t ∧ t.resp = .data t.status := by
  have hpop : s.pop = { s with events := es } := by simp [State.pop, hev, rd]
  obtain ⟨t, hread, hresp, hsame⟩ := readsAs_reg s.pop .status rfl
  have hstatus : t.status = s.pop.status := by
    rw [hsame]
    rfl
  exact ⟨t, (step_of_cons hev).trans hread, hpop ▸ hsame, hstatus ▸ hresp⟩

/-! ## What the host reads back -/

theorem opResult_eq_ok_iff {s : State} {B : Bytes} :
    s.opResult = .ok B ↔ s.phase = .done ∧ s.payload = B := by
  by_cases h : s.phase = .done
  · simp [State.opResult_of_done h, h]
  · simp [State.opResult_of_not_done h, h]

/-- The end of a command is reported as R109 says, whatever the host has read since. -/
theorem opResult_of_endsWith {s t u : State} {r : Except CmdFault Bytes} (hc : s.cfg.wf = true)
    (h : EndsWith s t r) {es : List Event}
    (hu : SameBut { t with events := es } u) :
    u.opResult = reported r := by
  rw [hu]
  cases r with
  | ok B =>
    have hfit : B.length ≤ Space.output.size s.cfg := h.fits
    refine opResult_eq_ok_iff.2 ⟨h.phase, ?_⟩
    rw [State.payload]
    simp only [h.outLen]
    rw [← word, toNat_word_of_fits hc hfit]
    exact State.bytesAt_eq_of_get h.payload
  | error f =>
    obtain ⟨h0, h1, h2⟩ := h.infos
    rw [State.opResult_of_not_done (by simp [h.phase])]
    simp only [State.opError, h.err, h0, h1, h2, reported]

/-- What a script of loads, a command and its `wait` leaves in `t`: the engine ran the command in `u`, and
the last read of `STATUS` ended the loop. -/
structure Served (s u t : State) (ops : List (Space × Bytes)) (i : Instr) (es : List Event) :
    Prop where
  cfg : u.cfg = s.cfg
  holds : ∀ p ∈ ops, Holds u p.1 p.2
  events : t.events = es
  status : t.resp = .data t.status
  err : t.phase = .done → t.err = 0
  result : t.opResult = reported (resultOf i u)

theorem run_script {s : State} {ops : List (Space × Bytes)} {i : Instr} {es : List Event}
    (hc : s.cfg.wf = true) (hb : s.phase ≠ .busy) (hl : Loadable s.cfg ops)
    (hev : s.events = loads ops ++ command i ++ wait ++ es) :
    ∃ u t : State, Sys2Proof.core.run (loads ops ++ command i ++ wait).length s = .next t ∧
      Served s u t ops i es := by
  obtain ⟨v, hrun, hv⟩ := run_loads (es := command i ++ wait ++ es) ops hc hb hl
    (by rw [hev, List.append_assoc, List.append_assoc, List.append_assoc])
  have hvc : v.cfg.wf = true := hv.cfg ▸ hc
  have hcmd := run_command (i := i) (es := rd .status ++ es) (hv.phase ▸ hb) hv.events
  generalize hu : v.running i (rd .status ++ es) = u at hcmd
  have hcfg : u.cfg = v.cfg := hu ▸ rfl
  have hend : EndsWith u (u.finish (resultOf i u)) (resultOf i u) :=
    endsWith_finish fun B hB => resultOf_length hB
  obtain ⟨-, -, -, -, -, -, -, hevents, -⟩ := u.finish_keeps (resultOf i u)
  obtain ⟨t, hrd, hsame, hstatus⟩ := step_rd_status (es := es) (hevents.trans (hu ▸ rfl))
  refine ⟨u, t, ?_, hcfg.trans hv.cfg, fun p hp => ?_, congrArg State.events hsame, hstatus,
    fun hd => ?_, opResult_of_endsWith (hcfg ▸ hvc) hend hsame⟩
  · rw [List.append_assoc, List.length_append, core_run_add _ _ hrun]
    exact (core_run_add 3 1 hcmd).trans (core_run_of_step 0 hrd)
  · obtain ⟨hsp, hfit⟩ := hl.fits p hp
    rw [← hu]
    exact holds_running hvc hsp (hv.cfg ▸ hfit) i _ (hv.holds p hp)
  · rw [hsame] at hd ⊢
    cases hr : resultOf i u with
    | ok B => rfl
    | error f => simp [hr, State.finish_error] at hd

/-! ## The scripts of the operations -/

/-- The operands of `basexEncode` and `basexDecode`. -/
def textOps (D : Bytes) (al : Option Bytes) : List (Space × Bytes) :=
  (.input, D) :: al.toList.map fun A => (.alpha, A)

/-- The operands of `sm4Encrypt` and `sm4Decrypt`. -/
def cipherOps (D K : Bytes) (iv : Option (Bytes × Option StrType)) : List (Space × Bytes) :=
  (.input, D) :: (.key, K) :: iv.toList.map fun V => (.iv, V.1)

theorem basex_eq_script (d : Dir) (D : Bytes) (b : Base) (al : Option Bytes) :
    basex d D b al = loads (textOps D al) ++ command (Instr.ofBx d b al.isSome) ++ wait := by
  cases al <;> simp [basex, loads, textOps]

theorem sm4_eq_script (d : Dir) (m : Mode) (pad : Pad) (fmt : Fmt) (D K : Bytes) (kt : StrType)
    (iv : Option (Bytes × Option StrType)) :
    sm4 d m pad fmt D K kt iv =
      loads (cipherOps D K iv) ++ command (Instr.ofSm4 d m (callOpts pad fmt kt iv)) ++ wait := by
  rcases iv with _ | ⟨V, _ | t⟩ <;> simp [sm4, loads, cipherOps, callOpts]

theorem loadable_textOps {c : Config} {D : Bytes} {al : Option Bytes} (hD : D.length ≤ c.inMax)
    (hal : ∀ A ∈ al, A.length ≤ 256) : Loadable c (textOps D al) := by
  cases al with
  | none => exact ⟨by simpa [textOps, Space.size] using hD, by simp [textOps]⟩
  | some A => exact ⟨by simpa [textOps, Space.size] using ⟨hD, hal A rfl⟩, by simp [textOps]⟩

theorem loadable_cipherOps {c : Config} {D K : Bytes} {iv : Option (Bytes × Option StrType)}
    (hD : D.length ≤ c.inMax) (hK : K.length ≤ 64) (hiv : ∀ V ∈ iv, V.1.length ≤ 64) :
    Loadable c (cipherOps D K iv) := by
  cases iv with
  | none => exact ⟨by simpa [cipherOps, Space.size] using ⟨hD, hK⟩, by simp [cipherOps]⟩
  | some V =>
    exact ⟨by simpa [cipherOps, Space.size] using ⟨hD, hK, hiv V rfl⟩, by simp [cipherOps]⟩

theorem holdsText_of_holds {u : State} {D : Bytes} {al : Option Bytes} (hc : u.cfg.wf = true)
    (hl : Loadable u.cfg (textOps D al)) (h : ∀ p ∈ textOps D al, Holds u p.1 p.2) :
    HoldsText D al u := by
  have hin : (Space.input, D) ∈ textOps D al := List.mem_cons_self
  refine ⟨(h _ hin).len, fetch_lenOf_of_holds hc (hl.fits _ hin).2 (h _ hin), fun A hA => ?_⟩
  have hal : (Space.alpha, A) ∈ textOps D al := by simp [textOps, Option.mem_def.1 hA]
  exact ⟨(h _ hal).len, fetch_lenOf_of_holds hc (hl.fits _ hal).2 (h _ hal)⟩

theorem holdsCipher_of_holds {u : State} {D K : Bytes} {iv : Option (Bytes × Option StrType)}
    (hc : u.cfg.wf = true) (hl : Loadable u.cfg (cipherOps D K iv))
    (h : ∀ p ∈ cipherOps D K iv, Holds u p.1 p.2) : HoldsCipher D K iv u := by
  have hin : (Space.input, D) ∈ cipherOps D K iv := List.mem_cons_self
  have hkey : (Space.key, K) ∈ cipherOps D K iv := List.mem_cons_of_mem _ List.mem_cons_self
  refine ⟨(h _ hin).len, fetch_lenOf_of_holds hc (hl.fits _ hin).2 (h _ hin), (h _ hkey).len,
    fetch_of_holds (h _ hkey), fun V hV => ?_⟩
  have hiv : (Space.iv, V.1) ∈ cipherOps D K iv := by simp [cipherOps, Option.mem_def.1 hV]
  exact ⟨(h _ hiv).len, fetch_of_holds (h _ hiv)⟩

/-! ## The statements -/

/-- Settles O46: the engine runs the encode in a state that holds the input, where the pipeline gives the
encoded text. -/
theorem basexEncodeRuns : Obligations.BasexEncodeRuns := by
  unfold Obligations.BasexEncodeRuns
  intro s b D es hinv hb hev hD hout
  have hc := hinv.cfgWf
  have hl : Loadable s.cfg (textOps D none) := loadable_textOps hD (by simp)
  rw [basex_eq_script] at hev
  obtain ⟨u, t, hrun, hu⟩ := run_script hc hb hl hev
  obtain ⟨hlen, hin, -⟩ := holdsText_of_holds (hu.cfg ▸ hc) (hu.cfg ▸ hl) hu.holds
  have hfits : InputFits u := by
    rw [InputFits, hlen, toNat_word_of_fits (sp := .input) hc hD, hu.cfg]
    exact hD
  have hr : resultOf (Instr.ofBx .enc b false) u =
      .ok (s.cfg.unitEncode b false (s.cfg.defaultAlphabet b) D) := by
    rw [resultOf_ofBx, ← hu.cfg]
    exact bxExec_ok_of (.inl ⟨rfl, rfl⟩) hfits (by rw [hin]; rfl) (by rwa [hu.cfg])
  obtain ⟨hphase, hpay⟩ := opResult_eq_ok_iff.1 (hu.result.trans (congrArg reported hr))
  refine ⟨_, t, hrun, hu.events, hphase, ?_, hpay⟩
  have hstatus : t.status = 2 := by
    rw [State.status, hu.err hphase, hphase]
    rfl
  exact hu.status.trans (congrArg BusResp.data hstatus)

/-- A call of a script of loads and one command delivers the result of that command. -/
theorem delivers_of_script {s : State} {script : List Event} {ops : List (Space × Bytes)}
    {i : Instr} {r : State → Except CmdFault Bytes} {holds : State → Prop} (hc : s.cfg.wf = true)
    (hb : s.phase ≠ .busy) (hl : Loadable s.cfg ops)
    (hscript : script = loads ops ++ command i ++ wait) (hr : ∀ u, resultOf i u = r u)
    (hh : ∀ u, u.cfg = s.cfg → (∀ p ∈ ops, Holds u p.1 p.2) → holds u) :
    Delivers (call script) r holds s := by
  obtain ⟨u, t, hrun, hu⟩ := run_script (s := { s with events := script }) (es := []) hc hb hl
    (by rw [hscript, List.append_nil])
  rw [← hscript] at hrun
  refine ⟨t, u, ?_, hu.cfg, hh u hu.cfg hu.holds⟩
  rw [call_of_run hrun, hu.result, hr]

/-- Settles O60: each operation is a script of loads and its command. -/
theorem operationsDeliver : Obligations.OperationsDeliver := by
  unfold Obligations.OperationsDeliver
  intro s hc hb
  constructor
  · intro D b al hD hal
    have hl := loadable_textOps hD hal
    have text (d : Dir) :
        Delivers (call (basex d D b al)) (bxExec d b al.isSome) (HoldsText D al) s :=
      delivers_of_script hc hb hl (basex_eq_script d D b al) (resultOf_ofBx d b al.isSome)
        fun u hu h => holdsText_of_holds (hu ▸ hc) (hu ▸ hl) h
    exact ⟨text .enc, text .dec⟩
  · intro m pad fmt D K kt iv hD hK hiv
    have hl := loadable_cipherOps hD hK hiv
    have cipher (d : Dir) : Delivers (call (sm4 d m pad fmt D K kt iv))
        (sm4Exec d m (callOpts pad fmt kt iv)) (HoldsCipher D K iv) s :=
      delivers_of_script hc hb hl (sm4_eq_script d m pad fmt D K kt iv)
        (resultOf_ofSm4 d m (callOpts pad fmt kt iv))
        fun u hu h => holdsCipher_of_holds (hu ▸ hc) (hu ▸ hl) h
    exact ⟨cipher .enc, cipher .dec⟩

end Sys2Proof.Laws

/-! The codecs (spec/41_fixed_width_codec.md, spec/42_bigint_codec.md, spec/43_static_table_codec.md):
first numbers, bytes, digits and symbols, then one round trip for each codec, then the round trip of the
radix commands (spec/40_basex_front_end.md R137). -/

namespace Sys2Proof

/-! ## Numbers and their digits -/

/-- Reading digits from the most significant one down. -/
theorem foldl_digits_eq_ofDigits (R : Nat) (ds : List Nat) :
    ds.foldl (fun acc d => acc * R + d) 0 = Nat.ofDigits R ds.reverse := by
  rw [Nat.ofDigits_eq_foldr, List.foldr_reverse]
  simp only [Nat.cast_id, Nat.add_comm, Nat.mul_comm]

/-- The model's repeated division is Mathlib's, once the fuel suffices. -/
theorem digitsLe_eq_digits {R : Nat} (hR : 2 ≤ R) : ∀ {fuel N : Nat}, N < 2 ^ fuel →
    digitsLe R fuel N = Nat.digits R N := by
  intro fuel
  induction fuel with
  | zero =>
    intro N hN
    obtain rfl : N = 0 := by simpa using hN
    simp [digitsLe]
  | succ fuel ih =>
    intro N hN
    by_cases h0 : N = 0
    · simp [digitsLe, h0]
    · have hdiv : N / R < 2 ^ fuel :=
        (Nat.div_le_div_left hR Nat.two_pos).trans_lt
          (Nat.div_lt_of_lt_mul (by rwa [← Nat.pow_succ']))
      rw [digitsLe, if_neg h0, ih hdiv, Nat.digits_def' hR (Nat.pos_of_ne_zero h0)]

theorem digitsOf_eq_digits {R : Nat} (hR : 2 ≤ R) (N : Nat) : digitsOf R N = Nat.digits R N :=
  digitsLe_eq_digits hR Nat.lt_log2_self

/-- The `m` lowest base-`R` digits of a number, most significant first, stand for its remainder by
`R ^ m`. -/
theorem foldl_digits_of_div_pow (R m : Nat) : ∀ v : Nat,
    ((List.range m).map fun i => v / R ^ (m - 1 - i) % R).foldl (fun acc d => acc * R + d) 0 =
      v % R ^ m := by
  induction m with
  | zero => intro v; simp [Nat.mod_one]
  | succ m ih =>
    intro v
    have hupper : (List.range m).map (fun i => v / R ^ (m + 1 - 1 - i) % R) =
        (List.range m).map (fun i => v / R / R ^ (m - 1 - i) % R) := by
      refine List.map_congr_left fun i hi => ?_
      have hi := List.mem_range.1 hi
      rw [Nat.div_div_eq_div_mul, ← Nat.pow_succ', show (m - 1 - i).succ = m + 1 - 1 - i by omega]
    rw [List.range_succ, List.map_append, hupper, List.foldl_append, ih]
    simp only [List.map_cons, List.map_nil, List.foldl_cons, List.foldl_nil, Nat.add_sub_cancel,
      Nat.sub_self, Nat.pow_zero, Nat.div_one]
    rw [Nat.pow_succ', Nat.mod_mul, Nat.mul_comm, Nat.add_comm]

/-! ## Bytes as numbers -/

theorem beNat_eq_foldl (B : Bytes) :
    beNat B = (B.map BitVec.toNat).foldl (fun acc d => acc * 256 + d) 0 := by
  rw [beNat, List.foldl_map]

theorem beNat_eq_ofDigits (B : Bytes) :
    beNat B = Nat.ofDigits 256 (B.map BitVec.toNat).reverse := by
  rw [beNat_eq_foldl, foldl_digits_eq_ofDigits]

theorem leNat_eq_ofDigits (B : Bytes) : leNat B = Nat.ofDigits 256 (B.map BitVec.toNat) := by
  induction B with
  | nil => rfl
  | cons b B ih => rw [leNat, ih, List.map_cons, Nat.ofDigits_cons]

theorem beNat_eq_leNat_reverse (B : Bytes) : beNat B = leNat B.reverse := by
  rw [beNat_eq_ofDigits, leNat_eq_ofDigits, List.map_reverse]

theorem beNat_append (B C : Bytes) : beNat (B ++ C) = beNat B * 256 ^ C.length + beNat C := by
  simp only [beNat_eq_ofDigits, List.map_append, List.reverse_append, Nat.ofDigits_append,
    List.length_reverse, List.length_map]
  rw [Nat.add_comm, Nat.mul_comm]

theorem beNat_replicate_zero (k : Nat) : beNat (List.replicate k 0x00) = 0 := by
  induction k with
  | zero => rfl
  | succ k ih => rw [List.replicate_succ', beNat_append, ih]; rfl

theorem beNat_lt (B : Bytes) : beNat B < 256 ^ B.length := by
  have h := Laws.leNat_lt B.reverse
  rwa [← beNat_eq_leNat_reverse, List.length_reverse, Nat.pow_mul] at h

theorem bytesLe_leNat (B : Bytes) : bytesLe B.length (leNat B) = B := by
  induction B with
  | nil => rfl
  | cons b B ih =>
    have hb := b.isLt
    have hdiv : (b.toNat + 256 * leNat B) / 256 = leNat B := by omega
    have hmod : BitVec.ofNat 8 (b.toNat + 256 * leNat B) = b := by
      apply BitVec.eq_of_toNat_eq
      rw [BitVec.toNat_ofNat]
      omega
    rw [List.length_cons, leNat, bytesLe, hdiv, hmod, ih]

theorem bytesBe_beNat (B : Bytes) : bytesBe B.length (beNat B) = B := by
  rw [bytesBe, beNat_eq_leNat_reverse, ← List.length_reverse, bytesLe_leNat, List.reverse_reverse]

/-- The low bytes, then the bytes above them. -/
theorem bytesLe_add (j k v : Nat) : bytesLe (j + k) v = bytesLe j v ++ bytesLe k (v / 256 ^ j) := by
  induction j generalizing v with
  | zero => simp [bytesLe]
  | succ j ih =>
    rw [Nat.succ_add, bytesLe, bytesLe, ih, Nat.div_div_eq_div_mul, ← Nat.pow_succ',
      List.cons_append]

theorem bytesBe_add (k j v : Nat) : bytesBe (k + j) v = bytesBe k (v / 256 ^ j) ++ bytesBe j v := by
  rw [bytesBe, Nat.add_comm, bytesLe_add, List.reverse_append, bytesBe, bytesBe]

/-- Only the bits that the bytes hold count. -/
theorem bytesLe_mod (k v : Nat) : bytesLe k (v % 256 ^ k) = bytesLe k v := by
  induction k generalizing v with
  | zero => rfl
  | succ k ih =>
    have hlow : BitVec.ofNat 8 (v % 256 ^ (k + 1)) = BitVec.ofNat 8 v := by
      apply BitVec.eq_of_toNat_eq
      rw [BitVec.toNat_ofNat, BitVec.toNat_ofNat]
      exact Nat.mod_mod_of_dvd v (Dvd.intro_left (256 ^ k) rfl)
    rw [bytesLe, bytesLe, hlow, Nat.pow_succ', Nat.mod_mul_right_div_self, ih]

/-! ## Symbols -/

theorem symOf_eq_getElem {A : Bytes} {d : Nat} (h : d < A.length) : symOf A d = A[d] := by
  simp [symOf, h]

theorem symOf_mem {A : Bytes} {d : Nat} (h : d < A.length) : symOf A d ∈ A := by
  rw [symOf_eq_getElem h]
  exact List.getElem_mem h

/-- A symbol stands for its digit (00_scope.md R16). -/
theorem valOf_symOf {A : Bytes} (hA : A.Nodup) {d : Nat} (h : d < A.length) :
    valOf A (symOf A d) = d := by
  rw [symOf_eq_getElem h, valOf, hA.idxOf_getElem]

theorem map_valOf_symOf {A : Bytes} (hA : A.Nodup) {ds : List Nat} (h : ∀ d ∈ ds, d < A.length) :
    (ds.map (symOf A)).map (valOf A) = ds := by
  rw [List.map_map]
  exact (List.map_congr_left fun d hd => valOf_symOf hA (h d hd)).trans (List.map_id ds)

theorem mem_of_mem_map_symOf {A : Bytes} {ds : List Nat} (h : ∀ d ∈ ds, d < A.length) {c : Byte}
    (hc : c ∈ ds.map (symOf A)) : c ∈ A := by
  obtain ⟨d, hd, rfl⟩ := List.mem_map.1 hc
  exact symOf_mem (h d hd)

/-- A text of symbols passes the check for foreign ones. -/
theorem not_any_foreign {A T : Bytes} (h : ∀ c ∈ T, c ∈ A) : ¬ T.any (fun c => !A.contains c) := by
  simpa [List.any_eq_true] using h

/-- The number that symbols stand for is the one that their digits stand for. -/
theorem foldl_valOf_symOf {A : Bytes} (hA : A.Nodup) {ds : List Nat} (h : ∀ d ∈ ds, d < A.length)
    (R : Nat) : (ds.map (symOf A)).foldl (fun acc c => acc * R + valOf A c) 0 =
      ds.foldl (fun acc d => acc * R + d) 0 := by
  rw [← List.foldl_map (f := valOf A) (g := fun acc d => acc * R + d), map_valOf_symOf hA h]

/-- The number of byte `i` of a range that does not wrap. -/
theorem toNat_byteRange {first n i : Nat} (h : first + n ≤ 256) (hi : i < n) :
    (BitVec.ofNat 8 (first + i)).toNat = first + i := Nat.mod_eq_of_lt (by omega)

theorem byteRange_nodup {first n : Nat} (h : first + n ≤ 256) : (byteRange first n).Nodup := by
  refine List.Nodup.map_on (fun i hi j hj hij => ?_) List.nodup_range
  have heq := congrArg BitVec.toNat hij
  rw [toNat_byteRange h (List.mem_range.1 hi), toNat_byteRange h (List.mem_range.1 hj)] at heq
  omega

theorem range_of_mem_byteRange {first n : Nat} (h : first + n ≤ 256) {c : Byte}
    (hc : c ∈ byteRange first n) : first ≤ c.toNat ∧ c.toNat < first + n := by
  obtain ⟨i, hi, rfl⟩ := List.mem_map.1 hc
  have hi := List.mem_range.1 hi
  rw [toNat_byteRange h hi]
  omega

/-! ## Runs at the front -/

theorem replicate_leadingCount_append (c : Byte) (B : Bytes) :
    List.replicate (leadingCount c B) c ++ B.dropWhile (· == c) = B := by
  have hall : B.takeWhile (· == c) = List.replicate (leadingCount c B) c :=
    List.eq_replicate_of_mem fun x hx => by simpa using List.mem_takeWhile_imp hx
  rw [← hall, List.takeWhile_append_dropWhile]

theorem head?_dropWhile_ne (c : Byte) (B : Bytes) : (B.dropWhile (· == c)).head? ≠ some c := by
  intro h
  have hne := List.head?_dropWhile_not (fun x : Byte => x == c) B
  simp [h] at hne

theorem leadingCount_replicate_append {c : Byte} {B : Bytes} (h : B.head? ≠ some c) (k : Nat) :
    leadingCount c (List.replicate k c ++ B) = k := by
  have htake : B.takeWhile (· == c) = [] := by
    cases B with
    | nil => rfl
    | cons b B => exact List.takeWhile_cons_of_neg (by simpa using h)
  have hrun : ∀ x ∈ List.replicate k c, (x == c) = true := fun x hx =>
    beq_iff_eq.2 (List.eq_of_mem_replicate hx)
  rw [leadingCount, List.takeWhile_append_of_pos hrun, htake, List.append_nil,
    List.length_replicate]

/-! ## Whitespace -/

/-- A text that holds no whitespace is left as it is (40_basex_front_end.md R130). -/
theorem stripWs_eq_self {ws T : Bytes} (h : ∀ x ∈ T, x ∉ ws) : stripWs ws T = T :=
  List.filter_eq_self.2 fun x hx => by simpa using h x hx

end Sys2Proof

namespace Sys2Proof

open Sys2Proof.Claims

/-! ## The fixed-width codec (spec/41_fixed_width_codec.md R150 to R155) -/

/-- The widths of R150, and that a full block is a number of whole bytes. -/
theorem geometry_bounds {g : Geometry} (hg : g ∈ geometries) :
    0 < g.w ∧ g.w ≤ 8 ∧ 0 < g.symbols ∧ 8 ∣ g.symbols * g.w := by
  have h : ∀ g ∈ geometries, 0 < g.w ∧ g.w ≤ 8 ∧ 0 < g.symbols ∧ 8 ∣ g.symbols * g.w := by decide
  exact h g hg

/-- The symbols hold the bytes, with less than one symbol to spare (R152). -/
theorem fwSymbols_bounds {g : Geometry} (hw : 0 < g.w) (n : Nat) :
    8 * n ≤ fwSymbols g n * g.w ∧ fwSymbols g n * g.w < 8 * n + g.w := by
  have hle := Nat.div_mul_le_self (8 * n + (g.w - 1)) g.w
  have hlt := Nat.lt_div_mul_add (a := 8 * n + (g.w - 1)) hw
  unfold fwSymbols
  omega

@[simp] theorem length_fwDigits (g : Geometry) (D : Bytes) :
    (fwDigits g D).length = fwSymbols g D.length := by simp [fwDigits]

theorem fwDigits_lt (g : Geometry) (D : Bytes) : ∀ d ∈ fwDigits g D, d < 2 ^ g.w := by
  intro d hd
  obtain ⟨i, -, rfl⟩ := List.mem_map.1 hd
  exact Nat.mod_lt _ (Nat.two_pow_pos g.w)

/-- The digits stand for the bytes followed by the zero bits that fill the last symbol. -/
theorem foldl_fwDigits {g : Geometry} (hw : 0 < g.w) (D : Bytes) :
    (fwDigits g D).foldl (fun acc d => acc * 2 ^ g.w + d) 0 =
      beNat D * 2 ^ (fwSymbols g D.length * g.w - 8 * D.length) := by
  obtain ⟨hle, -⟩ := fwSymbols_bounds hw D.length
  have hlt : beNat D < 2 ^ (8 * D.length) := by
    have h := beNat_lt D
    rwa [show 256 = 2 ^ 8 from rfl, ← Nat.pow_mul] at h
  have hbits : beNat D * 2 ^ (fwSymbols g D.length * g.w - 8 * D.length) <
      (2 ^ g.w) ^ fwSymbols g D.length := by
    rw [← Nat.pow_mul, Nat.mul_comm g.w, ← Nat.add_sub_cancel' hle, Nat.pow_add,
      Nat.add_sub_cancel' hle]
    exact Nat.mul_lt_mul_of_pos_right hlt (Nat.two_pow_pos _)
  rw [← Nat.mod_eq_of_lt hbits, ← foldl_digits_of_div_pow, fwDigits]
  simp only [Nat.shiftRight_eq_div_pow, ← Nat.pow_mul, Nat.mul_comm g.w]

/-- Unpacking undoes packing (R152, R154 steps 4 to 6). -/
theorem fwUnpack_fwDigits {g : Geometry} (hg : g ∈ geometries) {A : Bytes} (hA : ValidFor g A)
    (D : Bytes) : fwUnpack g A ((fwDigits g D).map (symOf A)) = .ok D := by
  obtain ⟨hlen, hnodup⟩ := hA
  obtain ⟨hw, hw8, -, hblock⟩ := geometry_bounds hg
  obtain ⟨hle, hlt⟩ := fwSymbols_bounds hw D.length
  have hdigit : ∀ d ∈ fwDigits g D, d < A.length := hlen ▸ fwDigits_lt g D
  have hvalue : fwValue g A ((fwDigits g D).map (symOf A)) =
      beNat D * 2 ^ (fwSymbols g D.length * g.w - 8 * D.length) :=
    (foldl_valOf_symOf hnodup hdigit _).trans (foldl_fwDigits hw D)
  have hbytes : fwSymbols g D.length * g.w / 8 = D.length := by omega
  have hspare : fwSymbols g D.length % g.symbols * g.w % 8 < g.w := by
    obtain ⟨k, hk⟩ := hblock
    have hsplit : fwSymbols g D.length * g.w =
        8 * (k * (fwSymbols g D.length / g.symbols)) +
          fwSymbols g D.length % g.symbols * g.w := by
      rw [← Nat.mul_assoc, ← hk, Nat.mul_right_comm, ← Nat.add_mul, Nat.div_add_mod]
    omega
  simp only [fwUnpack, hvalue, List.length_map, length_fwDigits, hbytes]
  rw [if_neg (Nat.not_le_of_lt hspare), if_neg (by simp), Nat.shiftRight_eq_div_pow,
    Nat.mul_div_cancel _ (Nat.two_pow_pos _), bytesBe_beNat]

/-- Padding completes a text to whole blocks with less than one block (R152). -/
theorem length_fwPadding {g : Geometry} (hS : 0 < g.symbols) (n : Nat) :
    (fwPadding g n).length < g.symbols ∧ (n + (fwPadding g n).length) % g.symbols = 0 := by
  have hmod := Nat.mod_lt n hS
  rw [fwPadding, List.length_replicate]
  refine ⟨Nat.mod_lt _ hS, ?_⟩
  rw [Nat.add_mod_mod, ← Nat.mod_add_mod, Nat.add_sub_cancel' hmod.le, Nat.mod_self]

/-- The trailing padding characters of a text without one are those put behind it. -/
theorem trailingPads_append {T : Bytes} (h : padChar ∉ T) (k : Nat) :
    trailingPads (T ++ List.replicate k padChar) = k := by
  rw [trailingPads, List.reverse_append, List.reverse_replicate]
  exact leadingCount_replicate_append (fun hp => h (List.mem_reverse.1 (List.mem_of_head? hp))) k

/-- The padding is taken off as it was put on (R152, R154 step 3). -/
theorem fwBody_append_fwPadding {g : Geometry} (hS : 0 < g.symbols) {T : Bytes}
    (h : padChar ∉ T) : fwBody g true (T ++ fwPadding g T.length) = .ok T := by
  obtain ⟨hlt, hmod⟩ := length_fwPadding hS T.length
  have hk : trailingPads (T ++ fwPadding g T.length) = (fwPadding g T.length).length := by
    rw [fwPadding, trailingPads_append h, List.length_replicate]
  simp only [fwBody, cond_true, hk, List.length_append, Nat.add_sub_cancel, List.take_left']
  rw [if_neg (by simp [h, hlt]), if_neg (by simpa using hmod)]

/-- Neither a symbol of `A16` nor the padding character is folded (R155). -/
theorem foldHex_eq_self {T : Bytes} (h : ∀ c ∈ T, c ∈ padChar :: a16) : foldHex T = T := by
  have hA : ∀ c ∈ padChar :: a16, ¬ (0x41 ≤ c.toNat ∧ c.toNat ≤ 0x46) := by decide +kernel
  exact (List.map_congr_left fun c hc => if_neg (hA c (h c hc))).trans (List.map_id T)

/-- The symbols of an encoded text. -/
theorem mem_fwEncode {g : Geometry} {A : Bytes} (hA : A.length = 2 ^ g.w) {pad : Bool} {D : Bytes}
    {c : Byte} (hc : c ∈ fwEncode g A pad D) : c ∈ A ∨ (pad = true ∧ c = padChar) := by
  have hsym : c ∈ (fwDigits g D).map (symOf A) → c ∈ A :=
    mem_of_mem_map_symOf (hA ▸ fwDigits_lt g D)
  cases pad with
  | false => exact .inl (hsym hc)
  | true =>
    rcases List.mem_append.1 hc with hc | hc
    · exact .inl (hsym hc)
    · exact .inr ⟨rfl, List.eq_of_mem_replicate hc⟩

/-- The fixed-width round trip (R156). -/
theorem fwDecode_fwEncode {g : Geometry} (hg : g ∈ geometries) {A : Bytes} (hA : ValidFor g A)
    {pad fold : Bool} (hpad : pad = true → padChar ∉ A) (hfold : fold = true → A = a16)
    (D : Bytes) : fwDecode g A pad fold (fwEncode g A pad D) = .ok D := by
  obtain ⟨-, -, hS, -⟩ := geometry_bounds hg
  have hsym : ∀ c ∈ fwEncode g A pad D, c ∈ A ∨ (pad = true ∧ c = padChar) :=
    fun c => mem_fwEncode hA.1
  have hfolded : (bif fold then foldHex (fwEncode g A pad D) else fwEncode g A pad D) =
      fwEncode g A pad D := by
    cases fold with
    | false => rfl
    | true =>
      refine foldHex_eq_self fun c hc => ?_
      rw [← hfold rfl]
      rcases hsym c hc with h | ⟨-, rfl⟩
      · exact List.mem_cons_of_mem _ h
      · exact List.mem_cons_self
  have hgood : ¬ (fwEncode g A pad D).any (fun c => !A.contains c && !(pad && c == padChar)) := by
    rw [List.any_eq_true]
    rintro ⟨c, hc, hbad⟩
    rcases hsym c hc with h | ⟨hp, rfl⟩
    · simp [h] at hbad
    · simp [hp] at hbad
  have hbody : fwBody g pad (fwEncode g A pad D) = .ok ((fwDigits g D).map (symOf A)) := by
    cases pad with
    | false => rfl
    | true =>
      exact fwBody_append_fwPadding hS fun hp =>
        hpad rfl (mem_of_mem_map_symOf (hA.1 ▸ fwDigits_lt g D) hp)
  simp only [fwDecode, hfolded, if_neg hgood, hbody]
  exact fwUnpack_fwDigits hg hA D

end Sys2Proof

namespace Sys2Proof

open Sys2Proof.Claims

/-! ## The big-integer codec (spec/42_bigint_codec.md R191 to R195) -/

/-- A number in as few bytes as possible gives back bytes that do not begin with zero. -/
theorem minbytesBe_beNat {E : Bytes} (h : E.head? ≠ some 0x00) : minbytesBe (beNat E) = E := by
  have hdigits : Nat.digits 256 (beNat E) = (E.map BitVec.toNat).reverse := by
    rw [beNat_eq_ofDigits]
    refine Nat.digits_ofDigits 256 (by decide) _ (fun d hd => ?_) fun hne => ?_
    · obtain ⟨b, -, rfl⟩ := List.mem_map.1 (List.mem_reverse.1 hd)
      exact b.isLt
    · cases E with
      | nil => exact absurd rfl hne
      | cons b E =>
        intro hb
        refine h (congrArg some (BitVec.eq_of_toNat_eq ?_))
        simpa using hb
  rw [minbytesBe, digitsOf_eq_digits (by decide), hdigits, List.reverse_reverse, List.map_map]
  exact (List.map_congr_left fun b _ => by simp).trans (List.map_id E)

/-- The digits of an encoded text: a zero for each leading zero byte, then those of the number. -/
def biDigits (R : Nat) (D : Bytes) : List Nat :=
  List.replicate (leadingCount 0x00 D) 0 ++ (Nat.digits R (beNat D)).reverse

theorem biEncode_eq_map {A : Bytes} (hA : 2 ≤ A.length) (D : Bytes) :
    biEncode A D = (biDigits A.length D).map (symOf A) := by
  rw [biEncode, biDigits, List.map_append, List.map_replicate, digitsOf_eq_digits hA]

theorem biDigits_lt {R : Nat} (hR : 2 ≤ R) (D : Bytes) : ∀ d ∈ biDigits R D, d < R := by
  intro d hd
  rcases List.mem_append.1 hd with hd | hd
  · rw [List.eq_of_mem_replicate hd]
    exact Nat.zero_lt_of_lt hR
  · exact Nat.digits_lt_base hR (List.mem_reverse.1 hd)

theorem foldl_biDigits (R : Nat) (D : Bytes) :
    (biDigits R D).foldl (fun acc d => acc * R + d) 0 = beNat D := by
  rw [foldl_digits_eq_ofDigits, biDigits, List.reverse_append, List.reverse_reverse,
    List.reverse_replicate, Nat.ofDigits_append_replicate_zero, Nat.ofDigits_digits]

/-- The symbols of an encoded text. -/
theorem mem_biEncode {A D : Bytes} (hA : 2 ≤ A.length) {c : Byte} (hc : c ∈ biEncode A D) :
    c ∈ A := by
  rw [biEncode_eq_map hA] at hc
  exact mem_of_mem_map_symOf (biDigits_lt hA D) hc

/-- The most significant digit is no zero. -/
theorem head?_reverse_digits_ne (R N : Nat) : (Nat.digits R N).reverse.head? ≠ some 0 := by
  rw [List.head?_reverse]
  by_cases hN : N = 0
  · simp [hN]
  · rw [List.getLast?_eq_some_getLast (Nat.digits_ne_nil_iff_ne_zero.2 hN), ne_eq, Option.some_inj]
    exact Nat.getLast_digit_ne_zero R hN

theorem leadingCount_biEncode {A : Bytes} (hA : 2 ≤ A.length) (hnodup : A.Nodup) (D : Bytes) :
    leadingCount (symOf A 0) (biEncode A D) = leadingCount 0x00 D := by
  rw [biEncode, digitsOf_eq_digits hA]
  refine leadingCount_replicate_append (fun h => ?_) _
  rw [List.head?_map, Option.map_eq_some_iff] at h
  obtain ⟨d, hd, hsym⟩ := h
  have hlt : d < A.length :=
    Nat.digits_lt_base hA (List.mem_reverse.1 (List.mem_of_head? hd))
  have hd0 : d = 0 := by
    rw [← valOf_symOf hnodup hlt, hsym, valOf_symOf hnodup (Nat.zero_lt_of_lt hA)]
  exact head?_reverse_digits_ne _ _ (hd0 ▸ hd)

/-- The number of a text is the one that was encoded. -/
theorem biValue_biEncode {A : Bytes} (hA : 2 ≤ A.length) (hnodup : A.Nodup) (D : Bytes) :
    biValue A (biEncode A D) = beNat D := by
  rw [biValue, biEncode_eq_map hA, foldl_valOf_symOf hnodup (biDigits_lt hA D), foldl_biDigits]

/-- The big-integer round trip (R195): leading zeros one for one, then the number in as few bytes as
it needs. -/
theorem biDecode_biEncode {A : Bytes} (hA : 2 ≤ A.length) (hnodup : A.Nodup) (D : Bytes) :
    biDecode A (biEncode A D) = .ok D := by
  have hgood : ¬ (biEncode A D).any (fun c => !A.contains c) :=
    not_any_foreign fun c hc => mem_biEncode hA hc
  have hnumber : beNat D = beNat (D.dropWhile (· == 0x00)) := by
    conv_lhs => rw [← replicate_leadingCount_append 0x00 D]
    rw [beNat_append, beNat_replicate_zero, Nat.zero_mul, Nat.zero_add]
  rw [biDecode, if_neg hgood, leadingCount_biEncode hA hnodup, biValue_biEncode hA hnodup, hnumber,
    minbytesBe_beNat (head?_dropWhile_ne 0x00 D), replicate_leadingCount_append]

end Sys2Proof

namespace Sys2Proof

/-! ## Pieces of a byte sequence (00_scope.md R15) -/

/-- Fuel beyond the length makes no difference. -/
theorem chunksFuel_congr {k : Nat} (hk : 0 < k) : ∀ {f f' : Nat} {B : Bytes},
    B.length ≤ f → B.length ≤ f' → chunksFuel k f B = chunksFuel k f' B
  | f, f', [], _, _ => by cases f <;> cases f' <;> rfl
  | f + 1, f' + 1, b :: B, h, h' => by
    have hdrop : ((b :: B).drop k).length ≤ B.length := by simp; omega
    rw [List.length_cons] at h h'
    rw [chunksFuel, chunksFuel, chunksFuel_congr hk (f' := f') (by omega) (by omega)]

@[simp] theorem chunks_nil (k : Nat) : chunks k [] = [] := rfl

theorem chunks_of_ne_nil {k : Nat} (hk : 0 < k) {B : Bytes} (hB : B ≠ []) :
    chunks k B = B.take k :: chunks k (B.drop k) := by
  cases B with
  | nil => exact absurd rfl hB
  | cons b B =>
    rw [chunks, List.length_cons, chunksFuel, if_neg hB, chunks]
    exact congrArg _ (chunksFuel_congr hk (by simp; omega) le_rfl)

theorem chunks_append {k : Nat} (hk : 0 < k) {G : Bytes} (hG : G.length = k) (B : Bytes) :
    chunks k (G ++ B) = G :: chunks k B := by
  have hne : G ++ B ≠ [] := by
    intro h
    rw [(List.append_eq_nil_iff.1 h).1] at hG
    exact absurd hG (Nat.ne_of_lt hk)
  rw [chunks_of_ne_nil hk hne, List.take_left' hG, List.drop_left' hG]

theorem chunks_of_short {k : Nat} {B : Bytes} (hB : B ≠ []) (h : B.length ≤ k) :
    chunks k B = [B] := by
  have hk : 0 < k := (List.length_pos_of_ne_nil hB).trans_le h
  rw [chunks_of_ne_nil hk hB, List.take_of_length_le h, List.drop_of_length_le h, chunks_nil]

/-- Induction along the pieces of a byte sequence: whole ones, then a shorter one or none. -/
theorem chunks_induction {k : Nat} (hk : 0 < k) {P : Bytes → Prop} (nil : P [])
    (short : ∀ B, B ≠ [] → B.length < k → P B)
    (whole : ∀ G B, G.length = k → P B → P (G ++ B)) (B : Bytes) : P B := by
  induction h : B.length using Nat.strongRecOn generalizing B with
  | ind n ih =>
    by_cases hB : B = []
    · exact hB ▸ nil
    · by_cases hlen : B.length < k
      · exact short B hB hlen
      · have hpos := List.length_pos_of_ne_nil hB
        rw [← List.take_append_drop k B]
        exact whole _ _ (List.length_take_of_le (Nat.le_of_not_lt hlen))
          (ih _ (by rw [← h, List.length_drop]; omega) _ rfl)

/-! ## Default base 85 (spec/43_static_table_codec.md R225 to R227) -/

theorem a85_nodup : a85.Nodup := byteRange_nodup (by decide)

/-- `A85` is the range from `!` to `u` (R225). -/
theorem a85_range : ∀ c ∈ a85, 0x21 ≤ c.toNat ∧ c.toNat ≤ 0x75 := fun c hc => by
  have h := range_of_mem_byteRange (first := 0x21) (n := 85) (by decide) hc
  omega

/-- The number of a group filled up with zero bytes (R226). -/
theorem beNat_filled (G : Bytes) :
    beNat (G ++ List.replicate (4 - G.length) 0x00) = beNat G * 256 ^ (4 - G.length) := by
  rw [beNat_append, beNat_replicate_zero, List.length_replicate, Nat.add_zero]

/-- The digits of a group's symbols, most significant first (R226). -/
def group85Digits (G : Bytes) : List Nat :=
  (List.range (G.length + 1)).map
    (digit85 (beNat (G ++ List.replicate (4 - G.length) 0x00)))

theorem group85Enc_eq_map (G : Bytes) : group85Enc G = (group85Digits G).map (symOf a85) := by
  rw [group85Digits, List.map_map]
  rfl

theorem group85Digits_lt (G : Bytes) : ∀ d ∈ group85Digits G, d < a85.length := by
  intro d hd
  obtain ⟨i, -, rfl⟩ := List.mem_map.1 hd
  exact Nat.mod_lt _ (by decide)

@[simp] theorem length_group85Enc (G : Bytes) : (group85Enc G).length = G.length + 1 := by
  simp [group85Enc]

theorem mem_group85Enc {G : Bytes} {c : Byte} (hc : c ∈ group85Enc G) : c ∈ a85 := by
  rw [group85Enc_eq_map] at hc
  exact mem_of_mem_map_symOf (group85Digits_lt G) hc

/-- Filling with the digit 84 gives the last number before the next one with the digits above. -/
theorem foldl_replicate_84 (j acc : Nat) :
    (List.replicate j 84).foldl (fun acc d => acc * 85 + d) acc + 1 = (acc + 1) * 85 ^ j := by
  induction j generalizing acc with
  | zero => simp
  | succ j ih =>
    rw [List.replicate_succ, List.foldl_cons, ih, Nat.pow_succ', ← Nat.mul_assoc]
    congr 1
    omega

/-- The leading digits of a group are those of its number without the lowest ones. -/
theorem foldl_group85Digits {G : Bytes} (hG : G.length ≤ 4) :
    (group85Digits G).foldl (fun acc d => acc * 85 + d) 0 =
      beNat G * 256 ^ (4 - G.length) / 85 ^ (4 - G.length) := by
  have hv : beNat G * 256 ^ (4 - G.length) < 85 ^ (4 - G.length) * 85 ^ (G.length + 1) := by
    rw [← Nat.pow_add, show 4 - G.length + (G.length + 1) = 5 by omega]
    calc beNat G * 256 ^ (4 - G.length)
      _ < 256 ^ G.length * 256 ^ (4 - G.length) :=
        Nat.mul_lt_mul_of_pos_right (beNat_lt G) (Nat.pow_pos (by decide))
      _ = 256 ^ 4 := by rw [← Nat.pow_add, Nat.add_sub_cancel' hG]
      _ < 85 ^ 5 := by decide
  have hdigits : group85Digits G = (List.range (G.length + 1)).map fun i =>
      beNat G * 256 ^ (4 - G.length) / 85 ^ (4 - G.length) / 85 ^ (G.length + 1 - 1 - i) % 85 := by
    rw [group85Digits, beNat_filled]
    refine List.map_congr_left fun i hi => ?_
    have hi := List.mem_range.1 hi
    rw [digit85, Nat.div_div_eq_div_mul, ← Nat.pow_add,
      show 4 - G.length + (G.length + 1 - 1 - i) = 4 - i by omega]
  rw [hdigits, foldl_digits_of_div_pow, Nat.mod_eq_of_lt (Nat.div_lt_of_lt_mul hv)]

/-- The value of an encoded group lies among the numbers whose upper bytes are the group. -/
theorem group85Val_group85Enc {G : Bytes} (hG : G.length ≤ 4) :
    beNat G * 256 ^ (4 - G.length) ≤ group85Val (group85Enc G) ∧
      group85Val (group85Enc G) < (beNat G + 1) * 256 ^ (4 - G.length) := by
  have hval : group85Val (group85Enc G) + 1 =
      (beNat G * 256 ^ (4 - G.length) / 85 ^ (4 - G.length) + 1) * 85 ^ (4 - G.length) := by
    rw [group85Val, length_group85Enc, group85Enc_eq_map,
      map_valOf_symOf a85_nodup (group85Digits_lt G), List.foldl_append, foldl_group85Digits hG,
      show 5 - (G.length + 1) = 4 - G.length by omega, foldl_replicate_84]
  have hpow : 85 ^ (4 - G.length) ≤ 256 ^ (4 - G.length) := Nat.pow_le_pow_left (by decide) _
  have hlt := Nat.lt_div_mul_add (a := beNat G * 256 ^ (4 - G.length))
    (Nat.pow_pos (n := 4 - G.length) (show 0 < 85 by decide))
  have hle := Nat.div_mul_le_self (beNat G * 256 ^ (4 - G.length)) (85 ^ (4 - G.length))
  rw [Nat.add_mul, Nat.one_mul] at hval ⊢
  omega

/-- A group is decoded as it was encoded (R226, R227). -/
theorem group85Dec_group85Enc {G : Bytes} (hG : G.length ≤ 4) :
    group85Dec (group85Enc G) = .ok G := by
  obtain ⟨hlo, hhi⟩ := group85Val_group85Enc hG
  have hrange : group85Val (group85Enc G) < 2 ^ 32 :=
    calc group85Val (group85Enc G)
      _ < (beNat G + 1) * 256 ^ (4 - G.length) := hhi
      _ ≤ 256 ^ G.length * 256 ^ (4 - G.length) := Nat.mul_le_mul_right _ (beNat_lt G)
      _ = 2 ^ 32 := by rw [← Nat.pow_add, Nat.add_sub_cancel' hG]; rfl
  have hbytes : bytesBe 4 (group85Val (group85Enc G)) =
      G ++ bytesBe (4 - G.length) (group85Val (group85Enc G)) := by
    conv_lhs =>
      rw [← Nat.add_sub_cancel' hG, bytesBe_add, Nat.div_eq_of_lt_le hlo hhi, bytesBe_beNat]
  rw [group85Dec, if_neg (Nat.not_le_of_lt hrange), hbytes, length_group85Enc, Nat.add_sub_cancel,
    List.take_left' rfl]

theorem ascii85Enc_of_short {D : Bytes} (hD : D ≠ []) (h : D.length < 4) :
    ascii85Enc D = group85Enc D := by
  rw [ascii85Enc, chunks_of_short hD h.le]
  simp

theorem ascii85Enc_append {G : Bytes} (hG : G.length = 4) (D : Bytes) :
    ascii85Enc (G ++ D) = group85Enc G ++ ascii85Enc D := by
  rw [ascii85Enc, chunks_append (by decide) hG]
  rfl

theorem mem_ascii85Enc {D : Bytes} {c : Byte} (hc : c ∈ ascii85Enc D) : c ∈ a85 := by
  obtain ⟨T, hT, hc⟩ := List.mem_flatten.1 hc
  obtain ⟨G, -, rfl⟩ := List.mem_map.1 hT
  exact mem_group85Enc hc

/-- No encoded text ends in a group of one symbol. -/
theorem length_ascii85Enc_mod_ne_one (D : Bytes) : (ascii85Enc D).length % 5 ≠ 1 := by
  induction D using chunks_induction (k := 4) (by decide) with
  | nil => decide
  | short D hD h =>
    have hpos := List.length_pos_of_ne_nil hD
    rw [ascii85Enc_of_short hD h, length_group85Enc]
    omega
  | whole G D hG ih =>
    rw [ascii85Enc_append hG, List.length_append, length_group85Enc, hG]
    omega

/-- Group by group, the text decodes to what was encoded. -/
theorem groups85Dec_chunks_ascii85Enc (D : Bytes) :
    groups85Dec (chunks 5 (ascii85Enc D)) = .ok D := by
  induction D using chunks_induction (k := 4) (by decide) with
  | nil => rfl
  | short D hD h =>
    have hlen := length_group85Enc D
    rw [ascii85Enc_of_short hD h, chunks_of_short (List.ne_nil_of_length_pos (by omega)) (by omega)]
    simp only [groups85Dec, group85Dec_group85Enc h.le, List.append_nil]
  | whole G D hG ih =>
    rw [ascii85Enc_append hG, chunks_append (by decide) (by rw [length_group85Enc, hG])]
    simp only [groups85Dec, group85Dec_group85Enc hG.le, ih]

/-- The default base-85 round trip (R224 `P_rt85` without whitespace). -/
theorem ascii85Dec_ascii85Enc (D : Bytes) : ascii85Dec (ascii85Enc D) = .ok D := by
  have hgood : ¬ (ascii85Enc D).any
      (fun c => decide (c.toNat < 0x21) || decide (c.toNat > 0x75)) := by
    rw [List.any_eq_true]
    rintro ⟨c, hc, hbad⟩
    have hrange := a85_range c (mem_ascii85Enc hc)
    simp only [Bool.or_eq_true, decide_eq_true_eq] at hbad
    omega
  rw [ascii85Dec, if_neg hgood, if_neg (length_ascii85Enc_mod_ne_one D),
    groups85Dec_chunks_ascii85Enc]

end Sys2Proof

namespace Sys2Proof

/-! ## Default base 91 (spec/43_static_table_codec.md R228 to R230) -/

theorem length_a91 : a91.length = 91 := rfl

theorem a91_nodup : a91.Nodup := by decide +kernel

theorem valOf_symOf_a91 {d : Nat} (h : d < 91) : valOf a91 (symOf a91 d) = d :=
  valOf_symOf a91_nodup h

/-- The bits that one pair of symbols carries, and how many they are (R229, R230). -/
def pairBits91 (v : Nat) : Nat := if v % 8192 > 88 then 13 else 14

/-- The value of the next pair of symbols, from a queue of 14 bits or more (R229). -/
def pairValue91 (q : Nat) : Nat := if q % 8192 > 88 then q % 8192 else q % 16384

theorem pairBits91_cases (v : Nat) : pairBits91 v = 13 ∨ pairBits91 v = 14 := by
  unfold pairBits91
  split
  · exact .inl rfl
  · exact .inr rfl

theorem pairBits91_bounds (v : Nat) {n : Nat} (hn : n > 13) :
    13 ≤ pairBits91 v ∧ pairBits91 v ≤ n := by
  rcases pairBits91_cases v with h | h <;> omega

/-- A pair carries fewer than 91² values, and the decoder sees from it how many bits the encoder
took. -/
theorem pairValue91_spec (q : Nat) : pairValue91 q < 91 * 91 ∧
    pairBits91 (pairValue91 q) = pairBits91 q ∧ pairValue91 q = q % 2 ^ pairBits91 q := by
  unfold pairValue91 pairBits91
  split
  · next h =>
    refine ⟨by omega, if_pos (by omega), rfl⟩
  · next h =>
    refine ⟨by omega, if_neg (by omega), rfl⟩

/-- A step of the encoder that takes a pair off the queue. -/
theorem base91EncGo_cons_pair (c : Byte) (D : Bytes) {q n q' : Nat} (hn : n + 8 > 13)
    (hq : q + c.toNat * 2 ^ n = q') :
    base91EncGo (c :: D) q n = symOf a91 (pairValue91 q' % 91) :: symOf a91 (pairValue91 q' / 91) ::
      base91EncGo D (q' / 2 ^ pairBits91 q') (n + 8 - pairBits91 q') := by
  subst hq
  simp only [base91EncGo, if_pos hn, pairValue91, pairBits91]
  split <;> rfl

theorem base91EncGo_cons_queue (c : Byte) (D : Bytes) {q n : Nat} (hn : ¬ n + 8 > 13) :
    base91EncGo (c :: D) q n = base91EncGo D (q + c.toNat * 2 ^ n) (n + 8) := by
  simp only [base91EncGo, if_neg hn]

/-- The queue gives its whole bytes and keeps the bits above them. -/
theorem drain91_eq {fuel n : Nat} (h : n ≤ fuel) (q : Nat) :
    drain91 fuel q n = (bytesLe (n / 8) q, q / 256 ^ (n / 8), n % 8) := by
  induction fuel generalizing q n with
  | zero =>
    obtain rfl : n = 0 := by omega
    simp [drain91, bytesLe]
  | succ fuel ih =>
    by_cases hn : n > 7
    · have hdiv : n / 8 = (n - 8) / 8 + 1 := by omega
      have hmod : (n - 8) % 8 = n % 8 := by omega
      rw [drain91, if_pos hn, ih (by omega), hmod, hdiv, bytesLe, Nat.pow_succ',
        Nat.div_div_eq_div_mul]
    · have hdiv : n / 8 = 0 := by omega
      rw [drain91, if_neg hn, hdiv, Nat.mod_eq_of_lt (by omega)]
      simp [bytesLe]

/-- A step of the decoder: a pair of symbols puts its bits on the queue, which gives its whole
bytes. -/
theorem base91DecGo_pair {v : Nat} (hv : v < 91 * 91) (T : Bytes) (q n : Nat) :
    base91DecGo (symOf a91 (v % 91) :: symOf a91 (v / 91) :: T) q n none =
      bytesLe ((n + pairBits91 v) / 8) (q + v * 2 ^ n) ++
        base91DecGo T ((q + v * 2 ^ n) / 256 ^ ((n + pairBits91 v) / 8))
          ((n + pairBits91 v) % 8) none := by
  have hlo : valOf a91 (symOf a91 (v % 91)) = v % 91 := valOf_symOf_a91 (Nat.mod_lt v (by decide))
  have hhi : valOf a91 (symOf a91 (v / 91)) = v / 91 :=
    valOf_symOf_a91 (Nat.div_lt_of_lt_mul hv)
  have hpair : v % 91 + v / 91 * 91 = v := Nat.mod_add_div' v 91
  simp only [base91DecGo, hlo, hhi, hpair, pairBits91, drain91_eq le_rfl]

/-! ### Queued bits as bytes -/

/-- Bits put above others. -/
theorem add_high_lt {lo hi a b : Nat} (hlo : lo < 2 ^ a) (hhi : hi < 2 ^ b) :
    lo + hi * 2 ^ a < 2 ^ (a + b) := by
  calc lo + hi * 2 ^ a
    _ < (hi + 1) * 2 ^ a := by rw [Nat.add_mul, Nat.one_mul]; omega
    _ ≤ 2 ^ b * 2 ^ a := Nat.mul_le_mul_right _ hhi
    _ = 2 ^ (a + b) := by rw [← Nat.pow_add, Nat.add_comm]

/-- A byte above whole bytes is the last one. -/
theorem bytesLe_add_byte {m lo : Nat} (h : lo < 256 ^ m) (c : Byte) :
    bytesLe (m + 1) (lo + c.toNat * 256 ^ m) = bytesLe m lo ++ [c] := by
  rw [bytesLe_add, ← bytesLe_mod, Nat.add_mul_mod_self_right, Nat.mod_eq_of_lt h,
    Nat.add_mul_div_right _ _ (Nat.pow_pos (by decide)), Nat.div_eq_of_lt h, Nat.zero_add]
  simp [bytesLe]

/-- The whole bytes of the low `t` bits, then those of what is left with the high bits above it. -/
theorem bytesLe_split (lo hi t m : Nat) :
    bytesLe (t / 8) lo ++ bytesLe m (lo / 256 ^ (t / 8) + hi * 2 ^ (t % 8)) =
      bytesLe (t / 8 + m) (lo + hi * 2 ^ t) := by
  have ht : hi * 2 ^ t = 256 ^ (t / 8) * (hi * 2 ^ (t % 8)) := by
    conv_lhs => rw [← Nat.div_add_mod t 8, Nat.pow_add, Nat.pow_mul]
    exact Nat.mul_left_comm ..
  rw [bytesLe_add, ht, ← bytesLe_mod _ (lo + _), Nat.add_mul_mod_self_left, bytesLe_mod,
    Nat.add_mul_div_left _ _ (Nat.pow_pos (by decide))]

/-! ### Encoder and decoder side by side -/

/-- The queues of the encoder (`q` of `n` bits) and of the decoder (`qd` of `nd` bits) when both
stand at the same place of the text: together they hold a number of whole bytes. -/
structure Queues91 (q n qd nd : Nat) : Prop where
  lt : q < 2 ^ n
  le : n ≤ 13
  ltDec : qd < 2 ^ nd
  leDec : nd < 8
  whole : (nd + n) % 8 = 0

theorem queues91_start : Queues91 0 0 0 0 := ⟨by decide, by decide, by decide, by decide, rfl⟩

theorem whole_add_eight {n nd : Nat} (h : (nd + n) % 8 = 0) : (nd + (n + 8)) % 8 = 0 := by omega

/-- The bytes that the two queues hold: read by the encoder and not yet given by the decoder. -/
def pending91 (q n qd nd : Nat) : Bytes := bytesLe ((nd + n) / 8) (qd + q * 2 ^ nd)

/-- A byte that the encoder reads is pending behind the others. -/
theorem pending91_cons {q n qd nd : Nat} (h : Queues91 q n qd nd) (c : Byte) :
    pending91 (q + c.toNat * 2 ^ n) (n + 8) qd nd = pending91 q n qd nd ++ [c] := by
  have hbits : 2 ^ n * 2 ^ nd = 256 ^ ((nd + n) / 8) := by
    rw [← Nat.pow_add, show 256 = 2 ^ 8 from rfl, ← Nat.pow_mul,
      Nat.mul_div_cancel' (Nat.dvd_of_mod_eq_zero h.whole), Nat.add_comm]
  have hlt : qd + q * 2 ^ nd < 256 ^ ((nd + n) / 8) := by
    rw [← hbits, ← Nat.pow_add, Nat.add_comm n]
    exact add_high_lt h.ltDec h.lt
  rw [pending91, pending91, ← bytesLe_add_byte hlt c, Nat.add_mul, Nat.mul_assoc, hbits,
    Nat.add_assoc, show (nd + (n + 8)) / 8 = (nd + n) / 8 + 1 by omega]

/-- A pair moves its bits from one queue to the other, and the decoder gives the whole bytes it then
has. -/
theorem pending91_pair {q n qd nd k : Nat} (hk : k ≤ n) (hwhole : (nd + n) % 8 = 0) :
    bytesLe ((nd + k) / 8) (qd + q % 2 ^ k * 2 ^ nd) ++
        pending91 (q / 2 ^ k) (n - k) ((qd + q % 2 ^ k * 2 ^ nd) / 256 ^ ((nd + k) / 8))
          ((nd + k) % 8) =
      pending91 q n qd nd := by
  have hq : qd + q % 2 ^ k * 2 ^ nd + q / 2 ^ k * 2 ^ (nd + k) = qd + q * 2 ^ nd := by
    conv_rhs => rw [← Nat.mod_add_div q (2 ^ k), Nat.add_mul, ← Nat.add_assoc]
    rw [Nat.pow_add]
    ring
  rw [pending91, pending91, bytesLe_split, hq,
    show (nd + k) / 8 + ((nd + k) % 8 + (n - k)) / 8 = (nd + n) / 8 by omega]

/-- The queues after a byte read that completes no pair. -/
theorem queues91_cons {q n qd nd : Nat} (h : Queues91 q n qd nd) (hn : ¬ n + 8 > 13) (c : Byte) :
    Queues91 (q + c.toNat * 2 ^ n) (n + 8) qd nd where
  lt := add_high_lt h.lt c.isLt
  le := Nat.le_of_not_gt hn
  ltDec := h.ltDec
  leDec := h.leDec
  whole := whole_add_eight h.whole

/-- The queues after a byte read that completes a pair. -/
theorem queues91_cons_pair {q n qd nd q' k : Nat} (h : Queues91 q n qd nd) {c : Byte}
    (hq : q + c.toNat * 2 ^ n = q') (hk : 13 ≤ k) (hkn : k ≤ n + 8) :
    Queues91 (q' / 2 ^ k) (n + 8 - k) ((qd + q' % 2 ^ k * 2 ^ nd) / 256 ^ ((nd + k) / 8))
      ((nd + k) % 8) := by
  obtain ⟨hlt, hle, hltDec, -, hwhole⟩ := h
  constructor
  case lt =>
    refine Nat.div_lt_of_lt_mul ?_
    rw [← Nat.pow_add, Nat.add_sub_cancel' hkn, ← hq]
    exact add_high_lt hlt c.isLt
  case ltDec =>
    refine Nat.div_lt_of_lt_mul ?_
    rw [show 256 = 2 ^ 8 from rfl, ← Nat.pow_mul, ← Nat.pow_add, Nat.div_add_mod]
    exact add_high_lt hltDec (Nat.mod_lt _ (Nat.two_pow_pos k))
  case leDec => exact Nat.mod_lt _ (by decide)
  all_goals omega

/-- The last pair completes the pending bytes and no more. -/
theorem pairBits91_flush {q n : Nat} (hq : q < 2 ^ n) (hn : n ≤ 13) (h : n > 7 ∨ q > 90) :
    n ≤ pairBits91 q ∧ pairBits91 q < n + 8 := by
  by_cases hn7 : n > 7
  · rcases pairBits91_cases q with hb | hb <;> omega
  · have hq90 := h.resolve_left hn7
    have hn7' : 7 ≤ n := by
      by_contra hlt
      have hpow : 2 ^ n ≤ 2 ^ 6 := Nat.pow_le_pow_right (by decide) (by omega)
      omega
    obtain rfl : n = 7 := by omega
    have hb : pairBits91 q = 13 := if_pos (by omega)
    omega

/-- The end of the text gives the pending bytes. -/
theorem base91DecGo_flush {q n qd nd : Nat} (h : Queues91 q n qd nd) :
    base91DecGo (base91EncGo [] q n) qd nd none = pending91 q n qd nd := by
  obtain ⟨hq, hn, -, hnd, hwhole⟩ := h
  by_cases h0 : n = 0
  · have hbytes : (nd + n) / 8 = 0 := by omega
    rw [pending91, hbytes, h0]
    rfl
  by_cases htwo : n > 7 ∨ q > 90
  · have hpow : 2 ^ n ≤ 2 ^ 13 := Nat.pow_le_pow_right (by decide) hn
    obtain ⟨hle, hlt⟩ := pairBits91_flush hq hn htwo
    have hbytes : (nd + pairBits91 q) / 8 = (nd + n) / 8 := by omega
    rw [base91EncGo, if_pos (Nat.pos_of_ne_zero h0), if_pos htwo, base91DecGo_pair (by omega),
      hbytes]
    exact List.append_nil _
  · have hbytes : (nd + n) / 8 = 1 := by omega
    have hq91 : q % 91 = q := Nat.mod_eq_of_lt (by omega)
    rw [base91EncGo, if_pos (Nat.pos_of_ne_zero h0), if_neg htwo, hq91, base91DecGo, base91DecGo,
      valOf_symOf_a91 (by omega), pending91, hbytes]
    rfl

/-- The decoder gives the pending bytes and those that the encoder has still to read. -/
theorem base91DecGo_base91EncGo (D : Bytes) : ∀ {q n qd nd : Nat}, Queues91 q n qd nd →
    base91DecGo (base91EncGo D q n) qd nd none = pending91 q n qd nd ++ D := by
  induction D with
  | nil =>
    intro q n qd nd h
    rw [base91DecGo_flush h, List.append_nil]
  | cons c D ih =>
    intro q n qd nd h
    rw [List.append_cons, ← pending91_cons h c]
    by_cases hn : n + 8 > 13
    · generalize hq : q + c.toNat * 2 ^ n = q'
      obtain ⟨hv, hbits, hmod⟩ := pairValue91_spec q'
      obtain ⟨hk, hkn⟩ := pairBits91_bounds q' hn
      rw [base91EncGo_cons_pair c D hn hq, base91DecGo_pair hv, hbits, hmod,
        ih (queues91_cons_pair h hq hk hkn), ← List.append_assoc,
        pending91_pair hkn (whole_add_eight h.whole)]
    · rw [base91EncGo_cons_queue c D hn, ih (queues91_cons h hn c)]

/-- The symbols of an encoded text. -/
theorem mem_base91EncGo (D : Bytes) : ∀ {q n qd nd : Nat}, Queues91 q n qd nd →
    ∀ x ∈ base91EncGo D q n, x ∈ a91 := by
  induction D with
  | nil =>
    rintro q n qd nd ⟨hq, hn, -, -, -⟩ x hx
    have hpow : 2 ^ n ≤ 2 ^ 13 := Nat.pow_le_pow_right (by decide) hn
    have hhi : symOf a91 (q / 91) ∈ a91 :=
      symOf_mem (Nat.div_lt_of_lt_mul (by rw [length_a91]; omega))
    have hlo : symOf a91 (q % 91) ∈ a91 := symOf_mem (Nat.mod_lt q (by decide))
    rw [base91EncGo] at hx
    split at hx
    · rcases List.mem_cons.1 hx with rfl | hx
      · exact hlo
      · split at hx
        · rwa [List.mem_singleton.1 hx]
        · cases hx
    · cases hx
  | cons c D ih =>
    intro q n qd nd h x hx
    by_cases hn : n + 8 > 13
    · generalize hq : q + c.toNat * 2 ^ n = q' at hx
      obtain ⟨hv, -, -⟩ := pairValue91_spec q'
      obtain ⟨hk, hkn⟩ := pairBits91_bounds q' hn
      rw [base91EncGo_cons_pair c D hn hq] at hx
      rcases List.mem_cons.1 hx with rfl | hx
      · exact symOf_mem (Nat.mod_lt _ (by decide))
      rcases List.mem_cons.1 hx with rfl | hx
      · exact symOf_mem (Nat.div_lt_of_lt_mul hv)
      · exact ih (queues91_cons_pair h hq hk hkn) x hx
    · rw [base91EncGo_cons_queue c D hn] at hx
      exact ih (queues91_cons h hn c) x hx

/-- The default base-91 round trip (R224 `P_rt91`). -/
theorem base91Dec_base91Enc (D : Bytes) : base91Dec (base91Enc D) = .ok D := by
  have hgood : ¬ (base91Enc D).any (fun c => !a91.contains c) :=
    not_any_foreign (mem_base91EncGo D queues91_start)
  rw [base91Dec, if_neg hgood, base91Enc, base91DecGo_base91EncGo D queues91_start]
  rfl

end Sys2Proof

namespace Sys2Proof

open Sys2Proof.Claims

/-! ## Decoding what was encoded, with the default alphabets (40_basex_front_end.md R121, R122) -/

theorem a16_valid : ValidFor geo16 a16 := ⟨rfl, by decide +kernel⟩

theorem a32_valid : ValidFor geo32 a32 := ⟨rfl, by decide +kernel⟩

theorem a64_valid : ValidFor geo64 a64 := ⟨rfl, by decide +kernel⟩

/-- No built-in table holds a byte of `WS` (92_eei_decisions.md D10). -/
theorem Config.wsWf_iff {c : Config} : c.wsWf = true ↔ padChar ∉ c.ws ∧ (∀ x ∈ a16, x ∉ c.ws) ∧
    (∀ x ∈ a32, x ∉ c.ws) ∧ (∀ x ∈ a64, x ∉ c.ws) ∧ ∀ x ∈ a85, x ∉ c.ws := by
  simp only [Config.wsWf, List.all_eq_true, List.forall_mem_cons, List.forall_mem_append,
    Bool.not_eq_true', List.contains_eq_mem, decide_eq_false_iff_not, and_assoc]

/-- What makes a default alphabet admissible (92_eei_decisions.md D11). -/
theorem alphabetWf_iff {ws A : Bytes} {n : Nat} : alphabetWf ws n A = true ↔
    A.length = n ∧ A.Nodup ∧ ∀ x ∈ A, x.toNat < 0x80 ∧ x ∉ ws := by
  simp [alphabetWf, and_assoc]

/-- What the round trips need of an admissible configuration (00_scope.md R13). -/
theorem Config.tables_of_wf {c : Config} (h : c.wf = true) :
    c.wsWf = true ∧ alphabetWf c.ws 58 c.a58 = true ∧ alphabetWf c.ws 62 c.a62 = true := by
  simp only [Config.wf, Bool.and_eq_true] at h
  obtain ⟨⟨⟨⟨-, hws⟩, h58⟩, h62⟩, -⟩ := h
  exact ⟨hws, h58, h62⟩

/-- The fixed-width round trip through the whitespace stripper. -/
theorem fwDecode_stripWs_fwEncode {g : Geometry} (hg : g ∈ geometries) {ws A : Bytes}
    (hA : ValidFor g A) (hp : padChar ∉ ws) (hws : ∀ x ∈ A, x ∉ ws) {pad fold : Bool}
    (hpad : pad = true → padChar ∉ A) (hfold : fold = true → A = a16) (D : Bytes) :
    fwDecode g A pad fold (stripWs ws (fwEncode g A pad D)) = .ok D := by
  have hstrip : stripWs ws (fwEncode g A pad D) = fwEncode g A pad D := by
    refine stripWs_eq_self fun x hx => ?_
    rcases mem_fwEncode hA.1 hx with h | ⟨-, rfl⟩
    · exact hws x h
    · exact hp
  rw [hstrip, fwDecode_fwEncode hg hA hpad hfold]

/-- The big-integer round trip through the whitespace stripper. -/
theorem biDecode_stripWs_biEncode {ws A : Bytes} {n : Nat} (hn : 2 ≤ n)
    (hA : alphabetWf ws n A = true) (D : Bytes) :
    biDecode A (stripWs ws (biEncode A D)) = .ok D := by
  obtain ⟨rfl, hnodup, hbytes⟩ := alphabetWf_iff.1 hA
  rw [stripWs_eq_self fun x hx => (hbytes x (mem_biEncode hn hx)).2, biDecode_biEncode hn hnodup]

/-- `P_rt85` of R224, for every pair. -/
theorem Config.rt85_of_wsWf {c : Config} (h : c.wsWf = true) : c.Rt85 := by
  obtain ⟨hp, -, -, -, h85⟩ := Config.wsWf_iff.1 h
  cases hv : c.b85 with
  | other n => exact Config.rt85_of_other hv hp
  | standard =>
    intro D
    have hstrip : stripWs c.ws (ascii85Enc D) = ascii85Enc D :=
      stripWs_eq_self fun x hx => h85 x (mem_ascii85Enc hx)
    simp only [Config.b85Enc, Config.b85Dec, hv, hstrip, ascii85Dec_ascii85Enc]

/-- `P_rt91` of R224, for every pair. -/
theorem Config.rt91 (c : Config) : c.Rt91 := by
  cases hv : c.b91 with
  | other n => exact Config.rt91_of_other hv
  | standard =>
    intro D
    simp only [Config.b91Enc, Config.b91Dec, hv, base91Dec_base91Enc]

/-- In every base, decoding undoes encoding. -/
theorem Config.unitDecode_unitEncode {c : Config} (hc : c.wf = true) (b : Base) (D : Bytes) :
    c.unitDecode b false (c.defaultAlphabet b)
      (c.textOf b (c.unitEncode b false (c.defaultAlphabet b) D)) = .ok D := by
  obtain ⟨hws, h58, h62⟩ := Config.tables_of_wf hc
  obtain ⟨hp, h16, h32, h64, -⟩ := Config.wsWf_iff.1 hws
  cases b
  case b16 =>
    exact fwDecode_stripWs_fwEncode (pad := false) (fold := true) (by decide) a16_valid hp h16
      nofun (fun _ => rfl) D
  case b32 =>
    exact fwDecode_stripWs_fwEncode (pad := true) (fold := false) (by decide) a32_valid hp h32
      (fun _ => by decide +kernel) nofun D
  case b64 =>
    exact fwDecode_stripWs_fwEncode (pad := true) (fold := false) (by decide) a64_valid hp h64
      (fun _ => by decide +kernel) nofun D
  case b58 => exact biDecode_stripWs_biEncode (by decide) h58 D
  case b62 => exact biDecode_stripWs_biEncode (by decide) h62 D
  case b85 => exact Config.rt85_of_wsWf hws D
  case b91 => exact Config.rt91 c D

end Sys2Proof

namespace Sys2Proof.Laws

open Sys2Proof.Machine Sys2Proof.Claims

/-- A command that ends in DONE holds the result of its pipeline as its payload. -/
theorem resultOf_of_exec_done {i : Instr} {s t : State} (hc : s.cfg.wf = true)
    (ht : exec i s = .next t) (hd : t.phase = .done) : resultOf i s = .ok t.payload := by
  cases (exec_eq_finish i s).symm.trans ht
  cases hr : resultOf i s with
  | error f =>
    rw [hr] at hd
    cases hd
  | ok B =>
    obtain ⟨-, -, -, hmax⟩ := capacities_of_wf hc
    have hlen := resultOf_length hr
    have hword : (BitVec.ofNat 32 B.length).toNat = B.length := Nat.mod_eq_of_lt (by omega)
    simp only [finish_payload, hword, List.take_length]

/-- A radix encode without a custom alphabet gives what its unit gives. -/
theorem payload_of_bxe_done {b : Base} {s t : State} (hc : s.cfg.wf = true)
    (ht : exec (Instr.ofBx .enc b false) s = .next t) (hd : t.phase = .done) :
    t.payload = s.cfg.unitEncode b false (s.cfg.defaultAlphabet b) (input s) := by
  have hr := resultOf_of_exec_done hc ht hd
  rw [resultOf_ofBx] at hr
  obtain ⟨A, D, hA, hD, hB, -⟩ := bxExec_ok.1 hr
  cases (alphabet_of_alphabetIs (.inl ⟨rfl, rfl⟩)).symm.trans hA
  rw [(State.inputOperand_ok.1 hD).2] at hB
  exact (Except.ok.inj hB).symm

/-- Settles O58: the payload of the encode is the unit's text, which the unit decodes to the
input. -/
theorem radixRoundTrip : Obligations.RadixRoundTrip := by
  unfold Obligations.RadixRoundTrip
  intro b s t s' hc hutf ht hd hcfg _ hin hfits hout
  rw [payload_of_bxe_done hc ht hd] at hin
  refine bxd_completes b (.inl ⟨rfl, rfl⟩) hfits ?_ hutf (hcfg ▸ hout)
  rw [hin, hcfg]
  exact Config.unitDecode_unitEncode hc b (input s)

end Sys2Proof.Laws

/-! The checks of the radix front end (spec/40_basex_front_end.md R124 to R132): the faults of the Alphabet
Validator, and the UTF-8 check against the table of R132. -/

namespace Sys2Proof.Laws

open Sys2Proof.Machine Sys2Proof.Claims

/-! ## The Alphabet Validator -/

theorem alphabet_of_static (s : State) {b : Base} (h : b.isStatic = true) :
    s.alphabet b true = .error (.customAlphabetUnsupported b) := by
  simp [State.alphabet, h]

theorem alphabet_of_fixed_length {s : State} {b : Base} (hb : b = .b16 ∨ b = .b32 ∨ b = .b64)
    (hlen : s.alphaLen.toNat ≠ b.radix) :
    s.alphabet b true = .error (.alphabetLengthMismatch b b.radix s.alphaLen.toNat) := by
  rcases hb with rfl | rfl | rfl <;>
    simp [State.alphabet, Base.isStatic, Base.isFixed, hlen]

theorem alphabet_of_bigInt_length {s : State} {b : Base} (hb : b = .b58 ∨ b = .b62)
    (hlen : s.alphaLen.toNat < 2) :
    s.alphabet b true = .error (.alphabetLengthMismatch b 2 s.alphaLen.toNat) := by
  rcases hb with rfl | rfl <;>
    simp [State.alphabet, Base.isStatic, Base.isFixed, Base.isBigInt, hlen]

/-- A command whose alphabet is refused ends in that fault. -/
theorem faults_of_alphabet_error {d : Dir} {b : Base} {ap : Bool} {s : State} {f : CmdFault}
    (h : s.alphabet b ap = .error f) :
    Faults (Instr.ofBx d b ap) s f.code f.info0 f.info1 f.info2 :=
  faults_of_result (resultOf_of_alphabet_error h)

theorem faults_of_alphabet_length {d : Dir} {b : Base} {s : State} {n : Nat}
    (h : s.alphabet b true = .error (.alphabetLengthMismatch b n s.alphaLen.toNat)) :
    Faults (Instr.ofBx d b true) s 2 (word b.radix) (word n) s.alphaLen := by
  have hlen : word s.alphaLen.toNat = s.alphaLen := by simp [word]
  have hf : Faults (Instr.ofBx d b true) s 2 (word b.radix) (word n) (word s.alphaLen.toNat) :=
    faults_of_alphabet_error h
  rwa [hlen] at hf

/-- Settles O17: the validator reports the support of the base first, then the length (R121, R124,
R125). -/
theorem alphabetSupportAndLengthFaults : Obligations.AlphabetSupportAndLengthFaults := by
  unfold Obligations.AlphabetSupportAndLengthFaults
  refine ⟨fun s => ?_, fun d b s hb hlen => ?_, fun d b s hb hlen => ?_⟩
  · have h85 := alphabet_of_static s (b := .b85) rfl
    have h91 := alphabet_of_static s (b := .b91) rfl
    exact ⟨faults_of_alphabet_error (d := .enc) h85, faults_of_alphabet_error (d := .enc) h91,
      faults_of_alphabet_error (d := .dec) h85, faults_of_alphabet_error (d := .dec) h91⟩
  · exact faults_of_alphabet_length (alphabet_of_fixed_length hb hlen)
  · exact faults_of_alphabet_length (alphabet_of_bigInt_length hb hlen)

theorem alphabetContent_of_not_ascii {A : Bytes} (h : ¬ Ascii A) :
    alphabetContent A = .error (.malformedInput .alphabetNonAscii .alpha) := by
  have hany : A.any (fun c => decide (c.toNat ≥ 0x80)) = true := by
    simpa [Ascii, List.any_eq_true] using h
  rw [alphabetContent, if_pos hany]

theorem alphabetContent_of_duplicate {A : Bytes} (h : Ascii A) (hdup : ¬ A.Nodup) :
    alphabetContent A = .error (.malformedInput .alphabetDuplicate .alpha) := by
  have hany : ¬ A.any (fun c => decide (c.toNat ≥ 0x80)) = true := by
    simpa [Ascii, List.any_eq_true] using h
  rw [alphabetContent, if_neg hany, if_pos hdup]

/-- There are 128 ASCII bytes. -/
theorem length_le_of_ascii_nodup {A : Bytes} (h : Ascii A) (hA : A.Nodup) : A.length ≤ 128 := by
  have hsub : A.map BitVec.toNat ⊆ List.range 128 := fun n hn => by
    obtain ⟨c, hc, rfl⟩ := List.mem_map.1 hn
    exact List.mem_range.2 (h c hc)
  have hnodup : (A.map BitVec.toNat).Nodup := hA.map fun _ _ => BitVec.eq_of_toNat_eq
  simpa using (List.subperm_of_subset hnodup hsub).length_le

/-- Settles O18: an alphabet of an admitted length goes to the content checks, and one of more than 128
symbols cannot pass both. -/
theorem alphabetContentFaults : Obligations.AlphabetContentFaults := by
  unfold Obligations.AlphabetContentFaults
  intro d b s hlen
  have hA := alphabet_of_lenOk hlen
  have nonAscii (h : ¬ Ascii (customAlphabet s)) : Faults (Instr.ofBx d b true) s 4 6 1 0 :=
    faults_of_alphabet_error (hA.trans (alphabetContent_of_not_ascii h))
  have duplicate (h : Ascii (customAlphabet s)) (hdup : ¬ (customAlphabet s).Nodup) :
      Faults (Instr.ofBx d b true) s 4 5 1 0 :=
    faults_of_alphabet_error (hA.trans (alphabetContent_of_duplicate h hdup))
  refine ⟨nonAscii, duplicate, fun hlong => ?_⟩
  by_cases hascii : Ascii (customAlphabet s)
  · refine .inr (duplicate hascii fun hnodup => ?_)
    have hle := length_le_of_ascii_nodup hascii hnodup
    rw [customAlphabet, State.length_fetch] at hle
    exact absurd hlong (Nat.not_lt_of_le hle)
  · exact .inl (nonAscii hascii)

/-! ## The UTF-8 check -/

/-- A byte lies in an inclusive range. -/
def InRange (r : Nat × Nat) (b : Byte) : Prop := r.1 ≤ b.toNat ∧ b.toNat ≤ r.2

theorem afterShape_eq_some_iff {sh : List (Nat × Nat)} {B rest : Bytes} :
    afterShape sh B = some rest ↔ ∃ p, List.Forall₂ InRange sh p ∧ B = p ++ rest := by
  induction sh generalizing B with
  | nil => simp [afterShape]
  | cons r sh ih =>
    obtain ⟨lo, hi⟩ := r
    cases B with
    | nil => simp [afterShape, List.forall₂_cons_left_iff]
    | cons b B =>
      simp only [afterShape, Option.ite_none_right_eq_some, ih, List.forall₂_cons_left_iff]
      constructor
      · rintro ⟨hb, p, hp, rfl⟩
        exact ⟨b :: p, ⟨b, p, hb, hp, rfl⟩, rfl⟩
      · rintro ⟨_, ⟨c, p, hc, hp, rfl⟩, hB⟩
        obtain ⟨rfl, rfl⟩ := List.cons.inj hB
        exact ⟨hc, p, hp, rfl⟩

theorem eq_of_inRange {b c : Byte} (h : InRange (c.toNat, c.toNat) b) : b = c :=
  BitVec.eq_of_toNat_eq (Nat.le_antisymm h.2 h.1)

/-- The nine rows of R132 are the nine shapes. -/
theorem utf8Seq_iff {p : Bytes} :
    Utf8Seq p ↔ ∃ sh ∈ utf8Shapes, List.Forall₂ InRange sh p := by
  constructor
  · intro h
    cases h with
    | ascii a ha => exact ⟨[(0x00, 0x7F)], by decide, .cons ⟨Nat.zero_le _, ha⟩ .nil⟩
    | two a b ha ha' hb hb' =>
      exact ⟨[(0xC2, 0xDF), (0x80, 0xBF)], by decide, .cons ⟨ha, ha'⟩ (.cons ⟨hb, hb'⟩ .nil)⟩
    | e0 b c hb hb' hc hc' =>
      exact ⟨[(0xE0, 0xE0), (0xA0, 0xBF), (0x80, 0xBF)], by decide,
        .cons ⟨le_rfl, le_rfl⟩ (.cons ⟨hb, hb'⟩ (.cons ⟨hc, hc'⟩ .nil))⟩
    | e1 a b c ha ha' hb hb' hc hc' =>
      exact ⟨[(0xE1, 0xEC), (0x80, 0xBF), (0x80, 0xBF)], by decide,
        .cons ⟨ha, ha'⟩ (.cons ⟨hb, hb'⟩ (.cons ⟨hc, hc'⟩ .nil))⟩
    | ed b c hb hb' hc hc' =>
      exact ⟨[(0xED, 0xED), (0x80, 0x9F), (0x80, 0xBF)], by decide,
        .cons ⟨le_rfl, le_rfl⟩ (.cons ⟨hb, hb'⟩ (.cons ⟨hc, hc'⟩ .nil))⟩
    | ee a b c ha ha' hb hb' hc hc' =>
      exact ⟨[(0xEE, 0xEF), (0x80, 0xBF), (0x80, 0xBF)], by decide,
        .cons ⟨ha, ha'⟩ (.cons ⟨hb, hb'⟩ (.cons ⟨hc, hc'⟩ .nil))⟩
    | f0 b c d hb hb' hc hc' hd hd' =>
      exact ⟨[(0xF0, 0xF0), (0x90, 0xBF), (0x80, 0xBF), (0x80, 0xBF)], by decide,
        .cons ⟨le_rfl, le_rfl⟩ (.cons ⟨hb, hb'⟩ (.cons ⟨hc, hc'⟩ (.cons ⟨hd, hd'⟩ .nil)))⟩
    | f1 a b c d ha ha' hb hb' hc hc' hd hd' =>
      exact ⟨[(0xF1, 0xF3), (0x80, 0xBF), (0x80, 0xBF), (0x80, 0xBF)], by decide,
        .cons ⟨ha, ha'⟩ (.cons ⟨hb, hb'⟩ (.cons ⟨hc, hc'⟩ (.cons ⟨hd, hd'⟩ .nil)))⟩
    | f4 b c d hb hb' hc hc' hd hd' =>
      exact ⟨[(0xF4, 0xF4), (0x80, 0x8F), (0x80, 0xBF), (0x80, 0xBF)], by decide,
        .cons ⟨le_rfl, le_rfl⟩ (.cons ⟨hb, hb'⟩ (.cons ⟨hc, hc'⟩ (.cons ⟨hd, hd'⟩ .nil)))⟩
  · rintro ⟨sh, hsh, h⟩
    simp only [utf8Shapes, List.mem_cons, List.not_mem_nil, or_false] at hsh
    rcases hsh with rfl | rfl | rfl | rfl | rfl | rfl | rfl | rfl | rfl
    · obtain _ | ⟨ha, _ | _⟩ := h
      exact .ascii _ ha.2
    · obtain _ | ⟨ha, _ | ⟨hb, _ | _⟩⟩ := h
      exact .two _ _ ha.1 ha.2 hb.1 hb.2
    · obtain _ | ⟨ha, _ | ⟨hb, _ | ⟨hc, _ | _⟩⟩⟩ := h
      cases eq_of_inRange (c := 0xE0) ha
      exact .e0 _ _ hb.1 hb.2 hc.1 hc.2
    · obtain _ | ⟨ha, _ | ⟨hb, _ | ⟨hc, _ | _⟩⟩⟩ := h
      exact .e1 _ _ _ ha.1 ha.2 hb.1 hb.2 hc.1 hc.2
    · obtain _ | ⟨ha, _ | ⟨hb, _ | ⟨hc, _ | _⟩⟩⟩ := h
      cases eq_of_inRange (c := 0xED) ha
      exact .ed _ _ hb.1 hb.2 hc.1 hc.2
    · obtain _ | ⟨ha, _ | ⟨hb, _ | ⟨hc, _ | _⟩⟩⟩ := h
      exact .ee _ _ _ ha.1 ha.2 hb.1 hb.2 hc.1 hc.2
    · obtain _ | ⟨ha, _ | ⟨hb, _ | ⟨hc, _ | ⟨hd, _ | _⟩⟩⟩⟩ := h
      cases eq_of_inRange (c := 0xF0) ha
      exact .f0 _ _ _ hb.1 hb.2 hc.1 hc.2 hd.1 hd.2
    · obtain _ | ⟨ha, _ | ⟨hb, _ | ⟨hc, _ | ⟨hd, _ | _⟩⟩⟩⟩ := h
      exact .f1 _ _ _ _ ha.1 ha.2 hb.1 hb.2 hc.1 hc.2 hd.1 hd.2
    · obtain _ | ⟨ha, _ | ⟨hb, _ | ⟨hc, _ | ⟨hd, _ | _⟩⟩⟩⟩ := h
      cases eq_of_inRange (c := 0xF4) ha
      exact .f4 _ _ _ hb.1 hb.2 hc.1 hc.2 hd.1 hd.2

theorem utf8Seq_ne_nil {p : Bytes} (h : Utf8Seq p) : p ≠ [] := by
  cases h <;> exact List.cons_ne_nil _ _

/-- The first bytes of two shapes lie in disjoint ranges. -/
theorem utf8Shapes_disjoint : ∀ sh ∈ utf8Shapes, ∀ sh' ∈ utf8Shapes, sh = sh' ∨
    ∃ r ∈ sh.head?, ∃ r' ∈ sh'.head?, r.2 < r'.1 ∨ r'.2 < r.1 := by decide

/-- The first byte of what begins with a shape. -/
theorem inRange_of_afterShape {r : Nat × Nat} {sh : List (Nat × Nat)} {B rest : Bytes}
    (hr : r ∈ sh.head?) (h : afterShape sh B = some rest) : ∃ b ∈ B.head?, InRange r b := by
  obtain ⟨p, hp, rfl⟩ := afterShape_eq_some_iff.1 h
  cases hp with
  | nil => cases hr
  | cons hb _ =>
    cases hr
    exact ⟨_, rfl, hb⟩

/-- A byte sequence begins with one shape at most. -/
theorem shape_unique {sh sh' : List (Nat × Nat)} (hsh : sh ∈ utf8Shapes) (hsh' : sh' ∈ utf8Shapes)
    {B rest rest' : Bytes} (h : afterShape sh B = some rest) (h' : afterShape sh' B = some rest') :
    sh = sh' := by
  refine (utf8Shapes_disjoint sh hsh sh' hsh').resolve_right ?_
  rintro ⟨r, hr, r', hr', hlt⟩
  obtain ⟨b, hb, hlo, hhi⟩ := inRange_of_afterShape hr h
  obtain ⟨b', hb', hlo', hhi'⟩ := inRange_of_afterShape hr' h'
  cases Option.mem_unique hb hb'
  omega

/-- The first shape that fits is the only one, and it takes off one well-formed sequence. -/
theorem findSome?_afterShape_iff {B rest : Bytes} :
    utf8Shapes.findSome? (fun sh => afterShape sh B) = some rest ↔
      ∃ p, Utf8Seq p ∧ B = p ++ rest := by
  constructor
  · intro h
    obtain ⟨sh, hsh, hrest⟩ := List.exists_of_findSome?_eq_some h
    obtain ⟨p, hp, hB⟩ := afterShape_eq_some_iff.1 hrest
    exact ⟨p, utf8Seq_iff.2 ⟨sh, hsh, hp⟩, hB⟩
  · rintro ⟨p, hp, hB⟩
    obtain ⟨sh, hsh, hshp⟩ := utf8Seq_iff.1 hp
    have hrest : afterShape sh B = some rest := afterShape_eq_some_iff.2 ⟨p, hshp, hB⟩
    cases hfind : utf8Shapes.findSome? (fun sh => afterShape sh B) with
    | none =>
      rw [List.findSome?_eq_none_iff.1 hfind sh hsh] at hrest
      cases hrest
    | some rest' =>
      obtain ⟨sh', hsh', hrest'⟩ := List.exists_of_findSome?_eq_some hfind
      cases shape_unique hsh hsh' hrest hrest'
      exact hrest'.symm.trans hrest

/-- A concatenation of well-formed sequences (R132). -/
def Utf8Text (B : Bytes) : Prop := ∃ parts : List Bytes, B = parts.flatten ∧ ∀ p ∈ parts, Utf8Seq p

theorem utf8Text_nil : Utf8Text [] := ⟨[], rfl, by simp⟩

/-- A text that is not empty is a sequence and a text. -/
theorem utf8Text_iff_of_ne_nil {B : Bytes} (hB : B ≠ []) :
    Utf8Text B ↔ ∃ p rest, Utf8Seq p ∧ B = p ++ rest ∧ Utf8Text rest := by
  constructor
  · rintro ⟨parts, rfl, hparts⟩
    cases parts with
    | nil => exact absurd rfl hB
    | cons p parts =>
      obtain ⟨hp, hparts⟩ := List.forall_mem_cons.1 hparts
      exact ⟨p, parts.flatten, hp, rfl, parts, rfl, hparts⟩
  · rintro ⟨p, _, hp, rfl, parts, rfl, hparts⟩
    exact ⟨p :: parts, rfl, List.forall_mem_cons.2 ⟨hp, hparts⟩⟩

/-- With enough fuel the check decides what a text is. -/
theorem utf8Go_iff {fuel : Nat} : ∀ {B : Bytes}, B.length ≤ fuel →
    (utf8Go fuel B = true ↔ Utf8Text B) := by
  induction fuel with
  | zero =>
    intro B hB
    cases List.length_eq_zero_iff.1 (Nat.le_zero.1 hB)
    exact iff_of_true rfl utf8Text_nil
  | succ fuel ih =>
    intro B hB
    cases B with
    | nil => exact iff_of_true rfl utf8Text_nil
    | cons b B =>
      rw [utf8Text_iff_of_ne_nil (List.cons_ne_nil b B), utf8Go]
      cases hfind : utf8Shapes.findSome? (fun sh => afterShape sh (b :: B)) with
      | none =>
        refine iff_of_false (by simp) ?_
        rintro ⟨p, rest, hp, hBp, -⟩
        cases hfind.symm.trans (findSome?_afterShape_iff.2 ⟨p, hp, hBp⟩)
      | some rest =>
        obtain ⟨p, hp, hBp⟩ := findSome?_afterShape_iff.1 hfind
        have hpos := List.length_pos_of_ne_nil (utf8Seq_ne_nil hp)
        have hlen : rest.length ≤ fuel := by
          rw [hBp, List.length_append] at hB
          omega
        refine (ih hlen).trans ⟨fun h => ⟨p, rest, hp, hBp, h⟩, ?_⟩
        rintro ⟨q, rest', hq, hBq, h⟩
        cases hfind.symm.trans (findSome?_afterShape_iff.2 ⟨q, hq, hBq⟩)
        exact h

/-- Settles O51: at every place of a text one shape fits at most, so taking sequences off from the left
finds every concatenation. -/
theorem utf8Wellformed : Obligations.Utf8Wellformed := by
  unfold Obligations.Utf8Wellformed
  intro B
  exact utf8Go_iff le_rfl

end Sys2Proof.Laws

/-! The fixed-width codec (spec/41_fixed_width_codec.md R150 to R165): what the six commands deliver,
the bits and the lengths of an encoded text, and the one text that decodes to a byte sequence. -/

namespace Sys2Proof.Laws

open Sys2Proof.Machine Sys2Proof.Claims

/-! ## The commands -/

/-- The encode commands of a base whose unit packs complete with the packed text. -/
theorem fixedEncodes_of_unitEncode {b : Base} {g : Geometry}
    (hunit : ∀ (c : Config) (ap : Bool) (A D : Bytes),
      c.unitEncode b ap A D = fwEncode g A (!ap && b != .b16) D) :
    FixedEncodes (Instr.ofBx .enc b) b g := by
  intro ap s A hfits hA hout
  exact bxe_completes b hA hfits (hunit s.cfg ap A (input s)) hout

/-- The decode commands of a base that strips whitespace and whose unit unpacks complete with the
unpacked bytes. -/
theorem fixedDecodes_of_unitDecode {b : Base} {g : Geometry}
    (htext : ∀ (c : Config) (D : Bytes), c.textOf b D = stripWs c.ws D)
    (hunit : ∀ (c : Config) (ap : Bool) (A T : Bytes),
      c.unitDecode b ap A T = fwDecode g A (!ap && b != .b16) (!ap && b == .b16) T) :
    FixedDecodes (Instr.ofBx .dec b) b g := by
  intro ap s A B hfits hA hdec hutf hout
  exact bxd_completes b hA hfits (by rw [htext, hunit, hdec]) hutf hout

/-- Settles O10: padding belongs to the default alphabets of base 32 and 64 alone, as in the unit
(R151). -/
theorem fixedWidthEncodeResult : Obligations.FixedWidthEncodeResult := by
  unfold Obligations.FixedWidthEncodeResult
  refine ⟨?base16, ?base32, ?base64⟩
  case base16 => exact fixedEncodes_of_unitEncode (b := .b16) fun _ ap _ _ => by cases ap <;> rfl
  case base32 => exact fixedEncodes_of_unitEncode (b := .b32) fun _ ap _ _ => by cases ap <;> rfl
  case base64 => exact fixedEncodes_of_unitEncode (b := .b64) fun _ ap _ _ => by cases ap <;> rfl

/-- Settles O11: the unit decodes the stripped text, folded for the default alphabet of base 16 alone
(R151, R155). -/
theorem fixedWidthDecodeResult : Obligations.FixedWidthDecodeResult := by
  unfold Obligations.FixedWidthDecodeResult
  refine ⟨?base16, ?base32, ?base64⟩
  case base16 =>
    exact fixedDecodes_of_unitDecode (b := .b16) (fun _ _ => rfl)
      fun _ ap _ _ => by cases ap <;> rfl
  case base32 =>
    exact fixedDecodes_of_unitDecode (b := .b32) (fun _ _ => rfl)
      fun _ ap _ _ => by cases ap <;> rfl
  case base64 =>
    exact fixedDecodes_of_unitDecode (b := .b64) (fun _ _ => rfl)
      fun _ ap _ _ => by cases ap <;> rfl

end Sys2Proof.Laws

namespace Sys2Proof

open Sys2Proof.Claims

/-! ## The bits of an encoded text -/

/-- Bit `r` of byte `q` of a little-endian number. -/
theorem testBit_leNat {B : Bytes} {q r : Nat} (hq : q < B.length) (hr : r < 8) :
    (leNat B).testBit (8 * q + r) = B[q].getLsbD r := by
  calc (leNat B).testBit (8 * q + r)
      = (leNat B / 2 ^ (8 * q) % 2 ^ 8).testBit r := by
        rw [Nat.testBit_mod_two_pow, Nat.testBit_div_two_pow, decide_eq_true hr, Bool.true_and,
          Nat.add_comm]
    _ = B[q].getLsbD r := by
        rw [show 2 ^ 8 = 256 from rfl, Laws.leNat_byte B q hq, BitVec.testBit_toNat]

/-- The bits of a big-endian number are those of its bytes, most significant first. -/
theorem testBit_beNat {D : Bytes} {k : Nat} (hk : k < 8 * D.length) :
    (beNat D).testBit (8 * D.length - 1 - k) = msbBit D k := by
  have hbyte : k / 8 < D.length := by omega
  have hbit : 8 * D.length - 1 - k = 8 * (D.length - 1 - k / 8) + (7 - k % 8) := by omega
  rw [beNat_eq_leNat_reverse, hbit, testBit_leNat (by rw [List.length_reverse]; omega) (by omega),
    List.getElem_reverse, msbBit, List.getD_eq_getElem _ _ hbyte]
  congr 2
  omega

theorem msbBit_of_length_le {D : Bytes} {k : Nat} (hk : 8 * D.length ≤ k) : msbBit D k = false := by
  rw [msbBit, List.getD_eq_default _ _ (by omega)]
  exact BitVec.getLsbD_zero

/-- `e` zero bits below the bytes are bits past their end. -/
theorem testBit_beNat_mul_two_pow (D : Bytes) {e k : Nat} (hk : k < 8 * D.length + e) :
    (beNat D * 2 ^ e).testBit (8 * D.length + e - 1 - k) = msbBit D k := by
  rw [Nat.testBit_mul_two_pow]
  by_cases hin : k < 8 * D.length
  · have hshift : 8 * D.length + e - 1 - k - e = 8 * D.length - 1 - k := by omega
    rw [decide_eq_true (by omega), Bool.true_and, hshift, testBit_beNat hin]
  · rw [decide_eq_false (by omega), Bool.false_and, msbBit_of_length_le (by omega)]

/-- Digit `i` holds the bits of group `i`, most significant first (R152). -/
theorem testBit_getD_fwDigits {g : Geometry} (hw : 0 < g.w) (D : Bytes) {i j : Nat}
    (hi : i < fwSymbols g D.length) (hj : j < g.w) :
    ((fwDigits g D).getD i 0).testBit (g.w - 1 - j) = msbBit D (i * g.w + j) := by
  obtain ⟨hle, -⟩ := fwSymbols_bounds hw D.length
  have hgroup : (fwSymbols g D.length - 1 - i) * g.w + i * g.w + g.w =
      fwSymbols g D.length * g.w := by
    rw [← Nat.add_mul, ← Nat.succ_mul]
    congr 1
    omega
  rw [List.getD_eq_getElem _ _ (by rwa [length_fwDigits]),
    ← testBit_beNat_mul_two_pow D (e := fwSymbols g D.length * g.w - 8 * D.length) (by omega)]
  simp only [fwDigits, List.getElem_map, List.getElem_range]
  rw [Nat.testBit_mod_two_pow, decide_eq_true (by omega), Bool.true_and, Nat.testBit_shiftRight]
  congr 1
  omega

end Sys2Proof

namespace Sys2Proof.Laws

open Sys2Proof.Claims

/-- Settles O47: the digits are those of the model's encoder, and the padding fills the last block. -/
theorem fixedWidthPacking : Obligations.FixedWidthPacking := by
  unfold Obligations.FixedWidthPacking
  intro g hg A pad D
  obtain ⟨hw, -, hS, -⟩ := geometry_bounds hg
  obtain ⟨hle, hlt⟩ := fwSymbols_bounds hw D.length
  have hdigits : ∀ i < (fwDigits g D).length, (fwDigits g D).getD i 0 < 2 ^ g.w ∧
      ∀ j < g.w, ((fwDigits g D).getD i 0).testBit (g.w - 1 - j) = msbBit D (i * g.w + j) := by
    intro i hi
    constructor
    · rw [List.getD_eq_getElem _ _ hi]
      exact fwDigits_lt g D _ (List.getElem_mem hi)
    · exact fun j hj => testBit_getD_fwDigits hw D (length_fwDigits g D ▸ hi) hj
  rw [← length_fwDigits g D] at hle hlt
  cases pad with
  | false => exact ⟨fwDigits g D, 0, by simp [fwEncode], hle, hlt, hdigits, fun _ => rfl, by simp⟩
  | true =>
    obtain ⟨hfew, hfull⟩ := length_fwPadding hS (fwDigits g D).length
    rw [fwPadding, List.length_replicate] at hfew hfull
    exact ⟨fwDigits g D, _, by simp [fwEncode, fwPadding], hle, hlt, hdigits, by simp,
      fun _ => ⟨hfew, hfull⟩⟩

end Sys2Proof.Laws

namespace Sys2Proof

open Sys2Proof.Claims

/-! ## The length of an encoded text -/

@[simp] theorem length_fwEncode_unpadded (g : Geometry) (A D : Bytes) :
    (fwEncode g A false D).length = fwSymbols g D.length := by simp [fwEncode]

theorem fwEncode_padded (g : Geometry) (A D : Bytes) : fwEncode g A true D =
    fwEncode g A false D ++ fwPadding g (fwSymbols g D.length) := by simp [fwEncode]

theorem fwSymbols_geo16 (n : Nat) : fwSymbols geo16 n = 2 * n := by
  simp only [fwSymbols, geo16]
  omega

theorem fwSymbols_geo32 (n : Nat) : fwSymbols geo32 n = (8 * n + 4) / 5 := rfl

theorem fwSymbols_geo64 (n : Nat) : fwSymbols geo64 n = (4 * n + 2) / 3 := by
  simp only [fwSymbols, geo64]
  omega

/-- The padding of base 32, by the bytes in the last block (R153). -/
theorem fwPadding_geo32 (n : Nat) : fwPadding geo32 (fwSymbols geo32 n) =
    List.replicate ([0, 6, 4, 3, 1].getD (n % 5) 0) padChar := by
  rw [fwPadding, fwSymbols_geo32]
  congr 1
  obtain h | h | h | h | h : n % 5 = 0 ∨ n % 5 = 1 ∨ n % 5 = 2 ∨ n % 5 = 3 ∨ n % 5 = 4 := by omega
  all_goals
    rw [h]
    simp only [geo32, List.getD_cons_zero, List.getD_cons_succ]
    omega

/-- The padding of base 64, by the bytes in the last block (R153). -/
theorem fwPadding_geo64 (n : Nat) : fwPadding geo64 (fwSymbols geo64 n) =
    List.replicate ([0, 2, 1].getD (n % 3) 0) padChar := by
  rw [fwPadding, fwSymbols_geo64]
  congr 1
  obtain h | h | h : n % 3 = 0 ∨ n % 3 = 1 ∨ n % 3 = 2 := by omega
  all_goals
    rw [h]
    simp only [geo64, List.getD_cons_zero, List.getD_cons_succ]
    omega

/-- A padded text of base 32 is whole blocks of 5 bytes (R153). -/
theorem length_fwEncode_geo32_padded (A D : Bytes) :
    (fwEncode geo32 A true D).length = 8 * ((D.length + 4) / 5) := by
  rw [fwEncode_padded, List.length_append, length_fwEncode_unpadded, fwPadding,
    List.length_replicate, fwSymbols_geo32]
  simp only [geo32]
  omega

/-- A padded text of base 64 is whole blocks of 3 bytes (R153). -/
theorem length_fwEncode_geo64_padded (A D : Bytes) :
    (fwEncode geo64 A true D).length = 4 * ((D.length + 2) / 3) := by
  rw [fwEncode_padded, List.length_append, length_fwEncode_unpadded, fwPadding,
    List.length_replicate, fwSymbols_geo64]
  simp only [geo64]
  omega

end Sys2Proof

namespace Sys2Proof.Laws

open Sys2Proof.Claims

/-- Settles O48: lengths from the number of symbols; a symbol is a byte of the alphabet or `=`, which
no legal `WS` holds. -/
theorem fixedWidthLengths : Obligations.FixedWidthLengths := by
  unfold Obligations.FixedWidthLengths
  constructor
  · intro A D
    refine ⟨?_, ?_, ?_, length_fwEncode_geo32_padded A D, length_fwEncode_geo64_padded A D, ?_, ?_⟩
    · rw [length_fwEncode_unpadded, fwSymbols_geo16]
    · rw [length_fwEncode_unpadded, fwSymbols_geo32]
    · rw [length_fwEncode_unpadded, fwSymbols_geo64]
    · rw [fwEncode_padded, fwPadding_geo32, padChar]
    · rw [fwEncode_padded, fwPadding_geo64, padChar]
  · intro g _ c A pad D hws hA hclean x hx
    obtain ⟨hpad, -⟩ := Config.wsWf_iff.1 hws
    rcases mem_fwEncode hA.1 hx with h | ⟨-, rfl⟩
    · exact hclean x h
    · exact hpad

end Sys2Proof.Laws

namespace Sys2Proof

open Sys2Proof.Claims

/-! ## The text that decodes to a byte sequence (R154, R156) -/

/-- Digits are known by their number and how many they are. -/
theorem eq_of_foldl_digits_eq {R : Nat} (hR : 1 < R) {ds es : List Nat}
    (hlen : ds.length = es.length) (hds : ∀ d ∈ ds, d < R) (hes : ∀ d ∈ es, d < R)
    (h : ds.foldl (fun acc d => acc * R + d) 0 = es.foldl (fun acc d => acc * R + d) 0) :
    ds = es := by
  rw [foldl_digits_eq_ofDigits, foldl_digits_eq_ofDigits] at h
  exact List.reverse_injective (Nat.ofDigits_inj_of_len_eq hR (by simpa using hlen)
    (by simpa using hds) (by simpa using hes) h)

theorem foldl_digits_lt {R : Nat} (hR : 1 < R) {ds : List Nat} (hds : ∀ d ∈ ds, d < R) :
    ds.foldl (fun acc d => acc * R + d) 0 < R ^ ds.length := by
  rw [foldl_digits_eq_ofDigits, ← List.length_reverse]
  exact Nat.ofDigits_lt_base_pow_length hR (by simpa using hds)

/-- The bytes of a number that they can hold stand for it. -/
theorem leNat_bytesLe {k v : Nat} (h : v < 256 ^ k) : leNat (bytesLe k v) = v := by
  induction k generalizing v with
  | zero => simp_all [bytesLe, leNat]
  | succ k ih =>
    have hdiv : v / 256 < 256 ^ k := Nat.div_lt_of_lt_mul (by rwa [← Nat.pow_succ'])
    rw [bytesLe, leNat, ih hdiv, BitVec.toNat_ofNat]
    exact Nat.mod_add_div v 256

theorem beNat_bytesBe {k v : Nat} (h : v < 256 ^ k) : beNat (bytesBe k v) = v := by
  rw [bytesBe, beNat_eq_leNat_reverse, List.reverse_reverse, leNat_bytesLe h]

theorem valOf_lt {A : Bytes} {c : Byte} (h : c ∈ A) : valOf A c < A.length :=
  List.idxOf_lt_length_of_mem h

theorem symOf_valOf {A : Bytes} {c : Byte} (h : c ∈ A) : symOf A (valOf A c) = c := by
  rw [symOf_eq_getElem (valOf_lt h)]
  exact List.getElem_idxOf (valOf_lt h)

theorem map_symOf_valOf {A T : Bytes} (h : ∀ c ∈ T, c ∈ A) :
    (T.map (valOf A)).map (symOf A) = T := by
  rw [List.map_map]
  exact (List.map_congr_left fun c hc => symOf_valOf (h c hc)).trans (List.map_id T)

/-- The text is what is left without its trailing `=`, and those. -/
theorem take_append_trailingPads (T : Bytes) :
    T.take (T.length - trailingPads T) ++ List.replicate (trailingPads T) padChar = T := by
  have hrun := replicate_leadingCount_append padChar T.reverse
  have hpads : (T.drop (T.length - trailingPads T)).reverse =
      List.replicate (trailingPads T) padChar := by
    rw [← List.take_reverse, ← hrun]
    exact List.take_left' List.length_replicate
  rw [← List.reverse_replicate, ← hpads, List.reverse_reverse, List.take_append_drop]

/-- The padding is the only run of `=` of less than a block that completes the text (R152). -/
theorem fwPadding_unique {g : Geometry} {n k : Nat} (hk : k < g.symbols)
    (hfull : (n + k) % g.symbols = 0) : List.replicate k padChar = fwPadding g n := by
  obtain ⟨hlt, hmod⟩ := length_fwPadding (Nat.zero_lt_of_lt hk) n
  have hsame : n + k ≡ n + (fwPadding g n).length [MOD g.symbols] := hfull.trans hmod.symm
  rw [hsame.add_left_cancel'.eq_of_lt_of_lt hk hlt, fwPadding, List.length_replicate]

/-- What step 3 of `FwDecode` accepts: a body without `=`, padded as `FwEncode` pads it. -/
theorem fwBody_ok {g : Geometry} {pad : Bool} {T body : Bytes} (h : fwBody g pad T = .ok body) :
    T = (bif pad then body ++ fwPadding g body.length else body) ∧
      (pad = true → padChar ∉ body) := by
  cases pad with
  | false => cases h; exact ⟨rfl, by simp⟩
  | true =>
    simp only [fwBody, cond_true] at h
    split at h
    · cases h
    · next hpads =>
      split at h
      · cases h
      · next hfull =>
        cases h
        obtain ⟨hbody, hk⟩ := not_or.1 hpads
        have hT := take_append_trailingPads T
        have hlen := congrArg List.length hT
        rw [List.length_append, List.length_replicate] at hlen
        refine ⟨?_, fun _ => hbody⟩
        rw [cond_true, ← fwPadding_unique (not_le.1 hk) (by rw [hlen]; exact not_not.1 hfull), hT]

/-- A number of symbols that step 4 of `FwDecode` accepts is the one that its whole bytes need. -/
theorem fwSymbols_whole_bytes {g : Geometry} (hg : g ∈ geometries) {m : Nat}
    (h : m % g.symbols * g.w % 8 < g.w) : fwSymbols g (m * g.w / 8) = m := by
  obtain ⟨hw, -, -, k, hk⟩ := geometry_bounds hg
  have hsplit : m * g.w = 8 * (k * (m / g.symbols)) + m % g.symbols * g.w := by
    rw [← Nat.mul_assoc, ← hk, Nat.mul_right_comm, ← Nat.add_mul, Nat.div_add_mod]
  have hspare : m * g.w % 8 < g.w := by omega
  exact Nat.div_eq_of_lt_le (by omega) (by rw [Nat.add_mul]; omega)

/-- Packing undoes unpacking (R152, R154 steps 4 to 6). -/
theorem fwDigits_of_fwUnpack {g : Geometry} (hg : g ∈ geometries) {A : Bytes} (hA : ValidFor g A)
    {body D : Bytes} (hbody : ∀ c ∈ body, c ∈ A) (h : fwUnpack g A body = .ok D) :
    (fwDigits g D).map (symOf A) = body := by
  obtain ⟨hspare, hzero, rfl⟩ := Laws.fwUnpack_ok h
  obtain ⟨hw, -⟩ := geometry_bounds hg
  have hR : 1 < 2 ^ g.w := Nat.one_lt_two_pow hw.ne'
  have hdigit : ∀ d ∈ body.map (valOf A), d < 2 ^ g.w := by
    intro d hd
    obtain ⟨c, hc, rfl⟩ := List.mem_map.1 hd
    exact hA.1 ▸ valOf_lt (hbody c hc)
  have hvalue : fwValue g A body =
      (body.map (valOf A)).foldl (fun acc d => acc * 2 ^ g.w + d) 0 := by
    rw [fwValue, List.foldl_map]
  set m := body.length
  set nb := m * g.w / 8
  set e := m * g.w - 8 * nb
  have hbits : m * g.w = e + 8 * nb := by omega
  have hsymbols : fwSymbols g nb = m := fwSymbols_whole_bytes hg (not_le.1 hspare)
  have hlt : fwValue g A body < 2 ^ (m * g.w) := by
    have h := foldl_digits_lt hR hdigit
    rwa [← hvalue, List.length_map, ← Nat.pow_mul, Nat.mul_comm] at h
  have hnumber : beNat (bytesBe nb (fwValue g A body >>> e)) * 2 ^ e = fwValue g A body := by
    rw [Nat.shiftRight_eq_div_pow, beNat_bytesBe, Nat.div_mul_cancel (Nat.dvd_of_mod_eq_zero hzero)]
    refine Nat.div_lt_of_lt_mul ?_
    rwa [show 256 = 2 ^ 8 from rfl, ← Nat.pow_mul, ← Nat.pow_add, ← hbits]
  have hbytes : (bytesBe nb (fwValue g A body >>> e)).length = nb := by simp [bytesBe]
  have hdigits : fwDigits g (bytesBe nb (fwValue g A body >>> e)) = body.map (valOf A) := by
    refine eq_of_foldl_digits_eq hR ?_ (fwDigits_lt g _) hdigit ?_
    · rw [length_fwDigits, hbytes, hsymbols, List.length_map]
    · rw [foldl_fwDigits hw, hbytes, hsymbols, hnumber, hvalue]
  rw [hdigits, map_symOf_valOf hbody]

/-- Without folding, the text that decodes to `D` is its encoding (R156). -/
theorem eq_fwEncode_of_fwDecode {g : Geometry} (hg : g ∈ geometries) {A : Bytes} (hA : ValidFor g A)
    {pad : Bool} {T D : Bytes} (h : fwDecode g A pad false T = .ok D) : T = fwEncode g A pad D := by
  simp only [fwDecode, cond_false] at h
  split at h
  · cases h
  · next hgood =>
    cases hb : fwBody g pad T with
    | error r => simp [hb] at h
    | ok body =>
      rw [hb] at h
      obtain ⟨hT, hplain⟩ := fwBody_ok hb
      have hbody : ∀ c ∈ body, c ∈ A := by
        intro c hc
        have hcT : c ∈ T := by
          rw [hT]
          cases pad with
          | false => exact hc
          | true => exact List.mem_append_left _ hc
        by_contra hcA
        refine hgood (List.any_eq_true.2 ⟨c, hcT, ?_⟩)
        cases pad with
        | false => simp [hcA]
        | true => simp [hcA, ne_of_mem_of_not_mem hc (hplain rfl)]
      rw [hT, ← fwDigits_of_fwUnpack hg hA hbody h]
      rfl

end Sys2Proof

namespace Sys2Proof.Laws

open Sys2Proof.Claims

/-- Settles O49: the round trip, its converse, and folding as decoding of the folded text. -/
theorem fixedWidthRoundTrip : Obligations.FixedWidthRoundTrip := by
  unfold Obligations.FixedWidthRoundTrip
  refine ⟨?_, ?_, ?_⟩
  · exact fun g hg A pad fold D hA hpad hfold => fwDecode_fwEncode hg hA hpad hfold D
  · exact fun g hg A pad T D hA _ h => eq_fwEncode_of_fwDecode hg hA h
  · intro T D
    have hgeo : geo16 ∈ geometries := by simp [geometries]
    have hfold : fwDecode geo16 a16 false true T = fwDecode geo16 a16 false false (foldHex T) := rfl
    rw [hfold]
    constructor
    · exact eq_fwEncode_of_fwDecode hgeo a16_valid
    · intro h
      rw [h, fwDecode_fwEncode hgeo a16_valid (by simp) (by simp)]

end Sys2Proof.Laws

/-! The big-integer codec (spec/42_bigint_codec.md R190 to R199): the digits of an encoded text and the one
text that encodes a byte sequence, then what the four commands deliver. -/

namespace Sys2Proof

/-! ## The byte sequence that a text decodes to (R193, R195) -/

/-- Digits without a leading zero are the digits of their number. -/
theorem digits_foldl_digits {R : Nat} (hR : 2 ≤ R) {ds : List Nat} (hlt : ∀ d ∈ ds, d < R)
    (hhead : ds.head? ≠ some 0) :
    Nat.digits R (ds.foldl (fun acc d => acc * R + d) 0) = ds.reverse := by
  rw [foldl_digits_eq_ofDigits]
  refine Nat.digits_ofDigits R hR _ (fun d hd => hlt d (List.mem_reverse.1 hd)) fun hne h0 => ?_
  refine hhead ?_
  rw [← List.getLast?_reverse, List.getLast?_eq_some_getLast hne, h0]

theorem beNat_replicate_zero_append (k : Nat) (B : Bytes) :
    beNat (List.replicate k 0x00 ++ B) = beNat B := by
  rw [beNat_append, beNat_replicate_zero, Nat.zero_mul, Nat.zero_add]

/-- The bytes of a shortest form are its base-256 digits. -/
theorem map_toNat_minbytesBe (v : Nat) :
    (minbytesBe v).map BitVec.toNat = (Nat.digits 256 v).reverse := by
  rw [minbytesBe, digitsOf_eq_digits (by decide), List.map_map]
  refine (List.map_congr_left fun d hd => ?_).trans (List.map_id _)
  exact Nat.mod_eq_of_lt (Nat.digits_lt_base (by decide) (List.mem_reverse.1 hd))

theorem beNat_minbytesBe (v : Nat) : beNat (minbytesBe v) = v := by
  rw [beNat_eq_ofDigits, map_toNat_minbytesBe, List.reverse_reverse, Nat.ofDigits_digits]

theorem head?_minbytesBe_ne (v : Nat) : (minbytesBe v).head? ≠ some 0x00 := by
  intro h
  refine head?_reverse_digits_ne 256 v ?_
  rw [← map_toNat_minbytesBe, List.head?_map, h]
  rfl

/-- Leading first symbols do not change the number of a text. -/
theorem biValue_replicate_append {A : Bytes} (hA : 0 < A.length) (hnodup : A.Nodup) (k : Nat)
    (T : Bytes) : biValue A (List.replicate k (symOf A 0) ++ T) = biValue A T := by
  induction k with
  | zero => rfl
  | succ k ih =>
    rw [← ih, List.replicate_succ, List.cons_append, biValue, List.foldl_cons,
      valOf_symOf hnodup hA, Nat.zero_mul, biValue]

/-- The digits of the number of a text that does not begin with the first symbol are those of its
symbols. -/
theorem digits_biValue {A T : Bytes} (hA : 2 ≤ A.length) (hT : ∀ c ∈ T, c ∈ A)
    (hhead : T.head? ≠ some (symOf A 0)) :
    Nat.digits A.length (biValue A T) = (T.map (valOf A)).reverse := by
  have hvalue : biValue A T =
      (T.map (valOf A)).foldl (fun acc d => acc * A.length + d) 0 := by
    rw [biValue, List.foldl_map]
  rw [hvalue]
  refine digits_foldl_digits hA (fun d hd => ?_) fun h => ?_
  · obtain ⟨c, hc, rfl⟩ := List.mem_map.1 hd
    exact valOf_lt (hT c hc)
  · rw [List.head?_map, Option.map_eq_some_iff] at h
    obtain ⟨c, hc, hc0⟩ := h
    exact hhead (by rw [← hc0, symOf_valOf (hT c (List.mem_of_head? hc)), hc])

/-- A text over the alphabet decodes (R193). -/
theorem biDecode_eq_ok {A T : Bytes} (hT : ∀ c ∈ T, c ∈ A) : biDecode A T =
    .ok (List.replicate (leadingCount (symOf A 0) T) 0x00 ++ minbytesBe (biValue A T)) := by
  rw [biDecode, if_neg (not_any_foreign hT)]

/-- Encoding undoes decoding (R195): first symbols and zero bytes correspond one for one, and the other
symbols are the digits of the number. -/
theorem biEncode_of_biDecode {A : Bytes} (hA : 2 ≤ A.length) (hnodup : A.Nodup) {T D : Bytes}
    (hT : ∀ c ∈ T, c ∈ A) (h : biDecode A T = .ok D) : biEncode A D = T := by
  cases (biDecode_eq_ok hT).symm.trans h
  set z := leadingCount (symOf A 0) T
  set U := T.dropWhile (· == symOf A 0)
  have hsplit : List.replicate z (symOf A 0) ++ U = T := replicate_leadingCount_append _ T
  have hU : ∀ c ∈ U, c ∈ A := fun c hc => hT c (hsplit ▸ List.mem_append_right _ hc)
  have hnumber : biValue A T = biValue A U := by
    rw [← hsplit, biValue_replicate_append (Nat.zero_lt_of_lt hA) hnodup]
  rw [biEncode, leadingCount_replicate_append (head?_minbytesBe_ne _), beNat_replicate_zero_append,
    beNat_minbytesBe, digitsOf_eq_digits hA, hnumber, digits_biValue hA hU (head?_dropWhile_ne _ T),
    List.reverse_reverse, map_symOf_valOf hU, hsplit]

end Sys2Proof

namespace Sys2Proof.Laws

/-- Settles O50: the digits are Mathlib's, whose number and length are known; a text decodes to leading
zeros and the shortest form of its number, which encode to it. -/
theorem bigIntConversion : Obligations.BigIntConversion := by
  unfold Obligations.BigIntConversion
  constructor
  · intro A D hA
    refine ⟨leadingCount 0x00 D, (Nat.digits A.length (beNat D)).reverse, ?text,
      ⟨_, (replicate_leadingCount_append 0x00 D).symm, head?_dropWhile_ne 0x00 D⟩, ?digit,
      head?_reverse_digits_ne _ _, ?number, ?enough, ?fewest⟩
    case text => rw [biEncode, digitsOf_eq_digits hA]
    case digit => exact fun d hd => Nat.digits_lt_base hA (List.mem_reverse.1 hd)
    case number => rw [foldl_digits_eq_ofDigits, List.reverse_reverse, Nat.ofDigits_digits]
    case enough =>
      rw [List.length_reverse]
      exact Nat.lt_base_pow_length_digits hA
    case fewest =>
      intro L hL
      rw [List.length_reverse]
      exact (Nat.digits_length_le_iff hA _).2 hL
  · intro A hA hnodup
    exact ⟨biDecode_biEncode hA hnodup, fun T hT =>
      ⟨_, biDecode_eq_ok hT, biEncode_of_biDecode hA hnodup hT (biDecode_eq_ok hT)⟩⟩

end Sys2Proof.Laws

namespace Sys2Proof.Laws

open Sys2Proof.Machine Sys2Proof.Claims

/-! ## The commands -/

/-- The unit of a big-integer base, with any alphabet (R190, R196, R197). -/
theorem unitEncode_of_isBigInt {b : Base} (hb : b.isBigInt = true) (c : Config) (ap : Bool)
    (A D : Bytes) : c.unitEncode b ap A D = biEncode A D := by
  cases b
  case b58 => rfl
  case b62 => rfl
  all_goals cases hb

/-- The unit of a big-integer base decodes the stripped text (R190, R198, R199). -/
theorem unitDecode_textOf_of_isBigInt {b : Base} (hb : b.isBigInt = true) (c : Config) (ap : Bool)
    (A D : Bytes) : c.unitDecode b ap A (c.textOf b D) = biDecode A (stripWs c.ws D) := by
  cases b
  case b58 => rfl
  case b62 => rfl
  all_goals cases hb

theorem bigEncodes_of_isBigInt {b : Base} (hb : b.isBigInt = true) :
    BigEncodes (Instr.ofBx .enc b) b := by
  intro ap s A hfits hA hout
  exact bxe_completes b hA hfits (unitEncode_of_isBigInt hb s.cfg ap A (input s)) hout

theorem bigDecodes_of_isBigInt {b : Base} (hb : b.isBigInt = true) :
    BigDecodes (Instr.ofBx .dec b) b := by
  intro ap s A B hfits hA hdec hutf hout
  exact bxd_completes b hA hfits ((unitDecode_textOf_of_isBigInt hb ..).trans hdec) hutf hout

/-- With a custom alphabet the two big-integer bases have one pipeline: the validator makes the same
checks and the units are the same (R190, R197, R199). -/
theorem bxExec_b58_eq_b62 (d : Dir) {s : State} (hlen : AlphaLenOk s.alphaLen.toNat .b58) :
    bxExec d .b58 true s = bxExec d .b62 true s := by
  have halphabet : s.alphabet .b58 true = s.alphabet .b62 true :=
    (alphabet_of_lenOk hlen).trans (alphabet_of_lenOk (b := .b62) hlen).symm
  have htransform : bxTransform s.cfg d .b58 true = bxTransform s.cfg d .b62 true := by
    cases d <;> rfl
  rw [bxExec, bxExec, halphabet, htransform]

/-- Two commands with one result have one outcome. -/
theorem exec_ofBx_b58_eq_b62 (d : Dir) {s : State} (hlen : AlphaLenOk s.alphaLen.toNat .b58) :
    exec (Instr.ofBx d .b58 true) s = exec (Instr.ofBx d .b62 true) s := by
  rw [exec_eq_finish, exec_eq_finish, resultOf_ofBx, resultOf_ofBx, bxExec_b58_eq_b62 d hlen]

/-- Settles O12: both bases encode with the big-integer unit (R190, R196, R197). -/
theorem bigIntEncodeResult : Obligations.BigIntEncodeResult := by
  unfold Obligations.BigIntEncodeResult
  refine ⟨?base58, ?base62, ?custom⟩
  case base58 => exact bigEncodes_of_isBigInt (b := .b58) rfl
  case base62 => exact bigEncodes_of_isBigInt (b := .b62) rfl
  case custom => exact fun _ hlen => exec_ofBx_b58_eq_b62 .enc hlen

/-- Settles O13: both bases decode the stripped text with the big-integer unit (R190, R198, R199). -/
theorem bigIntDecodeResult : Obligations.BigIntDecodeResult := by
  unfold Obligations.BigIntDecodeResult
  refine ⟨?base58, ?base62, ?custom⟩
  case base58 => exact bigDecodes_of_isBigInt (b := .b58) rfl
  case base62 => exact bigDecodes_of_isBigInt (b := .b62) rfl
  case custom => exact fun _ hlen => exec_ofBx_b58_eq_b62 .dec hlen

end Sys2Proof.Laws

/-! The static-table codec (spec/43_static_table_codec.md R220 to R235): its round trips and the empty
text, then what the four commands deliver without a custom alphabet. -/

namespace Sys2Proof

/-- Stage 5 leaves the empty input empty, stripped or not (40_basex_front_end.md R131). -/
@[simp] theorem Config.textOf_nil (c : Config) (b : Base) : c.textOf b [] = [] := by
  cases b <;> rfl

/-- `P_empty` of R224, for every pair. -/
theorem Config.emptyStatic (c : Config) : c.EmptyStatic :=
  ⟨c.b85Enc_nil, c.b91Enc_nil, c.b85Dec_nil, c.b91Dec_nil⟩

end Sys2Proof

namespace Sys2Proof.Laws

open Sys2Proof.Machine Sys2Proof.Claims

/-- Settles O57: the round trips of the default pairs are `ascii85Dec_ascii85Enc` and
`base91Dec_base91Enc`, those of any other pair its own; the units of the other bases map empty to empty
by their definitions. -/
theorem defaultStaticTableProperties : Obligations.DefaultStaticTableProperties := by
  unfold Obligations.DefaultStaticTableProperties
  constructor
  · exact fun c => ⟨Config.rt85_of_wsWf, c.rt91, c.emptyStatic⟩
  · intro c b ap A
    rw [Config.textOf_nil]
    exact ⟨c.unitEncode_nil b ap A, c.unitDecode_nil b ap A⟩

/-- Settles O14: without a custom alphabet the validator passes every base, and the units of base 85 and
91 are the pairs of the configuration, base 85 behind the whitespace stripper (R131, R232 to R235). -/
theorem staticTableResult : Obligations.StaticTableResult := by
  unfold Obligations.StaticTableResult
  refine ⟨?encode85, ?encode91, ?decode85, ?decode91⟩
  case encode85 => exact fun _ hfits hout => bxe_completes .b85 (.inl ⟨rfl, rfl⟩) hfits rfl hout
  case encode91 => exact fun _ hfits hout => bxe_completes .b91 (.inl ⟨rfl, rfl⟩) hfits rfl hout
  case decode85 =>
    exact fun _ _ hfits hdec hutf hout =>
      bxd_completes .b85 (.inl ⟨rfl, rfl⟩) hfits hdec hutf hout
  case decode91 =>
    exact fun _ _ hfits hdec hutf hout =>
      bxd_completes .b91 (.inl ⟨rfl, rfl⟩) hfits hdec hutf hout

end Sys2Proof.Laws

/-! The block-cipher mode controller (spec/45_cipher_mode_controller.md R250 to R299): the padding layer,
the mode layer block by block, that the block core undoes itself, then what the ten commands deliver and
the round trip of an encrypt and its decrypt. -/

namespace Sys2Proof

/-! ## Padding applied and removed (R260 to R266) -/

/-- PKCS7 fills up to whole blocks with 1 to 16 bytes, each the number of them (R260). -/
theorem padPkcs7_spec (D : Bytes) : ∃ p, 1 ≤ p ∧ p ≤ 16 ∧ (D.length + p) % 16 = 0 ∧
    padPkcs7 D = D ++ List.replicate p (BitVec.ofNat 8 p) :=
  ⟨16 - D.length % 16, by omega, by omega, by omega, rfl⟩

/-- Zero padding fills up to whole blocks with fewer than 16 zero bytes (R261). -/
theorem padZero_spec (D : Bytes) : ∃ z, z < 16 ∧ (D.length + z) % 16 = 0 ∧
    padZero D = D ++ List.replicate z 0x00 :=
  ⟨(16 - D.length % 16) % 16, by omega, by omega, rfl⟩

/-- Removal undoes PKCS7 on whole blocks (R264). -/
theorem unpadPkcs7_append_replicate {D : Bytes} {p : Nat} (h1 : 1 ≤ p) (h16 : p ≤ 16)
    (hlen : (D.length + p) % 16 = 0) :
    unpadPkcs7 (D ++ List.replicate p (BitVec.ofNat 8 p)) = some D := by
  have hlast : (D ++ List.replicate p (BitVec.ofNat 8 p)).getLast? = some (BitVec.ofNat 8 p) := by
    rw [List.getLast?_append, List.getLast?_replicate, if_neg (by omega), Option.some_or]
  have hp : (BitVec.ofNat 8 p).toNat = p := Nat.mod_eq_of_lt (by omega)
  simp [unpadPkcs7, hlast, hp]
  omega

/-- What removal of PKCS7 accepts (R264). -/
theorem unpadPkcs7_eq_some_iff {P D : Bytes} : unpadPkcs7 P = some D ↔ P.length % 16 = 0 ∧
    ∃ p, 1 ≤ p ∧ p ≤ 16 ∧ P = D ++ List.replicate p (BitVec.ofNat 8 p) := by
  constructor
  · intro h
    simp only [unpadPkcs7] at h
    split at h
    · cases h
    next hlen =>
      split at h
      · cases h
      next hrange =>
        split at h
        · cases h
        next hall =>
          cases h
          generalize hp : (P.getLast?.getD 0).toNat = p at hrange hall
          have htail : P.drop (P.length - p) = List.replicate p (BitVec.ofNat 8 p) := by
            refine List.eq_replicate_iff.2 ⟨by rw [List.length_drop]; omega, fun c hc => ?_⟩
            by_contra hne
            exact hall (List.any_eq_true.2 ⟨c, hc, bne_iff_ne.2 hne⟩)
          refine ⟨by omega, p, by omega, by omega, ?_⟩
          rw [← htail, List.take_append_drop]
  · rintro ⟨hlen, p, h1, h16, rfl⟩
    exact unpadPkcs7_append_replicate h1 h16 (by simpa using hlen)

/-- Removal of Zero padding is Mathlib's dropping from the right. -/
theorem unpadZero_eq_rdropWhile (P : Bytes) : unpadZero P = P.rdropWhile (· == 0x00) := rfl

/-- What removal of Zero padding keeps, and that it cuts off zero bytes only (R265). -/
theorem unpadZero_append_zeros (P : Bytes) :
    ∃ Z : Bytes, P = unpadZero P ++ Z ∧ ∀ x ∈ Z, x = 0x00 := by
  refine ⟨P.rtakeWhile (· == 0x00), (List.rdropWhile_append_rtakeWhile ..).symm, fun x hx => ?_⟩
  simpa using List.mem_rtakeWhile_imp hx

/-- Zero bytes behind a text make no difference to the removal (R265). -/
theorem unpadZero_append_replicate (D : Bytes) (z : Nat) :
    unpadZero (D ++ List.replicate z 0x00) = unpadZero D := by
  induction z with
  | zero => rw [List.replicate_zero, List.append_nil]
  | succ z ih =>
    rw [List.replicate_succ', ← List.append_assoc, unpadZero_eq_rdropWhile,
      List.rdropWhile_concat_pos _ _ _ (by rfl), ← unpadZero_eq_rdropWhile, ih]

/-- No cut further left leaves off zero bytes only (R265). -/
theorem length_unpadZero_le {P : Bytes} {j : Nat} (h : ∀ x ∈ P.drop j, x = 0x00) :
    (unpadZero P).length ≤ j := by
  have hP : unpadZero P = unpadZero (P.take j) := by
    conv_lhs => rw [← List.take_append_drop j P, List.eq_replicate_of_mem h]
    exact unpadZero_append_replicate _ _
  calc (unpadZero P).length ≤ (P.take j).length := hP ▸ (List.rdropWhile_prefix _ _).length_le
    _ ≤ j := List.length_take_le j P

end Sys2Proof

namespace Sys2Proof.Laws

/-- Settles O52: removal of Zero padding cuts off zero bytes only, and no longer tail is all zero. -/
theorem paddingLaws : Obligations.PaddingLaws := by
  unfold Obligations.PaddingLaws
  refine ⟨padPkcs7_spec, padZero_spec, fun P D => unpadPkcs7_eq_some_iff, fun P => ?_⟩
  obtain ⟨Z, hP, hZ⟩ := unpadZero_append_zeros P
  have hleast := @length_unpadZero_le P
  generalize unpadZero P = U at hP hleast ⊢
  subst hP
  exact ⟨U.length, by simp, by simp, by simpa using hZ, fun j => hleast⟩

end Sys2Proof.Laws

namespace Sys2Proof

open Sys2Proof.Claims

/-! ## Blocks and their 16 bytes (00_scope.md R15, 45_cipher_mode_controller.md R270) -/

@[simp] theorem length_blockBytes (x : Block) : (blockBytes x).length = 16 := by
  rw [blockBytes, bytesBe, List.length_reverse, Machine.length_bytesLe]

@[simp] theorem blockOf_blockBytes (x : Block) : blockOf (blockBytes x) = x := by
  rw [blockOf, blockBytes, beNat_bytesBe (k := 16) x.isLt, BitVec.ofNat_toNat, BitVec.setWidth_eq]

theorem blockBytes_blockOf {B : Bytes} (h : B.length = 16) : blockBytes (blockOf B) = B := by
  have hlt : beNat B < 2 ^ 128 := by simpa [h] using beNat_lt B
  rw [blockBytes, blockOf, BitVec.toNat_ofNat, Nat.mod_eq_of_lt hlt, ← h, bytesBe_beNat]

/-- The bits of the first digit and of the others do not mix. -/
theorem xor_add_mul_256 {b c x y : Nat} (hb : b < 256) (hc : c < 256) :
    (b + 256 * x) ^^^ (c + 256 * y) = (b ^^^ c) + 256 * (x ^^^ y) := by
  have hbc : b ^^^ c < 256 := Nat.xor_lt_two_pow (n := 8) hb hc
  refine Nat.eq_of_testBit_eq fun i => ?_
  simp only [Nat.testBit_xor, show 256 = 2 ^ 8 from rfl, Nat.add_comm _ (2 ^ 8 * _),
    Nat.testBit_two_pow_mul_add _ (i := 8) hb, Nat.testBit_two_pow_mul_add _ (i := 8) hc,
    Nat.testBit_two_pow_mul_add _ (i := 8) hbc]
  split <;> rfl

theorem leNat_xorBytes : ∀ {B C : Bytes}, B.length = C.length →
    leNat (xorBytes B C) = leNat B ^^^ leNat C
  | [], [], _ => rfl
  | b :: B, c :: C, h => by
    have ih := leNat_xorBytes (Nat.succ.inj h)
    rw [leNat, leNat, xor_add_mul_256 b.isLt c.isLt, ← ih, ← BitVec.toNat_xor]
    rfl

theorem beNat_xorBytes {B C : Bytes} (h : B.length = C.length) :
    beNat (xorBytes B C) = beNat B ^^^ beNat C := by
  simp only [beNat_eq_leNat_reverse]
  rw [← leNat_xorBytes (by simpa using h), xorBytes, xorBytes, List.reverse_zipWith h]

/-- On 16 bytes, exclusive or byte by byte is that of the blocks. -/
theorem blockOf_xorBytes {B : Bytes} (h : B.length = 16) (k : Block) :
    blockOf (xorBytes B (blockBytes k)) = blockOf B ^^^ k := by
  conv_rhs => rw [← blockOf_blockBytes k]
  rw [blockOf, beNat_xorBytes (by simpa using h), blockOf, blockOf, BitVec.ofNat_xor]

theorem length_xorBytes_blockBytes (B : Bytes) (k : Block) :
    (xorBytes B (blockBytes k)).length = min B.length 16 := by
  rw [xorBytes, List.length_zipWith, length_blockBytes]

theorem getD_xorBytes {B C : Bytes} {i : Nat} (hB : i < B.length) (hC : i < C.length) :
    (xorBytes B C).getD i 0 = B.getD i 0 ^^^ C.getD i 0 := by
  have hi : i < (xorBytes B C).length := by rw [xorBytes, List.length_zipWith]; omega
  rw [List.getD_eq_getElem _ _ hi, List.getD_eq_getElem _ _ hB, List.getD_eq_getElem _ _ hC]
  exact List.getElem_zipWith

/-- Exclusive or with the same bytes twice leaves a piece as it was. -/
theorem xorBytes_xorBytes {B C : Bytes} (h : B.length ≤ C.length) :
    xorBytes (xorBytes B C) C = B := by
  refine List.ext_getElem (by simp [xorBytes]; omega) fun i _ _ => ?_
  simp [xorBytes]

/-! ## Pieces of 16 bytes -/

/-- Piece `i` of a byte sequence: 16 bytes, or what is left (R270, R277). -/
def piece (B : Bytes) (i : Nat) : Bytes := (B.drop (16 * i)).take 16

theorem length_piece (B : Bytes) (i : Nat) : (piece B i).length = min 16 (B.length - 16 * i) := by
  rw [piece, List.length_take, List.length_drop]

@[simp] theorem piece_append_zero {X : Bytes} (hX : X.length = 16) (Y : Bytes) :
    piece (X ++ Y) 0 = X := List.take_left' hX

@[simp] theorem piece_append_succ {X : Bytes} (hX : X.length = 16) (Y : Bytes) (i : Nat) :
    piece (X ++ Y) (i + 1) = piece Y i := by
  rw [piece, piece, show 16 * (i + 1) = X.length + 16 * i by omega, List.drop_length_add_append]

theorem piece_zero_of_short {B : Bytes} (h : B.length ≤ 16) : piece B 0 = B :=
  List.take_of_length_le h

theorem getD_piece (B : Bytes) (k : Nat) : (piece B (k / 16)).getD (k % 16) 0 = B.getD k 0 := by
  have hk : 16 * (k / 16) + k % 16 = k := Nat.div_add_mod k 16
  simp only [piece, List.getD_eq_getElem?_getD]
  rw [List.getElem?_take_of_lt (Nat.mod_lt k (by decide)), List.getElem?_drop, hk]

/-! ## A mode as a machine over pieces -/

/-- A direction of a mode: what a piece becomes, and the block that the next piece meets. -/
structure BlockMode where
  out : Block → Bytes → Bytes
  next : Block → Bytes → Block

namespace BlockMode

/-- The mode over a list of pieces, from the block that the first one meets. -/
def run (M : BlockMode) : Block → List Bytes → Bytes
  | _, [] => []
  | st, p :: ps => M.out st p ++ M.run (M.next st p) ps

/-- The block that piece `i` of `P` meets. -/
def chain (M : BlockMode) (V : Block) (P : Bytes) : Nat → Block
  | 0 => V
  | i + 1 => M.next (M.chain V P i) (piece P i)

/-- A block becomes a block, and no piece becomes more. -/
def KeepsBlocks (M : BlockMode) : Prop :=
  ∀ st p, (M.out st p).length ≤ 16 ∧ (p.length = 16 → (M.out st p).length = 16)

/-- A short piece keeps its length too (R277). -/
def Streams (M : BlockMode) : Prop := ∀ st p, p.length ≤ 16 → (M.out st p).length = p.length

variable {M : BlockMode}

@[simp] theorem run_append {G : Bytes} (hG : G.length = 16) (V : Block) (B : Bytes) :
    M.run V (chunks 16 (G ++ B)) = M.out V G ++ M.run (M.next V G) (chunks 16 B) := by
  rw [chunks_append (by decide) hG, run]

theorem run_of_short {B : Bytes} (hB : B ≠ []) (h : B.length ≤ 16) (V : Block) :
    M.run V (chunks 16 B) = M.out V B := by
  rw [chunks_of_short hB h, run, run, List.append_nil]

theorem chain_append_succ {G : Bytes} (hG : G.length = 16) (V : Block) (B : Bytes) (i : Nat) :
    M.chain V (G ++ B) (i + 1) = M.chain (M.next V G) B i := by
  induction i with
  | zero => rw [chain, chain, chain, piece_append_zero hG]
  | succ i ih => rw [chain, ih, piece_append_succ hG, chain]

/-- Each piece becomes what the mode makes of it and the block it meets. -/
theorem piece_run (hM : M.KeepsBlocks) {P : Bytes} {V : Block} {i : Nat} (hi : 16 * i < P.length) :
    piece (M.run V (chunks 16 P)) i = M.out (M.chain V P i) (piece P i) := by
  induction P using chunks_induction (k := 16) (by decide) generalizing V i with
  | nil => cases hi
  | short B hB hlen =>
    obtain rfl : i = 0 := by omega
    rw [run_of_short hB hlen.le, piece_zero_of_short (hM V B).1, piece_zero_of_short hlen.le, chain]
  | whole G B hG ih =>
    have hout := (hM V G).2 hG
    rw [run_append hG]
    cases i with
    | zero => rw [piece_append_zero hout, piece_append_zero hG, chain]
    | succ i =>
      rw [List.length_append] at hi
      rw [piece_append_succ hout, piece_append_succ hG, chain_append_succ hG, ih (by omega)]

/-- A mode keeps the length of whole blocks, and one that streams that of any text (R277, R279). -/
theorem length_run (hM : M.KeepsBlocks) {P : Bytes} (hP : P.length % 16 = 0 ∨ M.Streams)
    (V : Block) : (M.run V (chunks 16 P)).length = P.length := by
  induction P using chunks_induction (k := 16) (by decide) generalizing V with
  | nil => rfl
  | short B hB hlen =>
    have hpos := List.length_pos_of_ne_nil hB
    rw [run_of_short hB hlen.le]
    exact hP.resolve_left (by omega) V B hlen.le
  | whole G B hG ih =>
    have hB : B.length % 16 = 0 ∨ M.Streams := hP.imp_left fun h => by
      rw [List.length_append] at h
      omega
    rw [run_append hG, List.length_append, List.length_append, ih hB, (hM V G).2 hG, hG]

/-- `N` undoes `M` on whole blocks if it does so on each, and meets the same chain (R279). -/
theorem run_run {N : BlockMode} (hM : M.KeepsBlocks)
    (hout : ∀ st p, p.length = 16 → N.out st (M.out st p) = p)
    (hnext : ∀ st p, p.length = 16 → N.next st (M.out st p) = M.next st p)
    {P : Bytes} (hP : P.length % 16 = 0) (V : Block) :
    N.run V (chunks 16 (M.run V (chunks 16 P))) = P := by
  induction P using chunks_induction (k := 16) (by decide) generalizing V with
  | nil => rfl
  | short B hB hlen =>
    have hpos := List.length_pos_of_ne_nil hB
    omega
  | whole G B hG ih =>
    have hB : B.length % 16 = 0 := by rw [List.length_append] at hP; omega
    rw [run_append hG, run_append ((hM V G).2 hG), hout V G hG, hnext V G hG, ih hB]

/-! The three ways a chain goes on (R272 to R275). -/

/-- On the text taken in: CBC and CFB decrypt. -/
theorem chain_of_input (h : ∀ st p, M.next st p = blockOf p) (V : Block) (P : Bytes) (i : Nat) :
    M.chain V P i = prevBlk V P i := by
  cases i with
  | zero => rfl
  | succ i => exact h _ _

/-- On the text given out: CBC and CFB encrypt. -/
theorem chain_of_output (hM : M.KeepsBlocks) (h : ∀ st p, M.next st p = blockOf (M.out st p))
    (V : Block) {P : Bytes} {i : Nat} (hi : 16 * i < P.length) :
    M.chain V P i = prevBlk V (M.run V (chunks 16 P)) i := by
  cases i with
  | zero => rfl
  | succ i =>
    rw [chain, h, ← piece_run hM (by omega)]
    rfl

/-- On itself: OFB and CTR. -/
theorem chain_of_iterate {g : Block → Block} (h : ∀ st p, M.next st p = g st) (V : Block)
    (P : Bytes) (i : Nat) : M.chain V P i = g^[i] V := by
  induction i with
  | zero => rfl
  | succ i ih => rw [chain, h, ih, Function.iterate_succ_apply']

end BlockMode

end Sys2Proof

namespace Sys2Proof

open Sys2Proof.Claims

/-! ## The five modes, either direction (R271 to R275) -/

/-- The modes on encrypt. -/
def encMode (E : Block → Block) (w : Nat) : Mode → BlockMode
  | .ecb => ⟨fun _ p => blockBytes (E (blockOf p)), fun st _ => st⟩
  | .cbc => ⟨fun st p => blockBytes (E (blockOf p ^^^ st)), fun st p => E (blockOf p ^^^ st)⟩
  | .cfb => ⟨fun st p => xorBytes p (blockBytes (E st)),
      fun st p => blockOf (xorBytes p (blockBytes (E st)))⟩
  | .ofb => ⟨fun st p => xorBytes p (blockBytes (E st)), fun st _ => E st⟩
  | .ctr => ⟨fun st p => xorBytes p (blockBytes (E st)), fun st _ => ctrIncr w st⟩

/-- The modes on decrypt. -/
def decMode (E D : Block → Block) (w : Nat) : Mode → BlockMode
  | .ecb => ⟨fun _ p => blockBytes (D (blockOf p)), fun st _ => st⟩
  | .cbc => ⟨fun st p => blockBytes (D (blockOf p) ^^^ st), fun _ p => blockOf p⟩
  | .cfb => ⟨fun st p => xorBytes p (blockBytes (E st)), fun _ p => blockOf p⟩
  | .ofb => ⟨fun st p => xorBytes p (blockBytes (E st)), fun st _ => E st⟩
  | .ctr => ⟨fun st p => xorBytes p (blockBytes (E st)), fun st _ => ctrIncr w st⟩

/-- `ModeEnc` is the run of its mode over the pieces. -/
theorem modeEnc_eq_run (E : Block → Block) (w : Nat) (m : Mode) (V : Block) (P : Bytes) :
    modeEnc E w m V P = (encMode E w m).run V (chunks 16 P) := by
  cases m
  all_goals
    rw [modeEnc]
    generalize chunks 16 P = ps
    induction ps generalizing V with
    | nil => rfl
    | cons p ps ih => exact congrArg (_ ++ ·) (ih _)

/-- `ModeDec` is the run of its mode over the pieces. -/
theorem modeDec_eq_run (E D : Block → Block) (w : Nat) (m : Mode) (V : Block) (C : Bytes) :
    modeDec E D w m V C = (decMode E D w m).run V (chunks 16 C) := by
  cases m
  all_goals
    rw [modeDec]
    generalize chunks 16 C = ps
    induction ps generalizing V with
    | nil => rfl
    | cons p ps ih => exact congrArg (_ ++ ·) (ih _)

section

variable {E D : Block → Block} {w : Nat} {m : Mode} {V : Block} {P : Bytes} {i : Nat}

theorem encMode_keepsBlocks : (encMode E w m).KeepsBlocks := by
  intro st p
  cases m <;> simp +contextual [encMode, length_xorBytes_blockBytes]

theorem decMode_keepsBlocks : (decMode E D w m).KeepsBlocks := by
  intro st p
  cases m <;> simp +contextual [decMode, length_xorBytes_blockBytes]

/-- The streaming modes add the keystream, whatever the direction (R273 to R275). -/
theorem decMode_out_of_streaming (hm : m = .cfb ∨ m = .ofb ∨ m = .ctr) (st : Block) (p : Bytes) :
    (decMode E D w m).out st p = xorBytes p (blockBytes (E st)) := by
  rcases hm with rfl | rfl | rfl <;> rfl

theorem decMode_streams (hm : m = .cfb ∨ m = .ofb ∨ m = .ctr) : (decMode E D w m).Streams := by
  intro st p hp
  rw [decMode_out_of_streaming hm, length_xorBytes_blockBytes, Nat.min_eq_left hp]

/-- The keystream block that meets piece `i` is the image of its chain. -/
theorem keyBlock_eq_chain (hm : m = .cfb ∨ m = .ofb ∨ m = .ctr) :
    keyBlock E w V P m i = E ((decMode E D w m).chain V P i) := by
  rcases hm with rfl | rfl | rfl
  · rw [BlockMode.chain_of_input fun _ _ => rfl, keyBlock]
  · rw [BlockMode.chain_of_iterate (g := E) fun _ _ => rfl, keyBlock, Function.iterate_succ_apply']
  · rw [BlockMode.chain_of_iterate (g := ctrIncr w) fun _ _ => rfl, keyBlock]

/-- Block by block, `ModeEnc` is its mode. -/
theorem blk_modeEnc (hi : 16 * i < P.length) : blk (modeEnc E w m V P) i =
    blockOf ((encMode E w m).out ((encMode E w m).chain V P i) (piece P i)) := by
  rw [← BlockMode.piece_run encMode_keepsBlocks hi, ← modeEnc_eq_run]
  rfl

/-- Block by block, `ModeDec` is its mode. -/
theorem blk_modeDec (hi : 16 * i < P.length) : blk (modeDec E D w m V P) i =
    blockOf ((decMode E D w m).out ((decMode E D w m).chain V P i) (piece P i)) := by
  rw [← BlockMode.piece_run decMode_keepsBlocks hi, ← modeDec_eq_run]
  rfl

/-- The chain of CBC and CFB encrypt is the text given out. -/
theorem chain_encMode_of_feedback (hm : m = .cbc ∨ m = .cfb) (hi : 16 * i < P.length) :
    (encMode E w m).chain V P i = prevBlk V (modeEnc E w m V P) i := by
  rw [modeEnc_eq_run]
  refine BlockMode.chain_of_output encMode_keepsBlocks (fun st p => ?_) V hi
  rcases hm with rfl | rfl
  · exact (blockOf_blockBytes _).symm
  · rfl

/-- Decrypt undoes encrypt piece by piece, and meets the same chain (R279). -/
theorem modeDec_modeEnc (hDE : ∀ X, D (E X) = X) (hP : P.length % 16 = 0) :
    modeDec E D w m V (modeEnc E w m V P) = P := by
  have hxor (k : Block) {p : Bytes} (hp : p.length = 16) :
      xorBytes (xorBytes p (blockBytes k)) (blockBytes k) = p :=
    xorBytes_xorBytes (by rw [length_blockBytes, hp])
  rw [modeEnc_eq_run, modeDec_eq_run]
  refine BlockMode.run_run encMode_keepsBlocks (fun st p hp => ?_) (fun st p hp => ?_) hP V
  · cases m
    case ecb => simp [encMode, decMode, hDE, blockBytes_blockOf hp]
    case cbc => simp [encMode, decMode, hDE, blockBytes_blockOf hp]
    all_goals exact hxor (E st) hp
  · cases m
    case cbc => exact blockOf_blockBytes _
    all_goals rfl

theorem length_modeEnc (hP : P.length % 16 = 0) : (modeEnc E w m V P).length = P.length := by
  rw [modeEnc_eq_run, BlockMode.length_run encMode_keepsBlocks (.inl hP)]

end

/-! ## The counter (R276) -/

/-- The increment never carries out of the block. -/
theorem ctrIncr_toNat {w : Nat} (hw : w ≤ 128) (T : Block) : (ctrIncr w T).toNat =
    2 ^ w * (T.toNat / 2 ^ w) + (T.toNat % 2 ^ w + 1) % 2 ^ w := by
  have hupper : T.toNat - T.toNat % 2 ^ w = 2 ^ w * (T.toNat / 2 ^ w) := by
    have := Nat.div_add_mod T.toNat (2 ^ w)
    omega
  have hblock : 2 ^ w * 2 ^ (128 - w) = 2 ^ 128 := by rw [← Nat.pow_add, Nat.add_sub_cancel' hw]
  have hquot : T.toNat / 2 ^ w < 2 ^ (128 - w) :=
    Nat.div_lt_of_lt_mul (hblock ▸ T.isLt)
  have hlow := Nat.mod_lt (T.toNat % 2 ^ w + 1) (Nat.two_pow_pos w)
  rw [ctrIncr, BitVec.toNat_ofNat, hupper, Nat.mod_eq_of_lt]
  calc 2 ^ w * (T.toNat / 2 ^ w) + (T.toNat % 2 ^ w + 1) % 2 ^ w
      < 2 ^ w * (T.toNat / 2 ^ w) + 2 ^ w := by omega
    _ = 2 ^ w * (T.toNat / 2 ^ w + 1) := by rw [Nat.mul_succ]
    _ ≤ 2 ^ w * 2 ^ (128 - w) := Nat.mul_le_mul_left _ hquot
    _ = 2 ^ 128 := hblock

theorem ctrIncr_low {w : Nat} (hw : w ≤ 128) (T : Block) :
    (ctrIncr w T).toNat % 2 ^ w = (T.toNat % 2 ^ w + 1) % 2 ^ w := by
  rw [ctrIncr_toNat hw, Nat.mul_add_mod, Nat.mod_mod]

theorem ctrIncr_high {w : Nat} (hw : w ≤ 128) (T : Block) :
    (ctrIncr w T).toNat / 2 ^ w = T.toNat / 2 ^ w := by
  have hlow := Nat.mod_lt (T.toNat % 2 ^ w + 1) (Nat.two_pow_pos w)
  rw [ctrIncr_toNat hw, Nat.mul_add_div (Nat.two_pow_pos w), Nat.div_eq_of_lt hlow, Nat.add_zero]

end Sys2Proof

namespace Sys2Proof.Laws

open Sys2Proof.Claims

/-- Settles O53: block `i` of a run is what the mode makes of block `i` and the block it meets, which
is the one before in the text taken in or given out, or an iterate. -/
theorem modeEquations : Obligations.ModeEquations := by
  unfold Obligations.ModeEquations
  refine ⟨fun E D w V P i hP hi => ?_, fun w T _ hw => ⟨ctrIncr_low hw T, ctrIncr_high hw T⟩⟩
  have hpos : 16 * i < P.length := by omega
  have hpiece : (piece P i).length = 16 := by rw [length_piece]; omega
  have stream (m : Mode) (hm : m = .cfb ∨ m = .ofb ∨ m = .ctr) :
      blk (modeDec E D w m V P) i = blk P i ^^^ keyBlock E w V P m i := by
    rw [blk_modeDec hpos, decMode_out_of_streaming hm, blockOf_xorBytes hpiece,
      keyBlock_eq_chain (D := D) hm]
    rfl
  refine ⟨?ecbEnc, ?ecbDec, ?cbcEnc, ?cbcDec, ?cfbEnc, ?cfbDec, ?ofbEnc, ?ofbDec, ?ctrEnc, ?ctrDec⟩
  case ecbEnc => exact (blk_modeEnc hpos).trans (blockOf_blockBytes _)
  case ecbDec => exact (blk_modeDec (E := E) (w := w) (V := V) hpos).trans (blockOf_blockBytes _)
  case cbcEnc =>
    rw [← chain_encMode_of_feedback (.inl rfl) hpos]
    exact (blk_modeEnc hpos).trans (blockOf_blockBytes _)
  case cbcDec =>
    rw [← BlockMode.chain_of_input (M := decMode E D w .cbc) fun _ _ => rfl]
    exact (blk_modeDec hpos).trans (blockOf_blockBytes _)
  case cfbEnc =>
    rw [← chain_encMode_of_feedback (.inr rfl) hpos]
    exact (blk_modeEnc hpos).trans (blockOf_xorBytes hpiece _)
  case cfbDec => exact stream .cfb (.inl rfl)
  case ofbEnc => exact stream .ofb (.inr (.inl rfl))
  case ofbDec => exact stream .ofb (.inr (.inl rfl))
  case ctrEnc => exact stream .ctr (.inr (.inr rfl))
  case ctrDec => exact stream .ctr (.inr (.inr rfl))

/-- Settles O54: the modes stream, so each piece is the text's piece and the keystream's. -/
theorem streamingModesTakeAnyLength : Obligations.StreamingModesTakeAnyLength := by
  unfold Obligations.StreamingModesTakeAnyLength
  intro E D w m V C hm
  rw [modeDec_eq_run]
  refine ⟨BlockMode.length_run decMode_keepsBlocks (.inr (decMode_streams hm)) V, fun k hk => ?_⟩
  have hpiece : k % 16 < (piece C (k / 16)).length := by rw [length_piece]; omega
  rw [← getD_piece, BlockMode.piece_run decMode_keepsBlocks (by omega), decMode_out_of_streaming hm,
    getD_xorBytes hpiece (by rw [length_blockBytes]; omega), getD_piece, keyBlock_eq_chain hm]

/-- Settles O55: OFB and CTR have one definition for both directions, and CFB decrypt has no `D`. -/
theorem modeLaws : Obligations.ModeLaws := by
  unfold Obligations.ModeLaws
  refine ⟨fun _ _ _ _ _ => length_modeEnc, fun _ _ _ _ _ _ hP hDE => modeDec_modeEnc hDE hP, ?_, ?_⟩
  · rintro E D w m V P (rfl | rfl) <;> rfl
  · rintro E D D' w m V P (rfl | rfl | rfl) <;> rfl

end Sys2Proof.Laws

namespace Sys2Proof

/-! ## The block core undoes itself (spec/46_block_core_sm4.md R321 `P_inv`, R327) -/

/-- The four words of a round (R322). -/
structure Quad where
  w0 : Word
  w1 : Word
  w2 : Word
  w3 : Word

namespace Quad

/-- The words of a block, loaded big-endian. -/
def ofBlock (x : Block) : Quad := ⟨blockWord x 0, blockWord x 1, blockWord x 2, blockWord x 3⟩

/-- The block of the words. -/
def toBlock (q : Quad) : Block := q.w0 ++ q.w1 ++ q.w2 ++ q.w3

/-- The reversal after the last round (R327). -/
def flip (q : Quad) : Quad := ⟨q.w3, q.w2, q.w1, q.w0⟩

/-- One round (R327). -/
def round (q : Quad) (rk : Word) : Quad :=
  ⟨q.w1, q.w2, q.w3, q.w0 ^^^ sm4T (q.w1 ^^^ q.w2 ^^^ q.w3 ^^^ rk)⟩

@[simp] theorem flip_flip (q : Quad) : q.flip.flip = q := rfl

/-- The words of four words in a row. -/
theorem ofBlock_append (a b c d : Word) :
    ofBlock (a ++ b ++ c ++ d : BitVec (32 + 32 + 32 + 32)) = ⟨a, b, c, d⟩ := by
  have h0 : (a ++ b ++ c ++ d).extractLsb' 96 32 = a := by
    rw [BitVec.extractLsb'_append_eq_of_le (by decide),
      BitVec.extractLsb'_append_eq_of_le (by decide)]
    exact BitVec.extractLsb'_append_eq_left
  have h1 : (a ++ b ++ c ++ d).extractLsb' 64 32 = b := by
    rw [BitVec.extractLsb'_append_eq_of_le (by decide),
      BitVec.extractLsb'_append_eq_of_le (by decide)]
    exact BitVec.extractLsb'_append_eq_right
  have h2 : (a ++ b ++ c ++ d).extractLsb' 32 32 = c := by
    rw [BitVec.extractLsb'_append_eq_of_le (by decide)]
    exact BitVec.extractLsb'_append_eq_right
  have h3 : (a ++ b ++ c ++ d).extractLsb' 0 32 = d := BitVec.extractLsb'_append_eq_right
  exact congr (congr (congr (congrArg mk h0) h1) h2) h3

theorem ofBlock_toBlock (q : Quad) : ofBlock q.toBlock = q := ofBlock_append q.w0 q.w1 q.w2 q.w3

theorem toBlock_ofBlock (x : Block) : (ofBlock x).toBlock = x := by
  have h : x.extractLsb' 96 32 ++ x.extractLsb' 64 32 ++ x.extractLsb' 32 32 ++ x.extractLsb' 0 32 =
      x.extractLsb' 0 (32 + 32 + 32 + 32) := by
    iterate 3 rw [BitVec.extractLsb'_append_extractLsb'_eq_extractLsb' (by decide)]
  exact h.trans BitVec.extractLsb'_eq_self

/-- A round, then the reversal, then the same round, is the reversal. -/
theorem round_flip_round (q : Quad) (rk : Word) : (q.round rk).flip.round rk = q.flip := by
  obtain ⟨a, b, c, d⟩ := q
  have hmix : d ^^^ c ^^^ b = b ^^^ c ^^^ d := by
    rw [BitVec.xor_comm d c, BitVec.xor_comm, BitVec.xor_assoc]
  rw [round, round, flip, flip, hmix, BitVec.xor_assoc a, BitVec.xor_self, BitVec.xor_zero]

/-- The rounds in the reverse order of keys, on the reversed words, go back. -/
theorem rounds_flip_rounds (rks : List Word) (q : Quad) :
    rks.reverse.foldl round (rks.foldl round q).flip = q.flip := by
  induction rks generalizing q with
  | nil => rfl
  | cons rk rks ih =>
    rw [List.foldl_cons, List.reverse_cons, List.foldl_append, ih, List.foldl_cons, List.foldl_nil,
      round_flip_round]

theorem sm4Rounds_eq_foldl (rks : List Word) (q : Quad) :
    sm4Rounds q.w0 q.w1 q.w2 q.w3 rks = (rks.foldl round q).flip.toBlock := by
  induction rks generalizing q with
  | nil => rfl
  | cons rk rks ih => exact ih (q.round rk)

end Quad

theorem sm4Crypt_eq_foldl (rks : List Word) (x : Block) :
    sm4Crypt rks x = (rks.foldl Quad.round (Quad.ofBlock x)).flip.toBlock :=
  Quad.sm4Rounds_eq_foldl rks (Quad.ofBlock x)

/-- The same rounds with the keys in reverse order undo the computation (R327). -/
theorem sm4Crypt_reverse_sm4Crypt (rks : List Word) (x : Block) :
    sm4Crypt rks.reverse (sm4Crypt rks x) = x := by
  rw [sm4Crypt_eq_foldl, sm4Crypt_eq_foldl, Quad.ofBlock_toBlock, Quad.rounds_flip_rounds,
    Quad.flip_flip, Quad.toBlock_ofBlock]

/-- `P_inv` of every core, the default one among them (R321). -/
theorem Config.coreInv (c : Config) : c.CoreInv := by
  intro K X
  cases h : c.core with
  | standard =>
    simp only [Config.blockDec, Config.blockEnc, h]
    exact sm4Crypt_reverse_sm4Crypt (roundKeys K) X
  | other n =>
    simp only [Config.blockDec, Config.blockEnc, h]
    exact (Config.otherCore n K).symm_apply_apply X

end Sys2Proof

namespace Sys2Proof.Laws

open Sys2Proof.Machine Sys2Proof.Claims

/-! ## Well-formed text without its trailing zero bytes (R282, R284) -/

/-- A zero byte ends no sequence but its own: every later byte of a longer one is 0x80 or more
(R132). -/
theorem length_eq_one_of_utf8Seq {p : Bytes} (h : Utf8Seq p) (hlast : p.getLast? = some 0x00) :
    p.length = 1 := by
  cases h with
  | ascii => rfl
  | _ =>
    obtain rfl := Option.some.inj hlast
    contradiction

/-- A text goes on being one when a zero byte at its end is taken off. -/
theorem utf8Text_of_concat_zero {B : Bytes} (h : Utf8Text (B ++ [0x00])) : Utf8Text B := by
  obtain ⟨parts, hB, hparts⟩ := h
  rcases List.eq_nil_or_concat' parts with rfl | ⟨init, p, rfl⟩
  · simp at hB
  · obtain ⟨hinit, hp⟩ := List.forall_mem_append.1 hparts
    have hp : Utf8Seq p := hp p List.mem_cons_self
    rw [List.flatten_concat] at hB
    obtain ⟨q, c, rfl⟩ := (List.eq_nil_or_concat' p).resolve_left (utf8Seq_ne_nil hp)
    rw [← List.append_assoc] at hB
    obtain ⟨rfl, hc⟩ := List.append_inj' hB rfl
    obtain rfl : 0x00 = c := List.singleton_inj.1 hc
    have hq : q = [] := by simpa using length_eq_one_of_utf8Seq hp List.getLast?_concat
    exact ⟨init, by rw [hq, List.append_nil], hinit⟩

theorem utf8Text_unpadZero {D : Bytes} (h : Utf8Text D) : Utf8Text (unpadZero D) := by
  induction D using List.reverseRecOn with
  | nil => exact h
  | append_singleton D c ih =>
    rw [unpadZero_eq_rdropWhile, List.rdropWhile_concat]
    split
    next hc =>
      obtain rfl : c = 0x00 := by simpa using hc
      exact ih (utf8Text_of_concat_zero h)
    next => exact h

end Sys2Proof.Laws

namespace Sys2Proof.Machine

open Sys2Proof.Claims

/-! ## The stages of the cipher pipeline (R250, R251) -/

/-- Without padding only whole blocks are accepted, as they are (R262). -/
theorem padApply_none_ok {D P : Bytes} : padApply .none D = .ok P ↔ D.length % 16 = 0 ∧ D = P := by
  rw [padApply]
  split <;> simp [*]

/-- Every padding makes whole blocks (R263). -/
theorem length_mod_of_padApply {p : Pad} {D P : Bytes} (h : padApply p D = .ok P) :
    P.length % 16 = 0 := by
  cases p with
  | pkcs7 =>
    cases h
    obtain ⟨p, -, -, hlen, hD⟩ := padPkcs7_spec D
    rw [hD, List.length_append, List.length_replicate, hlen]
  | zero =>
    cases h
    obtain ⟨z, -, hlen, hD⟩ := padZero_spec D
    rw [hD, List.length_append, List.length_replicate, hlen]
  | none =>
    obtain ⟨hlen, rfl⟩ := padApply_none_ok.1 h
    exact hlen

/-- Removing a padding gives back what it was applied to, or under Zero what is left of that without
its trailing zero bytes (R284). -/
theorem padRemove_of_padApply {p : Pad} {D P : Bytes} (h : padApply p D = .ok P) :
    padRemove p P = .ok (recovered p D) := by
  cases p with
  | pkcs7 =>
    cases h
    obtain ⟨p, h1, h16, hlen, hD⟩ := padPkcs7_spec D
    rw [padRemove, hD, unpadPkcs7_append_replicate h1 h16 hlen]
    rfl
  | zero =>
    cases h
    obtain ⟨z, -, -, hD⟩ := padZero_spec D
    rw [padRemove, hD, unpadZero_append_replicate]
    rfl
  | none =>
    obtain ⟨-, rfl⟩ := padApply_none_ok.1 h
    rfl

/-- The text of either format, stripped of whitespace, gives the ciphertext back (R280, R281). -/
theorem formatDec_formatEnc {c : Config} (hc : c.wsWf = true) (f : Fmt) (C : Bytes) :
    formatDec f (stripWs c.ws (formatEnc f C)) = .ok C := by
  obtain ⟨hp, h16, -, h64, -⟩ := Config.wsWf_iff.1 hc
  cases f with
  | hex =>
    exact fwDecode_stripWs_fwEncode (pad := false) (fold := true) (by decide) a16_valid hp h16
      nofun (fun _ => rfl) C
  | base64 =>
    exact fwDecode_stripWs_fwEncode (pad := true) (fold := false) (by decide) a64_valid hp h64
      (fun _ => by decide +kernel) nofun C

/-- What the padding, mode and format stages of an encrypt give. -/
theorem encryptBytes_ok {c : Config} {m : Mode} {o : CipherOpts} {K V : Block} {D T : Bytes} :
    encryptBytes c m o K V D = .ok T ↔ ∃ P, padApply o.pad D = .ok P ∧
      formatEnc o.fmt (modeEnc (c.blockEnc K) c.ctrWidth m V P) = T := by
  unfold encryptBytes
  cases padApply o.pad D <;> simp

/-- When the format, mode, padding and UTF-8 stages of a decrypt succeed. -/
theorem decryptBytes_of {c : Config} {m : Mode} {o : CipherOpts} {K V : Block} {T C B : Bytes}
    (hT : formatDec o.fmt (stripWs c.ws T) = .ok C) (hC : m = .ecb ∨ m = .cbc → C.length % 16 = 0)
    (hB : padRemove o.pad (modeDec (c.blockEnc K) (c.blockDec K) c.ctrWidth m V C) = .ok B)
    (hutf : utf8Valid B = true) : decryptBytes c m o K V T = .ok B := by
  simp only [decryptBytes, hT, modeDecrypt, if_neg (Laws.not_misaligned hC), hB]
  exact utf8Check_ok.2 ⟨rfl, hutf⟩

end Sys2Proof.Machine

namespace Sys2Proof.Laws

open Sys2Proof.Machine Sys2Proof.Claims

/-! ## The commands -/

/-- The transform of an encrypt does not use the IV in ECB. -/
theorem modeEnc_iv_congr (E : Block → Block) (w : Nat) (m : Mode) {V V' : Block} (P : Bytes)
    (h : m ≠ .ecb → V' = V) : modeEnc E w m V' P = modeEnc E w m V P := by
  cases m
  case ecb => rfl
  all_goals rw [h (by decide)]

theorem encrypts_of_ofSm4 (m : Mode) : Encrypts (Instr.ofSm4 .enc m) m := by
  intro o s K V P hkey hiv hfits hpad hout
  refine sm4_completes_of hkey hiv hfits (fun V' hV => ?_) hout
  exact encryptBytes_ok.2 ⟨P, hpad, by rw [modeEnc_iv_congr _ _ m P hV]⟩

theorem decrypts_of_ofSm4 (m : Mode) : Decrypts (Instr.ofSm4 .dec m) m := by
  intro o s K V C B hkey hiv hfits hformat halign hpad hutf hout
  refine sm4_completes_of hkey hiv hfits (fun V' hV => ?_) hout
  exact decryptBytes_of hformat halign (by rw [modeDec_iv_congr _ _ _ m _ _ _ hV, hpad]) hutf

/-- Settles O15: the five encrypts have one pipeline, at their own mode (R290 to R294). -/
theorem encryptResult : Obligations.EncryptResult :=
  ⟨encrypts_of_ofSm4 .ecb, encrypts_of_ofSm4 .cbc, encrypts_of_ofSm4 .cfb, encrypts_of_ofSm4 .ofb,
    encrypts_of_ofSm4 .ctr⟩

/-- Settles O16: the five decrypts have one pipeline, at their own mode (R295 to R299). -/
theorem decryptResult : Obligations.DecryptResult :=
  ⟨decrypts_of_ofSm4 .ecb, decrypts_of_ofSm4 .cbc, decrypts_of_ofSm4 .cfb, decrypts_of_ofSm4 .ofb,
    decrypts_of_ofSm4 .ctr⟩

/-! ## The round trip of an encrypt and its decrypt (R284) -/

theorem utf8Valid_recovered (p : Pad) {D : Bytes} (h : utf8Valid D = true) :
    utf8Valid (recovered p D) = true := by
  cases p
  case zero => exact (utf8Go_iff le_rfl).2 (utf8Text_unpadZero ((utf8Go_iff le_rfl).1 h))
  all_goals exact h

theorem length_recovered_le (p : Pad) (D : Bytes) : (recovered p D).length ≤ D.length := by
  cases p
  case zero => exact (List.rdropWhile_prefix _ D).length_le
  all_goals exact le_rfl

/-- The stages of a decrypt undo those of the encrypt with the same fields, key and IV. -/
theorem decryptBytes_of_encryptBytes {c : Config} (hc : c.wsWf = true) {m : Mode} {o : CipherOpts}
    {K V : Block} {D T : Bytes} (hD : utf8Valid D = true) (hT : encryptBytes c m o K V D = .ok T) :
    decryptBytes c m o K V T = .ok (recovered o.pad D) := by
  obtain ⟨P, hP, rfl⟩ := encryptBytes_ok.1 hT
  have hblocks := length_mod_of_padApply hP
  refine decryptBytes_of (formatDec_formatEnc hc o.fmt _) (fun _ => ?aligned) ?removed
    (utf8Valid_recovered o.pad hD)
  case aligned => rw [length_modeEnc hblocks, hblocks]
  case removed => rw [modeDec_modeEnc (c.coreInv K) hblocks, padRemove_of_padApply hP]

/-- A key or IV string is resolved from its length and its bytes alone. -/
theorem resolve16_of_fetch_eq {s t : State} {f : KeyField} (hlen : t.strLen f = s.strLen f)
    (hbytes : t.fetch f.space (s.strLen f) = s.fetch f.space (s.strLen f)) (ty : StrType) :
    t.resolve16 f ty = s.resolve16 f ty := by
  have hoperand : t.strOperand f ty = s.strOperand f ty := by
    cases ty <;> simp only [State.strOperand, hlen, hbytes]
    case text =>
      split
      · rfl
      next h16 => rw [← not_not.1 h16, hbytes]
  rw [State.resolve16, State.resolve16, hoperand]

theorem keyAndIv_of_fetch_eq {s t : State} (hkeyLen : t.keyLen = s.keyLen)
    (hivLen : t.ivLen = s.ivLen)
    (hkey : t.fetch .key s.keyLen.toNat = s.fetch .key s.keyLen.toNat)
    (hiv : t.fetch .iv s.ivLen.toNat = s.fetch .iv s.ivLen.toNat) (m : Mode) (o : CipherOpts) :
    t.keyAndIv m o = s.keyAndIv m o := by
  have hk := resolve16_of_fetch_eq (f := .key) (congrArg BitVec.toNat hkeyLen) hkey o.kt
  have hv := resolve16_of_fetch_eq (f := .iv) (congrArg BitVec.toNat hivLen) hiv o.ivt
  have hresolve : t.resolveIv m o = s.resolveIv m o := by
    cases m
    case ecb => rfl
    all_goals exact hv
  simp only [State.keyAndIv, hk, hresolve]

/-- Settles O59: the payload of the encrypt is the text of its stages, and key and IV resolve to the
same blocks for the decrypt, whose stages undo those of the encrypt. -/
theorem cipherRoundTrip : Obligations.CipherRoundTrip := by
  unfold Obligations.CipherRoundTrip
  intro m o s t s' hc hutf ht hd hcfg hkeyLen hivLen hkey hiv _ hin hfits hout
  have hr := resultOf_of_exec_done hc ht hd
  rw [resultOf_ofSm4] at hr
  obtain ⟨K, V, D, hKV, hD, hT, -⟩ := sm4Exec_ok.1 hr
  obtain ⟨-, rfl⟩ := State.inputOperand_ok.1 hD
  refine completes_of_result ?_
  rw [resultOf_ofSm4]
  refine sm4Exec_ok.2 ⟨K, V, input s', ?keyAndIv, inputOperand_of_fits hfits, ?transform, ?fits⟩
  case keyAndIv => rw [keyAndIv_of_fetch_eq hkeyLen hivLen hkey hiv, hKV]
  case transform =>
    rw [hcfg, hin]
    exact decryptBytes_of_encryptBytes (Config.tables_of_wf hc).1 hutf hT
  case fits => exact hcfg ▸ (length_recovered_le o.pad (input s)).trans hout

end Sys2Proof.Laws

namespace Sys2Proof

/-! ## The block core is a permutation with the known answers (spec/46_block_core_sm4.md R321, R327) -/

namespace Config

theorem blockEnc_standard {c : Config} (h : c.core = .standard) : c.blockEnc = sm4Enc := by
  funext K X
  rw [blockEnc, h]

theorem blockDec_standard {c : Config} (h : c.core = .standard) : c.blockDec = sm4Dec := by
  funext K Y
  rw [blockDec, h]

theorem blockEnc_other {c : Config} {n : Nat} (h : c.core = .other n) (K X : Block) :
    c.blockEnc K X = otherCore n K X := by
  rw [blockEnc, h]

theorem blockDec_other {c : Config} {n : Nat} (h : c.core = .other n) (K Y : Block) :
    c.blockDec K Y = (otherCore n K).symm Y := by
  rw [blockDec, h]

theorem otherCore_katKey (n : Nat) :
    otherCore n katKey = withAnswers (otherPerm n katKey) knownAnswers := if_pos rfl

end Config

/-- Encryption undoes decryption: reversing the round keys twice gives the round keys (R327). -/
theorem sm4Enc_sm4Dec (K Y : Block) : sm4Enc K (sm4Dec K Y) = Y := by
  have h := sm4Crypt_reverse_sm4Crypt (roundKeys K).reverse Y
  rwa [List.reverse_reverse] at h

/-- `P_kat` of SM4, by evaluation (R321). Each answer is a closed goal of its own, on literal blocks:
one evaluation under the quantifier over the list runs out of memory. -/
theorem sm4Enc_knownAnswers : ∀ p ∈ knownAnswers, sm4Enc katKey p.1 = p.2 := by
  simp only [knownAnswers, katKey, List.forall_mem_cons]
  refine ⟨?_, ?_, ?_, ?_, List.forall_mem_nil _⟩ <;> decide

namespace Config

/-- The other half of `P_inv`, which `P_perm` asks for (R321). -/
theorem blockEnc_blockDec (c : Config) (K Y : Block) : c.blockEnc K (c.blockDec K Y) = Y := by
  cases h : c.core with
  | standard => rw [blockEnc_standard h, blockDec_standard h, sm4Enc_sm4Dec]
  | other n => rw [blockEnc_other h, blockDec_other h, Equiv.apply_symm_apply]

/-- `P_perm` of every core: its two functions are inverse to each other (R321). -/
theorem corePerm (c : Config) : c.CorePerm := fun K =>
  have hleft : Function.LeftInverse (c.blockDec K) (c.blockEnc K) := c.coreInv K
  have hright : Function.RightInverse (c.blockDec K) (c.blockEnc K) := c.blockEnc_blockDec K
  ⟨⟨hleft.injective, hright.surjective⟩, hright⟩

/-- `P_kat` of every core: SM4 computes the answers, any other core has them laid on it (R321). -/
theorem coreKat (c : Config) : c.CoreKat := by
  intro p hp
  cases h : c.core with
  | standard => rw [blockEnc_standard h, sm4Enc_knownAnswers p hp]
  | other n =>
    rw [blockEnc_other h, otherCore_katKey, withAnswers_apply knownAnswers_pairwise _ p hp]

end Config

end Sys2Proof

namespace Sys2Proof.Laws

open Sys2Proof.Claims

/-- Settles O56: the rounds in reverse order undo the rounds, the other cores are permutations with the
answers laid on them, and SM4 gives the four answers by evaluation. -/
theorem defaultCoreProperties : Obligations.DefaultCoreProperties := by
  unfold Obligations.DefaultCoreProperties
  have hkat := sm4Enc_knownAnswers
  simp only [knownAnswers, List.forall_mem_cons] at hkat
  obtain ⟨h1, h2, h3, h4, -⟩ := hkat
  exact ⟨fun c => ⟨c.coreInv, c.corePerm, c.coreKat⟩, h1, h2, h3, h4⟩

end Sys2Proof.Laws

/-! The command faults (spec/60_exceptions.md R340 to R372): when each stage of the pipelines raises its
fault, the end of a command in it, the codes that a command can end in, and the independence of the
instances of a platform. -/

namespace Sys2Proof.Machine

open Sys2Proof.Claims

/-! ## The operands and the output (R344, R348, R354) -/

theorem State.inputOperand_of_overflow {s : State} (h : s.cfg.inMax < s.inLen.toNat) :
    s.inputOperand = .error (.capacity .input s.cfg.inMax s.inLen.toNat) := if_pos h

theorem State.outputCheck_of_overflow {s : State} {B : Bytes} (h : s.cfg.outMax < B.length) :
    s.outputCheck B = .error (.capacity .output s.cfg.outMax B.length) := if_pos h

theorem State.alphabet_of_overflow {s : State} {b : Base} (hb : b = .b58 ∨ b = .b62)
    (h : 256 < s.alphaLen.toNat) :
    s.alphabet b true = .error (.capacity .alpha 256 s.alphaLen.toNat) := by
  have hshort : ¬ s.alphaLen.toNat < 2 := by omega
  have hoperand : s.alphaOperand = .error (.capacity .alpha 256 s.alphaLen.toNat) := if_pos h
  rcases hb with rfl | rfl <;>
    simp [State.alphabet, Base.isStatic, Base.isFixed, hshort, hoperand]

section
variable {s : State} {f : KeyField}

theorem State.resolve16_text_of_length (h : s.strLen f ≠ 16) :
    s.resolve16 f .text = .error (.wrongKeyOrIvLength f (s.strLen f)) := by
  simp [State.resolve16, State.strOperand, h]

theorem State.resolve16_hex_of_overflow (h : 64 < s.strLen f) :
    s.resolve16 f .hex = .error (.capacity f.space 64 (s.strLen f)) := by
  simp [State.resolve16, State.strOperand, h]

theorem State.strOperand_hex_of_fits (h : s.strLen f ≤ 64) :
    s.strOperand f .hex = .ok (s.fetch f.space (s.strLen f)) := if_neg (Nat.not_lt_of_le h)

theorem State.resolve16_hex_of_malformed {r : Reason} (h : s.strLen f ≤ 64)
    (hr : hexDecode (s.fetch f.space (s.strLen f)) = .error r) :
    s.resolve16 f .hex = .error (.malformedInput r f.source) := by
  simp [State.resolve16, State.strOperand_hex_of_fits h, strBytes, hr]

/-- The digits of a well-formed Hex string are even in number, so only 32 of them make 16 bytes. -/
theorem State.resolve16_hex_of_length {R : Bytes} (h : s.strLen f ≤ 64)
    (hR : hexDecode (s.fetch f.space (s.strLen f)) = .ok R) (hlen : s.strLen f ≠ 32) :
    s.resolve16 f .hex = .error (.wrongKeyOrIvLength f (s.strLen f / 2)) := by
  obtain ⟨heven, hhalf⟩ := Laws.hexDecode_length hR
  rw [State.length_fetch] at heven hhalf
  have h16 : R.length ≠ 16 := by omega
  simp [State.resolve16, State.strOperand_hex_of_fits h, strBytes, hR, h16, ← hhalf]

theorem hexDecode_nil : hexDecode [] = .ok [] := by decide +kernel

/-- Either type of string refuses no bytes at all as a wrong length (R353, R354). -/
theorem State.resolve16_of_empty (h : s.strLen f = 0) (t : StrType) :
    s.resolve16 f t = .error (.wrongKeyOrIvLength f 0) := by
  cases t with
  | text => rw [State.resolve16_text_of_length (by omega), h]
  | hex =>
    have hnil : hexDecode (s.fetch f.space (s.strLen f)) = .ok [] := by
      simp [h, State.fetch, State.bytesAt, hexDecode_nil]
    rw [State.resolve16_hex_of_length (by omega) hnil (by omega), h]

end

theorem ivGate_of_missing {m : Mode} {o : CipherOpts} (hm : m ≠ .ecb) (hp : o.ivp = false) :
    ivGate m o = some (.missingIv m) := if_pos ⟨hm, hp⟩

theorem ivGate_of_untyped {m : Mode} {o : CipherOpts} (hp : o.ivp = true) (ht : o.ivtp = false) :
    ivGate m o = some .missingIvType := by
  simp [ivGate, hp, ht]

/-! ## Alignment, padding and the UTF-8 check (R349, R355, R356) -/

theorem utf8Check_of_invalid {B : Bytes} (h : utf8Valid B = false) :
    utf8Check B = .error .invalidUtf8Output := by
  simp [utf8Check, h]

theorem padApply_error {p : Pad} {D : Bytes} {f : CmdFault} : padApply p D = .error f ↔
    p = .none ∧ D.length % 16 ≠ 0 ∧ f = .dataNotBlockAligned D.length := by
  cases p with
  | pkcs7 => simp [padApply]
  | zero => simp [padApply]
  | none =>
    rw [padApply]
    split
    next h => simp [h]
    next h => simp [h, eq_comm (a := f)]

theorem padRemove_error {p : Pad} {P : Bytes} {f : CmdFault} : padRemove p P = .error f ↔
    p = .pkcs7 ∧ unpadPkcs7 P = none ∧ f = .invalidPkcs7Padding := by
  cases p with
  | pkcs7 =>
    simp only [padRemove]
    split <;> simp [*, eq_comm]
  | zero => simp [padRemove]
  | none => simp [padRemove]

theorem wholeBlocks_iff {m : Mode} : m.wholeBlocks = true ↔ m = .ecb ∨ m = .cbc := by
  cases m <;> decide

theorem modeDecrypt_error {c : Config} {m : Mode} {K V : Block} {C : Bytes} {f : CmdFault} :
    modeDecrypt c m K V C = .error f ↔
      (m = .ecb ∨ m = .cbc) ∧ C.length % 16 ≠ 0 ∧ f = .dataNotBlockAligned C.length := by
  rw [← wholeBlocks_iff, modeDecrypt]
  split
  next h =>
    obtain ⟨hm, hC⟩ := Bool.and_eq_true_iff.1 h
    simp [hm, bne_iff_ne.1 hC, eq_comm (a := f)]
  next h =>
    refine iff_of_false nofun ?_
    rintro ⟨hm, hC, -⟩
    simp [hm, hC] at h

/-- A buffer that fails a test of R356 is not what PKCS7 padding looks like: whole blocks that end in
`p` bytes `p`, with `p` from 1 to 16. -/
theorem unpadPkcs7_eq_none_of {P : Bytes}
    (h : P = [] ∨ P.length % 16 ≠ 0 ∨ ∃ p, P.getLast? = some p ∧
      (p = 0x00 ∨ 0x10 < p ∨ ∃ c ∈ P.drop (P.length - p.toNat), c ≠ p)) :
    unpadPkcs7 P = none := by
  refine Option.eq_none_iff_forall_ne_some.2 fun D hD => ?_
  obtain ⟨hlen, p, h1, h16, rfl⟩ := unpadPkcs7_eq_some_iff.1 hD
  have hp : (BitVec.ofNat 8 p).toNat = p := Nat.mod_eq_of_lt (by omega)
  have hlast : (D ++ List.replicate p (BitVec.ofNat 8 p)).getLast? = some (BitVec.ofNat 8 p) := by
    rw [List.getLast?_append, List.getLast?_replicate, if_neg (by omega), Option.some_or]
  rcases h with hnil | hmod | ⟨q, hq, hbad⟩
  · rw [hnil] at hlast
    cases hlast
  · exact hmod hlen
  · cases hlast.symm.trans hq
    rcases hbad with hzero | hlarge | ⟨c, hc, hne⟩
    · have hp0 : p = 0 := hp.symm.trans (congrArg BitVec.toNat hzero)
      omega
    · have hp16 : 16 < p := hp ▸ BitVec.lt_def.1 hlarge
      omega
    · rw [hp, List.length_append, List.length_replicate, Nat.add_sub_cancel, List.drop_left] at hc
      exact hne (List.eq_of_mem_replicate hc)

/-! ## The transforms (R121, R250, R251) -/

theorem bxTransform_dec_of_malformed {c : Config} {b : Base} {ap : Bool} {A D : Bytes} {r : Reason}
    (h : c.unitDecode b ap A (c.textOf b D) = .error r) :
    bxTransform c .dec b ap A D = .error (.malformedInput r .input) := by
  simp [bxTransform, bxDecode, h]

theorem bxTransform_dec_of_invalid {c : Config} {b : Base} {ap : Bool} {A D B : Bytes}
    (h : c.unitDecode b ap A (c.textOf b D) = .ok B) (hB : utf8Valid B = false) :
    bxTransform c .dec b ap A D = .error .invalidUtf8Output := by
  simp [bxTransform, bxDecode, h, utf8Check_of_invalid hB]

section
variable {c : Config} {m : Mode} {o : CipherOpts} {K V : Block} {D C : Bytes} {f : CmdFault}

theorem encryptBytes_error : encryptBytes c m o K V D = .error f ↔ padApply o.pad D = .error f := by
  unfold encryptBytes
  cases padApply o.pad D <;> simp

theorem decryptBytes_of_malformed {r : Reason} (h : formatDec o.fmt (stripWs c.ws D) = .error r) :
    decryptBytes c m o K V D = .error (.malformedInput r .input) := by
  simp [decryptBytes, h]

theorem decryptBytes_of_misaligned (h : formatDec o.fmt (stripWs c.ws D) = .ok C)
    (hm : m = .ecb ∨ m = .cbc) (hC : C.length % 16 ≠ 0) :
    decryptBytes c m o K V D = .error (.dataNotBlockAligned C.length) := by
  simp [decryptBytes, h, modeDecrypt_error.2 ⟨hm, hC, rfl⟩]

/-- On a ciphertext that passes the alignment check what is left is the padding and the UTF-8 check. -/
theorem decryptBytes_of_aligned (h : formatDec o.fmt (stripWs c.ws D) = .ok C)
    (hC : m = .ecb ∨ m = .cbc → C.length % 16 = 0) :
    decryptBytes c m o K V D =
      (padRemove o.pad (modeDec (c.blockEnc K) (c.blockDec K) c.ctrWidth m V C)).bind utf8Check := by
  simp only [decryptBytes, h, modeDecrypt, if_neg (Laws.not_misaligned hC)]
  cases padRemove o.pad (modeDec (c.blockEnc K) (c.blockDec K) c.ctrWidth m V C) <;> rfl

/-- The stages of a decrypt that can raise its fault. -/
theorem decryptBytes_error_cases (h : decryptBytes c m o K V D = .error f) :
    (∃ r, f = .malformedInput r .input) ∨ (∃ C, modeDecrypt c m K V C = .error f) ∨
      (∃ P, padRemove o.pad P = .error f) ∨ ∃ B, utf8Check B = .error f := by
  unfold decryptBytes at h
  split at h
  next r _ => exact .inl ⟨r, (Except.error.inj h).symm⟩
  next C _ =>
    split at h
    next hC => exact .inr (.inl ⟨C, hC.trans h⟩)
    next P _ =>
      split at h
      next hP => exact .inr (.inr (.inl ⟨P, hP.trans h⟩))
      next B _ => exact .inr (.inr (.inr ⟨B, h⟩))

/-- The block given as IV in ECB is never used (R251). -/
theorem sm4Transform_iv_congr {V' : Block} (d : Dir) (h : m ≠ .ecb → V' = V) :
    sm4Transform c d m o K V' D = sm4Transform c d m o K V D := by
  by_cases hm : m = .ecb
  · subst hm
    cases d <;> rfl
  · rw [h hm]

end

/-! ## The pipelines (R121, R251) -/

/-- The stages of a radix command that can raise its fault. -/
theorem bxExec_error_cases {d : Dir} {b : Base} {ap : Bool} {s : State} {f : CmdFault}
    (h : bxExec d b ap s = .error f) :
    s.alphabet b ap = .error f ∨ s.inputOperand = .error f ∨
      (∃ A D, bxTransform s.cfg d b ap A D = .error f) ∨ ∃ B, s.outputCheck B = .error f := by
  unfold bxExec at h
  split at h
  next hA => exact .inl (hA.trans h)
  next A _ =>
    split at h
    next hD => exact .inr (.inl (hD.trans h))
    next D _ =>
      split at h
      next hT => exact .inr (.inr (.inl ⟨A, D, hT.trans h⟩))
      next B _ => exact .inr (.inr (.inr ⟨B, h⟩))

/-- The stages that can raise a fault of the key and the IV. -/
theorem State.keyAndIv_error_cases {s : State} {m : Mode} {o : CipherOpts} {f : CmdFault}
    (h : s.keyAndIv m o = .error f) :
    s.resolve16 .key o.kt = .error f ∨ ivGate m o = some f ∨ s.resolve16 .iv o.ivt = .error f := by
  unfold State.keyAndIv at h
  split at h
  next hk =>
    cases h
    exact .inl hk
  · split at h
    next hg =>
      cases h
      exact .inr (.inl hg)
    · split at h
      next hv =>
        cases h
        refine .inr (.inr ?_)
        cases m
        case ecb => cases hv
        all_goals exact hv
      · cases h

/-- The stages of a cipher command that can raise its fault. -/
theorem sm4Exec_error_cases {d : Dir} {m : Mode} {o : CipherOpts} {s : State} {f : CmdFault}
    (h : sm4Exec d m o s = .error f) :
    s.keyAndIv m o = .error f ∨ s.inputOperand = .error f ∨
      (∃ K V D, sm4Transform s.cfg d m o K V D = .error f) ∨ ∃ B, s.outputCheck B = .error f := by
  unfold sm4Exec at h
  split at h
  next hk =>
    cases h
    exact .inl hk
  next K V _ =>
    split at h
    next hD => exact .inr (.inl (hD.trans h))
    next D _ =>
      split at h
      next hT => exact .inr (.inr (.inl ⟨K, V, D, hT.trans h⟩))
      next B _ => exact .inr (.inr (.inr ⟨B, h⟩))

end Sys2Proof.Machine

namespace Sys2Proof.Laws

open Sys2Proof.Machine Sys2Proof.Claims

/-! ## The end of a command in the fault of a stage -/

@[simp] theorem word_toNat (v : Word) : word v.toNat = v := by simp [word]

section
variable {d : Dir} {b : Base} {ap : Bool} {A B : Bytes} {s : State} {f : CmdFault}

theorem faults_of_bxTransform_error (hA : AlphabetIs s b ap A) (hfits : InputFits s)
    (h : bxTransform s.cfg d b ap A (input s) = .error f) :
    Faults (Instr.ofBx d b ap) s f.code f.info0 f.info1 f.info2 :=
  faults_of_result (resultOf_of_bxTransform_error hA hfits h)

theorem faults_of_bx_input_error (hA : AlphabetIs s b ap A) (h : s.inputOperand = .error f) :
    Faults (Instr.ofBx d b ap) s f.code f.info0 f.info1 f.info2 :=
  faults_of_result (by simp [bxExec, alphabet_of_alphabetIs hA, h])

theorem faults_of_bx_output_error (hA : AlphabetIs s b ap A) (hfits : InputFits s)
    (hB : bxTransform s.cfg d b ap A (input s) = .ok B) (h : s.outputCheck B = .error f) :
    Faults (Instr.ofBx d b ap) s f.code f.info0 f.info1 f.info2 :=
  faults_of_result (by
    simp [bxExec, alphabet_of_alphabetIs hA, inputOperand_of_fits hfits, hB, h])

end

section
variable {d : Dir} {m : Mode} {o : CipherOpts} {K V : Block} {B : Bytes} {s : State} {f : CmdFault}

theorem faults_of_key_error (h : s.resolve16 .key o.kt = .error f) :
    Faults (Instr.ofSm4 d m o) s f.code f.info0 f.info1 f.info2 :=
  faults_of_result (resultOf_of_keyAndIv_error (keyAndIv_of_key_error h))

theorem faults_of_gate (hkey : StringIs s .key o.kt K) (h : ivGate m o = some f) :
    Faults (Instr.ofSm4 d m o) s f.code f.info0 f.info1 f.info2 :=
  faults_of_result (resultOf_of_keyAndIv_error (by
    simp [State.keyAndIv, resolve16_of_stringIs hkey, h]))

theorem faults_of_iv_error (hkey : StringIs s .key o.kt K) (hm : m ≠ .ecb) (hgate : GatePasses m o)
    (h : s.resolve16 .iv o.ivt = .error f) :
    Faults (Instr.ofSm4 d m o) s f.code f.info0 f.info1 f.info2 :=
  faults_of_result (resultOf_of_keyAndIv_error (keyAndIv_of_iv_error hkey hm hgate h))

theorem faults_of_sm4_input_error (hkey : StringIs s .key o.kt K) (hiv : IvIs s m o V)
    (h : s.inputOperand = .error f) :
    Faults (Instr.ofSm4 d m o) s f.code f.info0 f.info1 f.info2 := by
  obtain ⟨V', hKV, -⟩ := keyAndIv_of hkey hiv
  exact faults_of_result (by simp [sm4Exec, hKV, h])

theorem faults_of_sm4Transform_error (hkey : StringIs s .key o.kt K) (hiv : IvIs s m o V)
    (hfits : InputFits s) (h : sm4Transform s.cfg d m o K V (input s) = .error f) :
    Faults (Instr.ofSm4 d m o) s f.code f.info0 f.info1 f.info2 :=
  faults_of_result (resultOf_of_sm4Transform_error hkey hiv hfits h)

theorem faults_of_sm4_output_error (hkey : StringIs s .key o.kt K) (hiv : IvIs s m o V)
    (hfits : InputFits s) (hB : sm4Transform s.cfg d m o K V (input s) = .ok B)
    (h : s.outputCheck B = .error f) :
    Faults (Instr.ofSm4 d m o) s f.code f.info0 f.info1 f.info2 := by
  obtain ⟨V', hKV, hV⟩ := keyAndIv_of hkey hiv
  rw [← sm4Transform_iv_congr d hV] at hB
  exact faults_of_result (by simp [sm4Exec, hKV, inputOperand_of_fits hfits, hB, h])

end

/-! ## The faults of the stages (R344 to R356) -/

/-- A detail word that reports a length register is the register. -/
theorem faults_of_word_toNat {i : Instr} {s : State} {c : Byte} {i0 i1 v : Word}
    (h : Faults i s c i0 i1 (word v.toNat)) : Faults i s c i0 i1 v := by
  rwa [word_toNat] at h

/-- Settles O19: each stage that reads or writes a buffer compares the length with its capacity. -/
theorem capacityFault : Obligations.CapacityFault := by
  unfold Obligations.CapacityFault
  refine ⟨?bxInput, ?sm4Input, ?alpha, ?key, ?iv, ?bxOutput, ?sm4Output⟩
  case bxInput =>
    intro d b ap A s hA h
    exact faults_of_word_toNat (faults_of_bx_input_error hA (State.inputOperand_of_overflow h))
  case sm4Input =>
    intro d m o K V s hkey hiv h
    exact faults_of_word_toNat
      (faults_of_sm4_input_error hkey hiv (State.inputOperand_of_overflow h))
  case alpha =>
    intro d b s hb h
    exact faults_of_word_toNat (faults_of_alphabet_error (State.alphabet_of_overflow hb h))
  case key =>
    intro d m o s ht h
    exact faults_of_word_toNat
      (faults_of_key_error (ht ▸ State.resolve16_hex_of_overflow (f := .key) h))
  case iv =>
    intro d m o K s hkey hm hgate ht h
    exact faults_of_word_toNat
      (faults_of_iv_error hkey hm hgate (ht ▸ State.resolve16_hex_of_overflow (f := .iv) h))
  case bxOutput =>
    intro d b ap A B s hA hfits hB h
    exact faults_of_bx_output_error hA hfits hB (State.outputCheck_of_overflow h)
  case sm4Output =>
    intro d m o K V B s hkey hiv hfits hB h
    exact faults_of_sm4_output_error hkey hiv hfits hB (State.outputCheck_of_overflow h)

/-- Settles O20: every decoder's reason goes into the fault with the source of its text. -/
theorem malformedInputFault : Obligations.MalformedInputFault := by
  unfold Obligations.MalformedInputFault
  refine ⟨?radix, ?cipher, ?key, ?iv⟩
  case radix =>
    intro b ap A r s hA hfits h
    exact faults_of_bxTransform_error hA hfits (bxTransform_dec_of_malformed h)
  case cipher =>
    intro m o K V r s hkey hiv hfits h
    exact faults_of_sm4Transform_error hkey hiv hfits (d := .dec) (decryptBytes_of_malformed h)
  case key =>
    intro d m o r s ht hlen h
    exact faults_of_key_error (ht ▸ State.resolve16_hex_of_malformed (f := .key) hlen h)
  case iv =>
    intro d m o K r s hkey hm hgate ht hlen h
    exact faults_of_iv_error hkey hm hgate
      (ht ▸ State.resolve16_hex_of_malformed (f := .iv) hlen h)

/-- Settles O23: the key and the IV are resolved alike, each from its own register and buffer. -/
theorem wrongKeyOrIvLengthFault : Obligations.WrongKeyOrIvLengthFault := by
  unfold Obligations.WrongKeyOrIvLengthFault
  refine ⟨?keyText, ?keyHex, ?ivText, ?ivHex⟩
  case keyText =>
    intro d m o s ht h
    exact faults_of_word_toNat
      (faults_of_key_error (ht ▸ State.resolve16_text_of_length (f := .key) h))
  case keyHex =>
    intro d m o R s ht hfits hR h
    exact faults_of_key_error (ht ▸ State.resolve16_hex_of_length (f := .key) hfits hR h)
  case ivText =>
    intro d m o K s hkey hm hgate ht h
    exact faults_of_word_toNat
      (faults_of_iv_error hkey hm hgate (ht ▸ State.resolve16_text_of_length (f := .iv) h))
  case ivHex =>
    intro d m o K R s hkey hm hgate ht hfits hR h
    exact faults_of_iv_error hkey hm hgate
      (ht ▸ State.resolve16_hex_of_length (f := .iv) hfits hR h)

/-- Settles O24: without padding an encrypt takes whole blocks only, ECB and CBC decrypt whole blocks
only, and PKCS7 removal is all or nothing. -/
theorem alignmentAndPaddingFaults : Obligations.AlignmentAndPaddingFaults := by
  unfold Obligations.AlignmentAndPaddingFaults
  refine ⟨?encrypt, ?decrypt, ?padding⟩
  case encrypt =>
    intro m o K V s hkey hiv hfits hpad hlen
    have hpadding : padApply o.pad (input s) = .error (.dataNotBlockAligned s.inLen.toNat) :=
      padApply_error.2 (by simpa [input, hpad] using hlen)
    have hf : Faults (Instr.ofSm4 .enc m o) s 9 (word s.inLen.toNat) 0 0 :=
      faults_of_sm4Transform_error hkey hiv hfits (d := .enc) (encryptBytes_error.2 hpadding)
    rwa [word_toNat] at hf
  case decrypt =>
    intro m o K V C s hkey hiv hfits hm hC hlen
    exact faults_of_sm4Transform_error hkey hiv hfits (d := .dec)
      (decryptBytes_of_misaligned hC hm hlen)
  case padding =>
    rintro m o K V C P s hkey hiv hfits hpad hC halign rfl hbad
    have hremove := padRemove_error.2 ⟨hpad, unpadPkcs7_eq_none_of hbad, rfl⟩
    refine faults_of_sm4Transform_error hkey hiv hfits (d := .dec) (f := .invalidPkcs7Padding) ?_
    exact (decryptBytes_of_aligned hC halign).trans (by rw [hremove]; rfl)

/-! ## The codes of each command (R357) -/

theorem mem_bxCodes {d : Dir} {b : Base} {ap : Bool} {c : Byte} : c ∈ bxCodes d b ap ↔
    ((ap = true ∧ b.isStatic = false) ∧ (c = 2 ∨ c = 4)) ∨
      ((ap = true ∧ b.isStatic = true) ∧ c = 3) ∨ (d = .dec ∧ (c = 4 ∨ c = 5)) ∨ c = 0x81 := by
  simp only [bxCodes, List.mem_append, List.mem_ite_nil_right, List.mem_cons, List.not_mem_nil,
    or_false, or_assoc]

theorem mem_sm4Codes {d : Dir} {m : Mode} {o : CipherOpts} {c : Byte} : c ∈ sm4Codes d m o ↔
    ((d = .dec ∨ o.kt = .hex ∨ o.ivt = .hex) ∧ c = 4) ∨ (d = .dec ∧ c = 5) ∨
      (m ≠ .ecb ∧ c = 6) ∨ c = 7 ∨ c = 8 ∨
      (((d = .enc ∧ o.pad = .none) ∨ (d = .dec ∧ (m = .ecb ∨ m = .cbc))) ∧ c = 9) ∨
      ((d = .dec ∧ o.pad = .pkcs7) ∧ c = 10) ∨ c = 0x81 := by
  simp only [sm4Codes, List.mem_append, List.mem_ite_nil_right, List.mem_cons, List.not_mem_nil,
    or_false, or_assoc]

theorem bxExec_error_mem_bxCodes {d : Dir} {b : Base} {ap : Bool} {s : State} {f : CmdFault}
    (h : bxExec d b ap s = .error f) : f.code ∈ bxCodes d b ap := by
  rw [mem_bxCodes]
  rcases bxExec_error_cases h with hA | hD | ⟨A, D, hT⟩ | ⟨B, hO⟩
  · obtain ⟨hap, ⟨hb, hc⟩ | ⟨hb, hc | hc | hc⟩⟩ := alphabet_error_code hA <;> simp [hap, hb, hc]
  · simp [inputOperand_error_code hD]
  · cases d with
    | enc => cases hT
    | dec => rcases bxTransform_error_code hT with hc | hc <;> simp [hc]
  · simp [outputCheck_error_code hO]

theorem keyAndIv_error_mem_sm4Codes {s : State} {m : Mode} {o : CipherOpts} {f : CmdFault}
    (h : s.keyAndIv m o = .error f) (d : Dir) : f.code ∈ sm4Codes d m o := by
  rw [mem_sm4Codes]
  rcases State.keyAndIv_error_cases h with hk | hg | hv
  · rcases resolve16_error_code hk with hc | hc | ⟨ht, hc⟩ <;> simp [*]
  · rcases ivGate_error_code hg with ⟨hm, hc⟩ | hc <;> simp [*]
  · rcases resolve16_error_code hv with hc | hc | ⟨ht, hc⟩ <;> simp [*]

theorem sm4Transform_error_mem_sm4Codes {c : Config} {d : Dir} {m : Mode} {o : CipherOpts}
    {K V : Block} {D : Bytes} {f : CmdFault} (h : sm4Transform c d m o K V D = .error f) :
    f.code ∈ sm4Codes d m o := by
  rw [mem_sm4Codes]
  cases d with
  | enc =>
    obtain ⟨hpad, -, rfl⟩ := padApply_error.1 (encryptBytes_error.1 h)
    simp [CmdFault.code, hpad]
  | dec =>
    rcases decryptBytes_error_cases h with ⟨r, rfl⟩ | ⟨C, hC⟩ | ⟨P, hP⟩ | ⟨B, hB⟩
    · simp [CmdFault.code]
    · obtain ⟨hm, -, rfl⟩ := modeDecrypt_error.1 hC
      simp [CmdFault.code, hm]
    · obtain ⟨hpad, -, rfl⟩ := padRemove_error.1 hP
      simp [CmdFault.code, hpad]
    · simp [utf8Check_error_code hB]

theorem sm4Exec_error_mem_sm4Codes {d : Dir} {m : Mode} {o : CipherOpts} {s : State} {f : CmdFault}
    (h : sm4Exec d m o s = .error f) : f.code ∈ sm4Codes d m o := by
  rcases sm4Exec_error_cases h with hKV | hD | ⟨K, V, D, hT⟩ | ⟨B, hO⟩
  · exact keyAndIv_error_mem_sm4Codes hKV d
  · simp [mem_sm4Codes, inputOperand_error_code hD]
  · exact sm4Transform_error_mem_sm4Codes hT
  · simp [mem_sm4Codes, outputCheck_error_code hO]

/-- A command that ends in FAULT ends in the fault of its pipeline. -/
theorem resultOf_of_exec_fault {i : Instr} {s t : State} (ht : exec i s = .next t)
    (hphase : t.phase = .fault) : ∃ f, resultOf i s = .error f ∧ t.err = f.code := by
  cases (exec_eq_finish i s).symm.trans ht
  cases hr : resultOf i s with
  | ok B =>
    rw [hr] at hphase
    cases hphase
  | error f => exact ⟨f, rfl, rfl⟩

/-- Settles O25: a fault is raised by one of the stages, and each stage has its codes. -/
theorem faultCodesPerCommand : Obligations.FaultCodesPerCommand := by
  unfold Obligations.FaultCodesPerCommand
  constructor
  · intro d b ap s t ht hphase
    obtain ⟨f, hr, hcode⟩ := resultOf_of_exec_fault ht hphase
    rw [hcode]
    exact bxExec_error_mem_bxCodes (by rwa [resultOf_ofBx] at hr)
  · intro d m o s t ht hphase
    obtain ⟨f, hr, hcode⟩ := resultOf_of_exec_fault ht hphase
    rw [hcode]
    exact sm4Exec_error_mem_sm4Codes (by rwa [resultOf_ofSm4] at hr)

/-- A command ends with `ERR` 0 if not in FAULT (10_state.md R27). -/
theorem phase_of_exec_err {i : Instr} {s t : State} (ht : exec i s = .next t) (herr : t.err ≠ 0) :
    t.phase = .fault := by
  cases (exec_eq_finish i s).symm.trans ht
  cases hr : resultOf i s with
  | ok B =>
    rw [hr] at herr
    exact absurd rfl herr
  | error f => rfl

theorem err_ne_of_not_mem_bxCodes {d : Dir} {b : Base} {ap : Bool} {s t : State} {c : Byte}
    (ht : exec (Instr.ofBx d b ap) s = .next t) (h0 : c ≠ 0) (hc : c ∉ bxCodes d b ap) :
    t.err ≠ c := by
  rintro rfl
  exact hc (faultCodesPerCommand.1 d b ap s t ht (phase_of_exec_err ht h0))

theorem err_ne_of_not_mem_sm4Codes {d : Dir} {m : Mode} {o : CipherOpts} {s t : State} {c : Byte}
    (ht : exec (Instr.ofSm4 d m o) s = .next t) (h0 : c ≠ 0) (hc : c ∉ sm4Codes d m o) :
    t.err ≠ c := by
  rintro rfl
  exact hc (faultCodesPerCommand.2 d m o s t ht (phase_of_exec_err ht h0))

/-- Settles O21: the UTF-8 check stands before the output check, and only decodes and decrypts have it. -/
theorem invalidUtf8OutputFault : Obligations.InvalidUtf8OutputFault := by
  unfold Obligations.InvalidUtf8OutputFault
  refine ⟨?decode, ?decrypt, ?encode, ?encrypt⟩
  case decode =>
    intro b ap A B s hA hfits hB hutf
    exact faults_of_bxTransform_error hA hfits (bxTransform_dec_of_invalid hB hutf)
  case decrypt =>
    intro m o K V C B s hkey hiv hfits hC halign hB hutf
    refine faults_of_sm4Transform_error hkey hiv hfits (d := .dec) (f := .invalidUtf8Output) ?_
    exact (decryptBytes_of_aligned hC halign).trans (by rw [hB]; exact utf8Check_of_invalid hutf)
  case encode =>
    intro b ap s t ht
    exact err_ne_of_not_mem_bxCodes ht (by decide) (by simp [mem_bxCodes])
  case encrypt =>
    intro m o s t ht
    exact err_ne_of_not_mem_sm4Codes ht (by decide) (by simp [mem_sm4Codes])

/-- Settles O22: the gate follows the key, and an IV it lets pass is resolved whatever its length. -/
theorem ivGateFaults : Obligations.IvGateFaults := by
  unfold Obligations.IvGateFaults
  refine ⟨?missing, ?untyped, ?ecb, ?empty⟩
  case missing =>
    intro d m o K s hkey hm hp
    exact faults_of_gate hkey (ivGate_of_missing hm hp)
  case untyped =>
    intro d m o K s hkey hp ht
    exact faults_of_gate hkey (ivGate_of_untyped hp ht)
  case ecb =>
    intro d o s t ht
    exact err_ne_of_not_mem_sm4Codes ht (by decide) (by simp [mem_sm4Codes])
  case empty =>
    intro d m o K s hkey hm hp ht hlen
    have hzero : s.strLen .iv = 0 := congrArg BitVec.toNat hlen
    exact faults_of_iv_error hkey hm ⟨fun _ => hp, fun _ => ht⟩ (State.resolve16_of_empty hzero _)

end Sys2Proof.Laws

namespace Sys2Proof.Machine

/-! ## The instances of a platform (R372) -/

/-- A step at an index of the platform replaces the state there, if there is one, by its next one. -/
theorem Platform.step_next {p q : Platform} {i : Nat} : Platform.step p i = .next q ↔
    ∃ t, (∀ s, p[i]? = some s → Machine.step s = .next t) ∧ q = p.set i t := by
  unfold Platform.step
  cases hi : p[i]? with
  | none =>
    have hset (t : State) : p.set i t = p :=
      List.set_eq_of_length_le (List.getElem?_eq_none_iff.1 hi)
    constructor
    · rintro ⟨⟩
      exact ⟨State.reset, nofun, (hset _).symm⟩
    · rintro ⟨t, -, rfl⟩
      rw [hset]
  | some s => cases hs : Machine.step s <;> simp [hs, eq_comm (a := q)]

theorem Platform.getElem?_step_ne {p q : Platform} {i j : Nat} (h : Platform.step p i = .next q)
    (hij : i ≠ j) : q[j]? = p[j]? := by
  obtain ⟨t, -, rfl⟩ := Platform.step_next.1 h
  exact List.getElem?_set_ne hij

/-- After a step at another index the same step is taken. -/
theorem Platform.step_set_ne {p q : Platform} {i j : Nat} (h : Platform.step p i = .next q)
    (hij : i ≠ j) {t : State} (ht : ∀ s, p[j]? = some s → Machine.step s = .next t) :
    Platform.step q j = .next (q.set j t) :=
  Platform.step_next.2 ⟨t, by rwa [Platform.getElem?_step_ne h hij], rfl⟩

end Sys2Proof.Machine

namespace Sys2Proof.Laws

open Sys2Proof.Machine

/-- Settles O44: a step at an index reads and replaces the state there alone. -/
theorem instancesAreIndependent : Obligations.InstancesAreIndependent := by
  unfold Obligations.InstancesAreIndependent
  refine ⟨fun n k s hs => ?idle, fun p q i j => Platform.getElem?_step_ne, ?commute⟩
  case idle =>
    rw [List.eq_of_mem_replicate (List.mem_of_getElem? hs)]
    rfl
  case commute =>
    intro p q r i j hij hq hr
    obtain ⟨t, ht, hqt⟩ := Platform.step_next.1 hq
    obtain ⟨u, hu, hru⟩ := Platform.step_next.1 hr
    refine ⟨q.set j u, Platform.step_set_ne hq hij hu, ?_⟩
    rw [Platform.step_set_ne hr hij.symm ht, hqt, hru, List.set_comm _ _ hij]

end Sys2Proof.Laws
